-- ==== Sys2Proof/Machine/SortedMap.lean ====
section
/-!
DEFINITION. Sparse data by key: a list of key and value pairs whose keys rise strictly, so that equal maps are
equal lists. Memory and the caches are kept in this form.
-/

namespace Sys2Proof.Machine

variable {κ ν : Type}

/-- The value of a key, if it is listed. -/
def mapGet [DecidableEq κ] (k : κ) : List (κ × ν) → Option ν
  | [] => none
  | (j, v) :: rest => if j = k then some v else mapGet k rest

/-- The map with the key set to a value. -/
def mapSet [DecidableEq κ] (lt : κ → κ → Bool) (k : κ) (v : ν) : List (κ × ν) → List (κ × ν)
  | [] => [(k, v)]
  | (j, w) :: rest =>
    if j = k then (k, v) :: rest
    else if lt k j then (k, v) :: (j, w) :: rest
    else (j, w) :: mapSet lt k v rest

/-- The map with the key not listed. -/
def mapDel [DecidableEq κ] (k : κ) : List (κ × ν) → List (κ × ν)
  | [] => []
  | (j, w) :: rest => if j = k then mapDel k rest else (j, w) :: mapDel k rest

/-- The keys rise strictly. -/
def mapSorted (lt : κ → κ → Bool) : List (κ × ν) → Bool
  | [] => true
  | (j, _) :: rest => rest.all (fun p => lt j p.1) && mapSorted lt rest

/-- The order of addresses. -/
def natLt (a b : Nat) : Bool := decide (a < b)

/-- The lexicographic order of lists of numbers. -/
def natListLt : List Nat → List Nat → Bool
  | [], [] => false
  | [], _ :: _ => true
  | _ :: _, [] => false
  | a :: as, b :: bs => natLt a b || (a == b && natListLt as bs)

end Sys2Proof.Machine
end

