-- ==== Sys2Proof/Word.lean ====
section
/-!
DEFINITION. The word types of the model.

A register of a hart is `XLEN` bits wide and `XLEN` is 32 or 64 (spec rule R21): every register is held
in 64 bits, and the 32-bit case keeps its upper half zero (`Config.trunc`). A physical address is a
natural number (its width is the platform's, rule R42): it is the key of a memory cell.
-/

namespace Sys2Proof

/-- A value of a register, a control register or an effective address (rule R21). -/
abbrev Word := BitVec 64

/-- The contents of one memory location (rule R60: a memory location is one byte). -/
abbrev Byte := BitVec 8

/-- One instruction word, `inst[31:0]` (rule R120). -/
abbrev InstrWord := BitVec 32

/-- The number of an observer: a hart or an I/O device (rule R62). -/
abbrev ObserverId := Nat

end Sys2Proof
end

