-- ==== Sys2Proof/Syntax.lean ====
section
/-!
DEFINITION. The seven CMO instructions (spec rules R3, R142 to R144, R152, R163 to R165).

A management instruction's PoC and a write instruction's level have no bits in the encoding (rule R127),
so those terms carry the register alone; a hint instruction's term carries its level (rule R128).
-/

namespace Sys2Proof

/-- A five-bit register number selects one of 32 registers (rule R21). -/
abbrev RegNum := Fin 32

/-- The four values of `level` (rules R151, R161). -/
inductive Level where
  | default
  | L1
  | L2
  | L3
  deriving DecidableEq, Repr

/-- One constructor per row of the opcode table. -/
inductive Instr where
  /-- `CBO.INVAL rs1` (rule R142). -/
  | cboInval (rs1 : RegNum)
  /-- `CBO.CLEAN rs1` (rule R143). -/
  | cboClean (rs1 : RegNum)
  /-- `CBO.FLUSH rs1` (rule R144). -/
  | cboFlush (rs1 : RegNum)
  /-- `CBO.ZERO rs1` (rule R152). -/
  | cboZero (rs1 : RegNum)
  /-- `PREFETCH.R rs1, level` (rule R163). -/
  | prefetchR (rs1 : RegNum) (level : Level)
  /-- `PREFETCH.W rs1, level` (rule R164). -/
  | prefetchW (rs1 : RegNum) (level : Level)
  /-- `PREFETCH.I rs1, level` (rule R165). -/
  | prefetchI (rs1 : RegNum) (level : Level)
  deriving DecidableEq, Repr

/-- The register that holds the effective address: the one operand every CMO instruction reads (rules R21, R124). -/
def Instr.rs1 : Instr → RegNum
  | .cboInval r => r
  | .cboClean r => r
  | .cboFlush r => r
  | .cboZero r => r
  | .prefetchR r _ => r
  | .prefetchW r _ => r
  | .prefetchI r _ => r

/-- Whether the instruction is one of the three hint instructions, which no listing encodes (rule R128). -/
def Instr.isHint : Instr → Bool
  | .cboInval _ => false
  | .cboClean _ => false
  | .cboFlush _ => false
  | .cboZero _ => false
  | .prefetchR _ _ => true
  | .prefetchW _ _ => true
  | .prefetchI _ _ => true

end Sys2Proof
end

