-- ==== Sys2Proof/Config.lean ====
section
/-!
DEFINITION. What an implementation fixes (spec rules R7 and R49), and the free values.

The parameters are ONE record of plain data, carried in `State.cfg` and changed by no step: a statement
about every state is a statement about every implementation (log entry 1). The free values are constants
with no body: nothing can evaluate them (log entry 2).
-/

namespace Sys2Proof

/-- `XLEN` is 32 or 64 (rule R21). -/
inductive Xlen where
  | rv32
  | rv64
  deriving DecidableEq, Repr

/-- The three admitted mode configurations (rule R40): M; M, S and U; M, S, U with the hypervisor extension. -/
inductive ModeSet where
  | m
  | msu
  | msuh
  deriving DecidableEq, Repr

/-- The shape of one WARL control register: a writable mask and a fixed value (rule R38). -/
structure WarlShape where
  wmask : BitVec 12
  fixed : BitVec 12
  deriving DecidableEq, Repr

/-- The value a load returns after an invalidate: memory's, or any (rule R101). -/
inductive InvalLoadValue where
  | memory
  | any
  deriving DecidableEq, Repr

/-- An observer is a hart or an I/O device (rule R62). -/
inductive ObserverKind where
  | hart
  | device
  deriving DecidableEq, Repr

/-- A range of physical addresses. -/
structure AddrRange where
  base : Nat
  size : Nat
  deriving DecidableEq, Repr

/-- The range holds the address. -/
def AddrRange.holds (r : AddrRange) (pa : Nat) : Bool := decide (r.base ≤ pa ∧ pa < r.base + r.size)

/-- One observer of the system; `cached` says whether it has a cache (rule R109: a plain device has none), `reach` which
locations it can load from or store to, that is, which it is an observer of (rule R62). -/
structure Observer where
  id     : ObserverId
  kind   : ObserverKind
  cached : Bool
  reach  : List AddrRange
  deriving DecidableEq, Repr

/-- Which observers hardware keeps coherent with which, for a range of physical addresses and one cacheability attribute:
disjoint sets, each a strictly rising list (rules R49, R67, R77). -/
structure DomainRange where
  range     : AddrRange
  cacheable : Bool
  sets      : List (List ObserverId)
  deriving DecidableEq, Repr

/-- One word that the open parameter `PrefetchDecode` gives to a hint instruction (rule R128). -/
structure PrefetchRow where
  word : InstrWord
  hint : Instr
  deriving DecidableEq, Repr

/-- The parameters of rule R7 and rule R49. -/
structure Config where
  /-- `XLEN`. -/
  xlen : Xlen
  /-- `HasS`, `HasU`, `HasH`. -/
  modes : ModeSet
  /-- The cache block size is `CBS = 2 ^ cbsLog`, at most 4096 (rule R64, decision D30). -/
  cbsLog : Fin 13
  /-- The width of a physical address (rule R92). -/
  paBits : Nat
  /-- `CSR_MCMOCONTROL`. -/
  csrM : BitVec 12
  /-- `CSR_SCMOCONTROL`. -/
  csrS : BitVec 12
  /-- `CSR_HCMOCONTROL`. -/
  csrH : BitVec 12
  /-- `CSR_VSCMOCONTROL`. -/
  csrVs : BitVec 12
  /-- `WMask_m`, `Fixed_m`. -/
  warlM : WarlShape
  /-- `WMask_s`, `Fixed_s`. -/
  warlS : WarlShape
  /-- `WMask_h`, `Fixed_h`. -/
  warlH : WarlShape
  /-- `WMask_vs`, `Fixed_vs`. -/
  warlVs : WarlShape
  /-- `VsRedirect`: a VS-mode access to `scmocontrol` reaches `vscmocontrol` (rule R39). -/
  vsRedirect : Bool
  /-- `IllegalTval`: the instruction word if true, zero if false (rule R201). -/
  illegalTvalIsWord : Bool
  /-- `HintIsLoadStore` (rule R196). -/
  hintIsLoadStore : Bool
  /-- `FlushAtomic` (rule R74). -/
  flushAtomic : Bool
  /-- `InvalLoadValue` (rule R101). -/
  invalLoadValue : InvalLoadValue
  /-- `PrefetchDecode` (rule R128). -/
  prefetchDecode : List PrefetchRow
  /-- `ResetVector` (rule R231). -/
  resetVector : Word
  /-- Whether instructions are aligned to 2 bytes, the compressed extension being present (rule R22). -/
  compressed : Bool
  /-- The observers of the system: `NHarts` and `Devices` (rules R20, R62). -/
  observers : List Observer
  /-- Which observers are coherent with which, for each physical address and attribute (rules R49, R67, R77). -/
  domains : List DomainRange
  /-- The platform fixes the memory attributes for a run (rules R43, R49). -/
  attrsFixed : Bool
  deriving DecidableEq, Repr

/-- The cache block size in bytes (rule R64). -/
def Config.cbs (c : Config) : Nat := 2 ^ c.cbsLog.val

/-- `XLEN` as a number. -/
def Xlen.bits : Xlen → Nat
  | .rv32 => 32
  | .rv64 => 64

/-- The low `XLEN` bits of a word, the rest zero: what a register of this hart can hold (rule R21). -/
def Config.trunc (c : Config) (w : Word) : Word :=
  match c.xlen with
  | .rv64 => w
  | .rv32 => w &&& 0xFFFFFFFF#64

/-- `HasS` (rule R40). -/
def Config.hasS (c : Config) : Bool :=
  match c.modes with
  | .m => false
  | .msu => true
  | .msuh => true

/-- `HasU`: U-mode comes with S-mode in every admitted configuration (rule R40). -/
def Config.hasU (c : Config) : Bool := c.hasS

/-- `HasH` (rule R40). -/
def Config.hasH (c : Config) : Bool :=
  match c.modes with
  | .m => false
  | .msu => false
  | .msuh => true

/-- Instructions are aligned to 4 bytes, or to 2 with the compressed extension (rule R22). -/
def Config.ialign (c : Config) : Nat := if c.compressed then 2 else 4

/-- The number of physical addresses (rule R92). -/
def Config.paSize (c : Config) : Nat := 2 ^ c.paBits

/-- The harts of the system (rule R20). -/
def Config.hartIds (c : Config) : List ObserverId :=
  (c.observers.filter (fun o => o.kind == .hart)).map Observer.id

/-- Whether `o` is an observer of the location: it can load from it or store to it (rule R62). -/
def Config.observes (c : Config) (o : ObserverId) (pa : Nat) : Bool :=
  c.observers.any (fun p => p.id == o && p.reach.any (fun r => r.holds pa))

/-- The sets of coherent observers of the block at `base` under a cacheability attribute, those of the first range that
holds the base: coherence is kept for whole blocks (rules R70, R77). -/
def Config.coherentSets (c : Config) (base : Nat) (cacheable : Bool) : List (List ObserverId) :=
  ((c.domains.find? (fun d => d.range.holds base && d.cacheable == cacheable)).map DomainRange.sets).getD []

/-- The six defined bits of an `xcmocontrol` register: 0, 1, 8, 9, 10, 11 (rule R29). -/
def cmoFieldMask : BitVec 12 := 0xF03#12

/-- A register whose six defined bits are all writable: the default shape (decision D10). -/
def WarlShape.allWritable : WarlShape := { wmask := cmoFieldMask, fixed := 0#12 }

/-- One choice of the open parameters, for `State.reset` only (log entry 3): the common configuration of the
spec's test programs, with invented numbers where those give none. No statement rests on it. -/
def Config.standard : Config where
  xlen := .rv64
  modes := .msuh
  cbsLog := 6
  paBits := 56
  csrM := 0x7C0#12
  csrS := 0x5C0#12
  csrH := 0x6C0#12
  csrVs := 0x6C1#12
  warlM := .allWritable
  warlS := .allWritable
  warlH := .allWritable
  warlVs := .allWritable
  vsRedirect := false
  illegalTvalIsWord := true
  hintIsLoadStore := false
  flushAtomic := true
  invalLoadValue := .memory
  prefetchDecode := []
  resetVector := 0x80000000#64
  compressed := false
  observers := [
    { id := 0, kind := .hart, cached := true, reach := [{ base := 0, size := 2 ^ 56 }] },
    { id := 1, kind := .device, cached := false, reach := [{ base := 0, size := 2 ^ 56 }] }]
  domains := []
  attrsFixed := false

/-! ### Free values

Each is applied to the counter `State.free`, which the machine advances, and to whatever else tells two uses
of one step apart. None has a body. -/

/-- The byte an instruction fetch returns where the spec promises nothing (rule R116), by counter and offset. -/
opaque Config.freeFetchByte : Nat → Nat → Byte

/-- The byte a load returns after an invalidate when `InvalLoadValue = any` (rule R101), by counter and offset. -/
opaque Config.freeLoadByte : Nat → Nat → Byte

/-- The trap value of a breakpoint exception, "the host's" (rule R201). -/
opaque Config.freeBreakpointTval : Nat → Word

/-- What `mtinst` or `htinst` holds after a guest-page fault, left to the host (91_not_in_source.md N16). -/
opaque Config.freeTinst : Nat → Word

/-- Whether a hart's load reservation survives a step of a CMO instruction or an exception: not stated (rules R47, R115). -/
opaque Config.freeKeepsReservation : Nat → ObserverId → Bool

end Sys2Proof
end

