-- ==== Sys2Proof/Decode.lean ====
section
/-!
DEFINITION. The decoder (spec rule R132), total on every word and on every list of bytes, and after it the
encoder, written from the field table of rules R121 to R123.
-/

namespace Sys2Proof

/-- The four reserved cases of rule R129. -/
inductive ReservedCase where
  /-- `inst[11:7] != 0`. -/
  | caseA
  /-- `inst[24:20] != 0`. -/
  | caseB
  /-- `inst[31:29] != 0`. -/
  | caseC
  /-- `inst[28:25]` unassigned. -/
  | caseD
  deriving DecidableEq, Repr

/-- What the decoder says of a word (rule R132). -/
inductive Verdict where
  | instr (i : Instr)
  | reserved (c : ReservedCase)
  | notCmo
  deriving DecidableEq, Repr

/-- `w[6:0]`. -/
def opcodeOf (w : InstrWord) : BitVec 7 := w.extractLsb' 0 7
/-- `w[11:7]`. -/
def rdOf (w : InstrWord) : BitVec 5 := w.extractLsb' 7 5
/-- `w[14:12]`. -/
def funct3Of (w : InstrWord) : BitVec 3 := w.extractLsb' 12 3
/-- `w[19:15]`, the register number (rule R121). -/
def rs1Of (w : InstrWord) : RegNum := (w.extractLsb' 15 5).toFin
/-- `w[24:20]`. -/
def rs2Of (w : InstrWord) : BitVec 5 := w.extractLsb' 20 5
/-- `w[28:25]`, the source's `yyyy`. -/
def yyyyOf (w : InstrWord) : BitVec 4 := w.extractLsb' 25 4
/-- `w[31:29]`, the source's `xxx`. -/
def xxxOf (w : InstrWord) : BitVec 3 := w.extractLsb' 29 3

/-- The decoder of rule R132, `PrefetchDecode` left out. -/
def decode (w : InstrWord) : Verdict :=
  if opcodeOf w ≠ 0b0001111#7 ∨ funct3Of w ≠ 0b010#3 then .notCmo
  else if rdOf w ≠ 0#5 then .reserved .caseA
  else if rs2Of w ≠ 0#5 then .reserved .caseB
  else if xxxOf w ≠ 0#3 then .reserved .caseC
  else if yyyyOf w = 0b0000#4 then .instr (.cboInval (rs1Of w))
  else if yyyyOf w = 0b0001#4 then .instr (.cboClean (rs1Of w))
  else if yyyyOf w = 0b0010#4 then .instr (.cboFlush (rs1Of w))
  else if yyyyOf w = 0b0100#4 then .instr (.cboZero (rs1Of w))
  else .reserved .caseD

/-- The row of `PrefetchDecode` that gives a word its hint instruction, if there is one (rule R128). -/
def prefetchRowOf (rows : List PrefetchRow) (w : InstrWord) : Option PrefetchRow :=
  rows.find? (fun r => r.word == w && r.hint.isHint)

/-- The decoder with `PrefetchDecode`, which is consulted on `not_cmo` and on `reserved` words (rule R132). -/
def decodeWith (rows : List PrefetchRow) (w : InstrWord) : Verdict :=
  match decode w with
  | .instr i => .instr i
  | v =>
    match prefetchRowOf rows w with
    | some r => .instr r.hint
    | none => v

/-- Four bytes, the first at the lowest address, as a little-endian word (rule R93). -/
def wordOfBytes (b0 b1 b2 b3 : Byte) : InstrWord := b3 ++ (b2 ++ (b1 ++ b0))

/-- Byte `k` of a word at the `k`-th address from its lowest (rule R93). -/
def byteOfWord (w : InstrWord) (k : Nat) : Byte := w.extractLsb' (8 * k) 8

/-- The four bytes of a word as they lie in memory (rule R93). -/
def bytesOfWord (w : InstrWord) : List Byte := [byteOfWord w 0, byteOfWord w 1, byteOfWord w 2, byteOfWord w 3]

/-- Whether the first two bytes of an instruction are those of a 32-bit one: `inst[1:0] == 0b11` and
`inst[4:2] != 0b111` (rule R131). No other length holds a CMO instruction. -/
def isWordSized (b0 : Byte) : Bool := b0.extractLsb' 0 2 == 0b11#2 && b0.extractLsb' 2 3 != 0b111#3

/-- Decoding a list of bytes: the verdict and the bytes after the instruction. Fewer bytes than one
instruction needs give `none`; an instruction of another length is the host's. -/
def decodeBytes (rows : List PrefetchRow) : List Byte → Option (Verdict × List Byte)
  | [] => none
  | b0 :: rest =>
    if isWordSized b0 then
      match rest with
      | b1 :: b2 :: b3 :: more => some (decodeWith rows (wordOfBytes b0 b1 b2 b3), more)
      | _ => none
    else some (.notCmo, rest)

/-- The instruction the decoder reads from an instruction whose bits are `w`, numbered as the opcode table
numbers them; `nbits` is how many of them the table gives. -/
def decodeTableWord (nbits w : Nat) : Option Instr :=
  match decodeBytes [] (bytesOfWord (BitVec.ofNat 32 (w % 2 ^ nbits))) with
  | some (.instr i, _) => some i
  | _ => none

/-! ### Encoding -/

/-- One word of format `CBO`: the field table of rule R121 with `xxx = 0`, `rs2 = 0`, `rd = 0`. -/
def cboWord (yyyy : BitVec 4) (rs1 : RegNum) : InstrWord :=
  0#3 ++ (yyyy ++ (0#5 ++ ((BitVec.ofFin rs1 : BitVec 5) ++ (0b010#3 ++ (0#5 ++ 0b0001111#7)))))

/-- The word of an instruction: rule R122 for the four encoded ones; a hint instruction has the word that
`PrefetchDecode` gives it, or none (rule R128). -/
def encode (rows : List PrefetchRow) : Instr → Option InstrWord
  | .cboInval r => some (cboWord 0b0000#4 r)
  | .cboClean r => some (cboWord 0b0001#4 r)
  | .cboFlush r => some (cboWord 0b0010#4 r)
  | .cboZero r => some (cboWord 0b0100#4 r)
  | .prefetchR r l => (rows.find? (fun p => p.hint == .prefetchR r l)).map PrefetchRow.word
  | .prefetchW r l => (rows.find? (fun p => p.hint == .prefetchW r l)).map PrefetchRow.word
  | .prefetchI r l => (rows.find? (fun p => p.hint == .prefetchI r l)).map PrefetchRow.word

end Sys2Proof
end

