-- ==== Sys2Proof/WellFormed.lean ====
section
/-!
DEFINITION. What the model asks of an instruction term and of a configuration.

The register number of a term is in range by its type. What is left to check is that the term has a word
(rule R128: a hint instruction has one only through `PrefetchDecode`), and that a configuration is one of
those the spec admits (rules R7, R20, R38, R40, R49, R77 and the decisions they cite).
-/

namespace Sys2Proof

/-- An instruction term is well formed under a configuration when some word stands for it (rules R123, R128). -/
def Instr.wellFormed (c : Config) (i : Instr) : Bool := (encode c.prefetchDecode i).isSome

/-- The writable mask and the fixed value are disjoint and zero at the reserved bits [7:2] (rule R38). -/
def WarlShape.wellFormed (w : WarlShape) : Bool :=
  w.wmask &&& w.fixed == 0#12 && w.wmask &&& ~~~cmoFieldMask == 0#12 && w.fixed &&& ~~~cmoFieldMask == 0#12

/-- No word stands in two rows of `PrefetchDecode`. -/
def prefetchWordsDistinct : List PrefetchRow → Bool
  | [] => true
  | r :: rows => rows.all (fun q => q.word != r.word) && prefetchWordsDistinct rows

/-- `PrefetchDecode` is a partial function to hint instructions whose words are 32-bit ones, disjoint from
the four encoded instructions (rule R128). -/
def prefetchDecodeWellFormed (rows : List PrefetchRow) : Bool :=
  prefetchWordsDistinct rows &&
    rows.all (fun r => r.hint.isHint && isWordSized (byteOfWord r.word 0) &&
      (match decode r.word with
        | .instr _ => false
        | .reserved _ => true
        | .notCmo => true))

/-- No two observers have one number. -/
def observersDistinct : List Observer → Bool
  | [] => true
  | o :: os => os.all (fun p => p.id != o.id) && observersDistinct os

/-- The numbers rise strictly. -/
def strictlyRising : List Nat → Bool
  | [] => true
  | a :: rest => rest.all (fun b => decide (a < b)) && strictlyRising rest

/-- No observer is in two sets. -/
def setsDisjoint : List (List ObserverId) → Bool
  | [] => true
  | d :: rest => rest.all (fun e => d.all (fun o => !e.contains o)) && setsDisjoint rest

/-- The whole of a range is in a range of locations that the observer can load from or store to (rule R62). -/
def Observer.reaches (p : Observer) (r : AddrRange) : Bool :=
  p.reach.any (fun q => decide (q.base ≤ r.base ∧ r.base + r.size ≤ q.base + q.size))

/-- Sets of coherent observers are for whole blocks (rule R70), and are disjoint, each in one canonical form, of observers of
every location of the range (rule R77). -/
def DomainRange.wellFormed (c : Config) (d : DomainRange) : Bool :=
  d.range.base % c.cbs == 0 && d.range.size % c.cbs == 0 &&
    d.sets.all (fun s => strictlyRising s && s.all (fun o => c.observers.any (fun p => p.id == o && p.reaches d.range))) &&
    setsDisjoint d.sets

/-- A configuration the spec admits. -/
def Config.wellFormed (c : Config) : Bool :=
  c.warlM.wellFormed && c.warlS.wellFormed && c.warlH.wellFormed && c.warlVs.wellFormed &&
    prefetchDecodeWellFormed c.prefetchDecode && observersDistinct c.observers &&
    !c.hartIds.isEmpty && c.domains.all (DomainRange.wellFormed c) &&
    decide (c.cbsLog.val ≤ c.paBits) && c.resetVector.toNat % c.ialign == 0 && c.trunc c.resetVector == c.resetVector

end Sys2Proof
end

