-- ==== Sys2Proof/Machine/State.lean ====
section
/-!
DEFINITION. The state of the machine, as plain data (spec rules R20 to R49, R61, R102; INVENTORY.md '## State'
lists every field), the reasons a step can stop, and the state after reset.
-/

namespace Sys2Proof.Machine

/-! ### Modes and status -/

/-- The five privilege modes (rule R24). `V = 1` with level 3 does not occur (rule R25), so it is no value here. -/
inductive Mode where
  | M
  | S
  | U
  | VS
  | VU
  deriving DecidableEq, Repr

/-- The privilege level, 0, 1 or 3 (rule R25); 2 is reserved and is no value here. -/
inductive PrivLevel where
  | u
  | s
  | m
  deriving DecidableEq, Repr

/-- The fields of `mstatus` the rules name; `sstatus` shows `sie`, `spie`, `spp`, `sum` and `mxr` of it
(rules R27, R206, R207). Bit positions are left to the host (rule R27). `spp` is true for level S. -/
structure MStatus where
  mie  : Bool
  mpie : Bool
  mpp  : PrivLevel
  mpv  : Bool
  mprv : Bool
  mxr  : Bool
  sum  : Bool
  sie  : Bool
  spie : Bool
  spp  : Bool
  deriving DecidableEq, Repr

/-- The fields of `vsstatus` the rules name (rules R27, R206). -/
structure VsStatus where
  mxr  : Bool
  sum  : Bool
  sie  : Bool
  spie : Bool
  spp  : Bool
  deriving DecidableEq, Repr

/-- The registers one trap level saves into and its vector: `xepc`, `xcause`, `xtval`, `xtvec` (rule R206). -/
structure TrapRegs where
  epc   : Word
  cause : Word
  tval  : Word
  tvec  : Word
  deriving DecidableEq, Repr

/-! ### Translation and protection -/

/-- The bits of a leaf PTE the rules read (rule R84); `v = false` stands for every way a walk finds no valid leaf. -/
structure Pte where
  v : Bool
  r : Bool
  w : Bool
  x : Bool
  u : Bool
  deriving DecidableEq, Repr

/-- How one stage's walk ends for one page of its input addresses (rule R84): interrupted by an access fault,
interrupted by a guest-page fault on the guest physical address `gpa`, or at a leaf that maps the page to page `ppn`. -/
inductive Walk where
  | accessFault
  | guestPageFault (gpa : Nat)
  | leaf (pte : Pte) (ppn : Nat)
  deriving DecidableEq, Repr

/-- One translation register and the page table it roots (rule R27): `MODE = Bare`, and the outcome of the walk
per page number. A page with no entry has no valid leaf. -/
structure PageTable where
  bare  : Bool
  walks : List (Nat × Walk)
  deriving DecidableEq, Repr

/-- Read, write and execute permission (rule R88). -/
structure Perm where
  r : Bool
  w : Bool
  x : Bool
  deriving DecidableEq, Repr

/-- A PMP verdict for each mode: the verdict depends on the privilege mode (rule R88). -/
structure ModePerms where
  m  : Perm
  s  : Perm
  u  : Perm
  vs : Perm
  vu : Perm
  deriving DecidableEq, Repr

/-- One range of physical addresses with the PMP's verdict on it; the first range that holds an address decides. -/
structure PmpEntry where
  base  : Nat
  size  : Nat
  perms : ModePerms
  deriving DecidableEq, Repr

/-- Whether a range of physical addresses is memory or a device (rule R92). -/
inductive LocationKind where
  | memory
  | device
  deriving DecidableEq, Repr

/-- The memory attributes of a physical address (rules R43, R92). `coherent` says that hardware enforces coherence; between
which observers is `Config.domains`. -/
structure Attr where
  kind      : LocationKind
  coherent  : Bool
  cacheable : Bool
  perm      : Perm
  deriving DecidableEq, Repr

/-- One range of physical addresses with its attributes (rules R43, R92); the first range that holds an address decides. -/
structure Region where
  base : Nat
  size : Nat
  attr : Attr
  deriving DecidableEq, Repr

/-! ### Triggers -/

/-- The two trigger types the source names (rule R46). -/
inductive TriggerType where
  /-- `type = 2`. -/
  | mcontrol
  /-- `type = 6`. -/
  | mcontrol6
  deriving DecidableEq, Repr

/-- How a trigger's address is compared: exactly, or with a NAPOT range of `2 ^ log2` bytes (`match = 1`, rule R198). -/
inductive TriggerMatch where
  | exact
  | napot (log2 : Nat)
  deriving DecidableEq, Repr

/-- What a trigger that fires does: a breakpoint exception, or another debug action (rule R194). -/
inductive TriggerAction where
  | breakpoint
  | other
  deriving DecidableEq, Repr

/-- One trigger (rules R46, R194 to R198). `data` says it matches data instead of addresses. -/
structure Trigger where
  ttype   : TriggerType
  armed   : Bool
  load    : Bool
  store   : Bool
  execute : Bool
  data    : Bool
  compare : TriggerMatch
  addr    : Word
  action  : TriggerAction
  deriving DecidableEq, Repr

/-! ### One hart -/

/-- The four CMO control registers (rule R28), each `XLEN` bits wide (rule R37). -/
structure CmoCsrs where
  mcmocontrol  : Word
  scmocontrol  : Word
  hcmocontrol  : Word
  vscmocontrol : Word
  deriving DecidableEq, Repr

/-- The host's control registers that the CMO rules read or a trap writes (rules R27, R45, R46, R206, R208). -/
structure HostCsrs where
  mstatus    : MStatus
  vsstatus   : VsStatus
  /-- `hstatus.SPV`. -/
  spv        : Bool
  mtrap      : TrapRegs
  strap      : TrapRegs
  vstrap     : TrapRegs
  mtval2     : Word
  htval      : Word
  mtinst     : Word
  htinst     : Word
  medeleg    : Word
  hedeleg    : Word
  satp       : PageTable
  vsatp      : PageTable
  hgatp      : PageTable
  pmp        : List PmpEntry
  /-- The PMP's verdict on an address that no entry holds. -/
  pmpDefault : ModePerms
  triggers   : List Trigger
  deriving DecidableEq, Repr

/-- What is left of an instruction that takes more than one step: the byte offsets a `CBO.ZERO` has still to store
to (rule R152), or the invalidate half of a flush that is not atomic (rule R112). -/
inductive Pending where
  | zero (base : Nat) (offsets : List Nat)
  | flushInvalidate (pa : Nat)
  deriving DecidableEq, Repr

/-- The state of one hart (rules R21 to R28, R212). -/
structure Hart where
  x       : Vector Word 32
  pc      : Word
  mode    : Mode
  cmo     : CmoCsrs
  csr     : HostCsrs
  pending : Option Pending
  deriving DecidableEq, Repr

/-! ### Memory and caches -/

/-- The underlying memory locations, `Mem` (rules R42, R61): addresses strictly rising, no entry equal to what an
unlisted address reads as. -/
abbrev Memory := List Host.Cell

/-- What names a cached block: a set of coherent observers and a block address (rule R44). -/
structure CacheKey where
  set   : List ObserverId
  block : Nat
  deriving DecidableEq, Repr

/-- `Present(data, dirty)` (rule R44). -/
structure Line where
  data  : List Byte
  dirty : Bool
  deriving DecidableEq, Repr

/-- `Cache[S][B]` (rule R102): keys strictly rising; a key that is not listed is `Absent`. -/
abbrev CacheMap := List (CacheKey × Line)

/-! ### Memory operations -/

/-- The kinds of element of the global memory order (rules R95, R99, R100), and the host's `FENCE` (rule R114). -/
inductive MemKind where
  | load
  | store
  | invalidate
  | clean
  | flush
  | fence (predR predW succR succW : Bool)
  deriving DecidableEq, Repr

/-- What bears on the fetches to come (rule R116): bytes whose contents in memory or in a copy may have changed, and a
hart's `FENCE.I`. -/
inductive FetchMark where
  | changed (base size : Nat)
  | fenceI (h : ObserverId)
  deriving DecidableEq, Repr

/-- One element of the global memory order: who performed it, what it is, and the bytes it accesses. -/
structure MemOp where
  observer : ObserverId
  kind     : MemKind
  base     : Nat
  size     : Nat
  deriving DecidableEq, Repr

/-- What the latest load returned: a load changes nothing else (rule R107). -/
structure LoadResult where
  observer : ObserverId
  base     : Nat
  bytes    : List Byte
  deriving DecidableEq, Repr

/-- A load reservation that a hart holds on `size` bytes (rule R47). -/
structure Reservation where
  hart : ObserverId
  base : Nat
  size : Nat
  deriving DecidableEq, Repr

/-! ### The other agents -/

/-- A step of an agent (rules R20, R39, R104 to R108, R206, R207, R238). The list `State.schedule` says which comes next. -/
inductive Event where
  /-- The executing hart takes its step. -/
  | hart
  /-- Hart `h` is the executing hart from here on. -/
  | switch (h : ObserverId)
  /-- The caches of `cset(o, pa)` read the block of `pa` (rule R104). -/
  | fill (o : ObserverId) (pa : Nat)
  /-- They discard their copy (rule R105). -/
  | drop (o : ObserverId) (pa : Nat)
  /-- They write it to memory (rule R106). -/
  | writeBack (o : ObserverId) (pa : Nat)
  /-- Observer `o` loads `n` bytes (rule R107). -/
  | load (o : ObserverId) (pa n : Nat)
  /-- Observer `o` stores the bytes `v` (rule R108). -/
  | store (o : ObserverId) (pa : Nat) (v : List Byte)
  /-- A `FENCE` of the executing hart (rule R114). -/
  | fence (predR predW succR succW : Bool)
  /-- A `FENCE.I` of the executing hart (rule R116). -/
  | fenceI
  /-- `MemRead`: a load of `n` bytes at the effective address `addr` by the executing hart (rule R10). -/
  | memRead (addr : Word) (n : Nat)
  /-- `MemWrite`: a store of the bytes `v` at the effective address `addr` by the executing hart (rule R10). -/
  | memWrite (addr : Word) (v : List Byte)
  /-- A host instruction of the executing hart writes `x[rd]` (rule R10). -/
  | writeX (rd : RegNum) (v : Word)
  /-- A host instruction of the executing hart sets `pc` (rule R10). -/
  | jump (target : Word)
  /-- A host CSR instruction of the executing hart reads the CSR `num` into `x[rd]` (rule R39). -/
  | csrRead (num : BitVec 12) (rd : RegNum)
  /-- A host CSR instruction of the executing hart writes the CSR `num` (rules R38, R39). -/
  | csrWrite (num : BitVec 12) (v : Word)
  /-- The host's own control registers take new values (rules R27, R45, R239). -/
  | hostCsrs (c : HostCsrs)
  /-- `MRET` (rule R207). -/
  | mret
  /-- `SRET` (rule R207). -/
  | sret
  /-- The executing hart holds a reservation on the `n` bytes from `pa` on, from here on (rule R47). -/
  | reserve (pa n : Nat)
  /-- The executing hart holds no reservation from here on (rule R47). -/
  | unreserve
  /-- The memory attributes change (rules R43, R238). -/
  | regions (rs : List Region)
  deriving DecidableEq, Repr

/-! ### Reasons to stop -/

/-- The machine stops with a fault. -/
inductive Fault where
  /-- Raised by a load or store of an observer at a physical address that the platform does not have: no region of the
  address map holds it (rule R92). Safe: no run goes on from there. -/
  | noSuchLocation
  deriving DecidableEq, Repr

/-- The spec gives the situation no meaning. -/
inductive Refusal where
  /-- Raised by an arm of `exec` whose instruction has no meaning yet. Safe. -/
  | notModelled (mnemonic : String)
  /-- Raised by the hart's step on a word that is no CMO instruction: the host's decoder decides (rule R132). Safe. -/
  | hostInstruction
  /-- Raised by the hart's step on a reserved encoding (rule R129). Safe. -/
  | reservedEncoding (c : ReservedCase)
  /-- Raised by a CMO instruction whose block does not meet the PMA constraints: UNSPECIFIED (rule R90). Safe. -/
  | pmaConstraint
  /-- Raised by a CMO instruction that executes while a type-2 load or store address trigger, or a load or store data
  trigger, is armed: UNSPECIFIED (rule R197). Safe. -/
  | unspecifiedTrigger
  /-- Raised by a trigger that fires and whose action is another debug action than a breakpoint (rule R194). Safe. -/
  | debugAction
  /-- Raised by a load or store of an observer in a range that is a device: the spec does not say what a device does
  (rules R92, R94). Safe. -/
  | deviceLocation
  /-- Raised by a change of attributes of a block that is cached (rule R238). Safe. -/
  | attributesChangedUnderCopy
  deriving DecidableEq, Repr

/-! ### The state -/

/-- The state of the system. `hart` is the executing hart, `self` its observer number, `others` the other harts. -/
structure State where
  /-- The implementation's parameters (rules R7, R49); no step changes them. -/
  cfg          : Config
  self         : ObserverId
  hart         : Hart
  others       : List (ObserverId × Hart)
  /-- `attrs` (rule R43). -/
  regions      : List Region
  mem          : Memory
  cache        : CacheMap
  /-- The global memory order so far, the newest element first (rules R95, R102). -/
  gmo          : List MemOp
  reservations : List Reservation
  /-- The model's own field: what bears on the fetches to come, the newest first (rule R116; log entry 42). -/
  fetchLog     : List FetchMark
  /-- The model's own field: what the latest load returned (rule R107). -/
  lastLoad     : Option LoadResult
  /-- The model's own field: the agents' steps to come, in order (rule R49); the hart steps where it is empty. -/
  schedule     : List Event
  /-- The model's own field: the grouping of the byte stores of the `CBO.ZERO`s to come (rules R49, R152). -/
  zeroPlan     : List (List Nat)
  /-- The model's own field: whether each hint instruction to come that may allocate does (rule R162). -/
  hintFills    : List Bool
  /-- The model's own field: the counter that the free values are applied to. -/
  free         : Nat
  deriving DecidableEq, Repr

/-! ### Reset -/

/-- All three permissions. -/
def Perm.all : Perm := { r := true, w := true, x := true }

/-- The trap registers of one level at reset: log entry 4 (DESIGN CHOICE). -/
def TrapRegs.zero : TrapRegs := { epc := 0#64, cause := 0#64, tval := 0#64, tvec := 0#64 }

/-- No translation: log entry 4 (DESIGN CHOICE). -/
def PageTable.off : PageTable := { bare := true, walks := [] }

/-- The host's control registers at reset: `mstatus.MPRV = 0` by rule R48, the rest by log entry 4 (DESIGN CHOICE). -/
def HostCsrs.atReset : HostCsrs where
  mstatus :=
    { mie := false, mpie := false, mpp := .u, mpv := false, mprv := false, mxr := false, sum := false, sie := false,
      spie := false, spp := false }
  vsstatus := { mxr := false, sum := false, sie := false, spie := false, spp := false }
  spv := false
  mtrap := .zero
  strap := .zero
  vstrap := .zero
  mtval2 := 0#64
  htval := 0#64
  mtinst := 0#64
  htinst := 0#64
  medeleg := 0#64
  hedeleg := 0#64
  satp := .off
  vsatp := .off
  hgatp := .off
  pmp := []
  pmpDefault := { m := .all, s := .all, u := .all, vs := .all, vu := .all }
  triggers := []

/-- A hart at reset: M-mode with `V = 0` and `pc` at the reset vector (rules R48, R231); the rest is unspecified
there and named by log entry 4 (DESIGN CHOICE). -/
def Hart.atReset (c : Config) : Hart where
  x := Vector.replicate 32 0#64
  pc := c.resetVector
  mode := .M
  cmo := { mcmocontrol := 0#64, scmocontrol := 0#64, hcmocontrol := 0#64, vscmocontrol := 0#64 }
  csr := .atReset
  pending := none

/-- The machine right after reset: one hart (number 0) and one device (number 1), not coherent with each other, on
memory that fills the address space (log entries 3, 4 and 5); nothing is listed in memory or cached. -/
def State.reset : State where
  cfg := .standard
  self := 0
  hart := .atReset .standard
  others := []
  regions := [{ base := 0, size := 2 ^ 56, attr := { kind := .memory, coherent := false, cacheable := true, perm := .all } }]
  mem := []
  cache := []
  gmo := []
  reservations := []
  fetchLog := []
  lastLoad := none
  schedule := []
  zeroPlan := []
  hintFills := []
  free := 0

end Sys2Proof.Machine
end

