-- ==== Sys2Proof/Machine/Memory.lean ====
section
/-!
DEFINITION. The underlying memory locations: reads and writes (spec rules R11, R61), one byte at a time and in runs.
-/

namespace Sys2Proof.Machine

/-- What a location that is not listed reads as: the spec leaves memory unspecified at reset (rule R48); zero by log
entry 5 (DESIGN CHOICE). -/
def memDefault : Byte := 0#8

/-- The contents of one location. -/
def Memory.read (m : Memory) (a : Nat) : Byte := (mapGet a m).getD memDefault

/-- The memory with one location replaced. -/
def Memory.write (m : Memory) (a : Nat) (v : Byte) : Memory :=
  if v = memDefault then mapDel a m else mapSet natLt a v m

/-- `PhysRead`: the `n` bytes from `a` on (rule R61). -/
def Memory.readBytes (m : Memory) (a : Nat) : Nat → List Byte
  | 0 => []
  | n + 1 => m.read a :: m.readBytes (a + 1) n

/-- `PhysWrite`: the bytes from `a` on replaced (rule R61). -/
def Memory.writeBytes (m : Memory) (a : Nat) : List Byte → Memory
  | [] => m
  | v :: vs => (m.write a v).writeBytes (a + 1) vs

/-- The canonical form. -/
def Memory.wf (m : Memory) : Bool := mapSorted natLt m && m.all (fun c => c.2 != memDefault)

end Sys2Proof.Machine
end

