-- ==== Sys2Proof/Machine/Operands.lean ====
section
/-!
DEFINITION. The operands of a CMO instruction: one general register and the block its value names (spec rules R21,
R64, R124). There is no other operand form.
-/

namespace Sys2Proof.Machine

/-- `x[i]`: register 0 reads 0, the others their `XLEN` bits (rule R21). -/
def State.readX (s : State) (i : RegNum) : Word := if i = 0 then 0#64 else s.cfg.trunc s.hart.x[i]

/-- `x[i] <- v`: a write to register 0 is discarded (rule R21). No CMO instruction does this (rule R10). -/
def State.writeX (s : State) (i : RegNum) (v : Word) : State :=
  if i = 0 then s else { s with hart := { s.hart with x := s.hart.x.set i (s.cfg.trunc v) } }

/-- The effective address: all `XLEN` bits of `x[rs1]`, with no offset, scaling or extension (rule R124). -/
def State.effAddr (s : State) (rs1 : RegNum) : Word := s.readX rs1

/-- `block_base(a)`: the address with its low `log2(CBS)` bits cleared (rules R10, R64). -/
def State.blockBase (s : State) (a : Nat) : Nat := a - a % s.cfg.cbs

/-- `block(a)`: the `CBS` addresses of the block that holds `a` (rule R10). -/
def State.block (s : State) (a : Nat) : List Nat := (List.range s.cfg.cbs).map (s.blockBase a + ·)

end Sys2Proof.Machine
end

