-- ==== Sys2Proof/Machine/Flags.lean ====
section
/-!
DEFINITION. The bits that decide what a CMO instruction does. No status flag exists and no CMO instruction writes
one (spec rule R23); the flags of this hardware are the fields of the four `xcmocontrol` registers (rules R29 to
R38), the two kinds of privilege mode (rules R24 to R26), and the formulas over them (rules R173, R174, R184, R187, R188).
-/

namespace Sys2Proof.Machine

/-! ### Fields of an `xcmocontrol` register (rule R29) -/

/-- `CBME`, bit 0. -/
def cbme (r : Word) : Bool := r.getLsbD 0
/-- `CBWE`, bit 1. -/
def cbwe (r : Word) : Bool := r.getLsbD 1
/-- `INVW0I`, bit 8. -/
def invw0i (r : Word) : Bool := r.getLsbD 8
/-- `INVW0E`, bit 9. -/
def invw0e (r : Word) : Bool := r.getLsbD 9
/-- `INVW1I`, bit 10. -/
def invw1i (r : Word) : Bool := r.getLsbD 10
/-- `INVW1E`, bit 11. -/
def invw1e (r : Word) : Bool := r.getLsbD 11

/-- What a WARL register holds after a write of `v` (rule R38); reserved bits hold 0 (rule R37). -/
def legalise (w : WarlShape) (v : Word) : Word :=
  (((v.setWidth 12 &&& w.wmask) ||| w.fixed) &&& cmoFieldMask).setWidth 64

/-! ### The four registers (rules R28, R39, R40) -/

/-- The names of the four registers. -/
inductive CmoReg where
  | m
  | s
  | h
  | vs
  deriving DecidableEq, Repr

/-- `mcmocontrol` is always present, `scmocontrol` with S-mode, the other two with the hypervisor extension (rule R40). -/
def CmoReg.present (c : Config) : CmoReg → Bool
  | .m => true
  | .s => c.hasS
  | .h => c.hasH
  | .vs => c.hasH

/-- `WMask_r` and `Fixed_r` (rule R38). -/
def CmoReg.shape (c : Config) : CmoReg → WarlShape
  | .m => c.warlM
  | .s => c.warlS
  | .h => c.warlH
  | .vs => c.warlVs

/-- The value a register holds. -/
def CmoCsrs.get (c : CmoCsrs) : CmoReg → Word
  | .m => c.mcmocontrol
  | .s => c.scmocontrol
  | .h => c.hcmocontrol
  | .vs => c.vscmocontrol

/-- The registers with one of them holding `v`. -/
def CmoCsrs.set (c : CmoCsrs) (r : CmoReg) (v : Word) : CmoCsrs :=
  match r with
  | .m => { c with mcmocontrol := v }
  | .s => { c with scmocontrol := v }
  | .h => { c with hcmocontrol := v }
  | .vs => { c with vscmocontrol := v }

/-- The register a CSR access with number `num` reaches in a mode: `mcmocontrol` from M-mode only, the other three
from HS-mode and M-mode; from VS-mode `scmocontrol` reaches `vscmocontrol` if `VsRedirect` holds (rule R39).
`none` where the access reaches none of the four. The spec does not say that the four open numbers differ: that equal numbers
are admitted, and that the access then reaches the first of m, s, h, vs, is the model's choice (DESIGN CHOICE, log entry 24). -/
def cmoRegOf (c : Config) (mode : Mode) (num : BitVec 12) : Option CmoReg :=
  let reached : Option CmoReg :=
    match mode with
    | .M =>
      if num = c.csrM then some .m
      else if num = c.csrS then some .s
      else if num = c.csrH then some .h
      else if num = c.csrVs then some .vs
      else none
    | .S =>
      if num = c.csrS then some .s
      else if num = c.csrH then some .h
      else if num = c.csrVs then some .vs
      else none
    | .VS => if c.vsRedirect && num == c.csrS then some .vs else none
    | .U => none
    | .VU => none
  reached.filter (fun r => r.present c)

/-! ### Modes (rules R24 to R26) -/

/-- The privilege level of a mode (rule R25). -/
def Mode.level : Mode → PrivLevel
  | .M => .m
  | .S => .s
  | .U => .u
  | .VS => .s
  | .VU => .u

/-- The virtualisation mode `V` (rule R25). -/
def Mode.virt : Mode → Bool
  | .M => false
  | .S => false
  | .U => false
  | .VS => true
  | .VU => true

/-- The mode of a privilege level and a virtualisation bit, which counts only with the hypervisor extension (rules R25, R26). -/
def modeOf (c : Config) (l : PrivLevel) (v : Bool) : Mode :=
  match l with
  | .m => .M
  | .s => if c.hasH && v then .VS else .S
  | .u => if c.hasH && v then .VU else .U

/-- Whether a hart of this configuration has the mode (rules R25, R40). -/
def Mode.present (c : Config) : Mode → Bool
  | .M => true
  | .S => c.hasS
  | .U => c.hasU
  | .VS => c.hasH
  | .VU => c.hasH

/-- The effective privilege mode (rule R26). -/
def State.effMode (s : State) : Mode :=
  if s.hart.mode = .M && s.hart.csr.mstatus.mprv then
    modeOf s.cfg s.hart.csr.mstatus.mpp s.hart.csr.mstatus.mpv
  else s.hart.mode

/-! ### Illegal instruction (rules R173, R174) -/

/-- `IllegalMgmt`: a `CBME` bit that governs the current mode is 0 (rule R173). -/
def illegalMgmt (c : CmoCsrs) : Mode → Bool
  | .M => false
  | .S => !cbme c.mcmocontrol
  | .U => !cbme c.mcmocontrol || !cbme c.scmocontrol
  | .VS => !cbme c.mcmocontrol || !cbme c.hcmocontrol
  | .VU => !cbme c.mcmocontrol || !cbme c.hcmocontrol || !cbme c.vscmocontrol

/-- `IllegalWrite`: a `CBWE` bit that governs the current mode is 0 (rule R174). -/
def illegalWrite (c : CmoCsrs) : Mode → Bool
  | .M => false
  | .S => !cbwe c.mcmocontrol
  | .U => !cbwe c.mcmocontrol || !cbwe c.scmocontrol
  | .VS => !cbwe c.mcmocontrol || !cbwe c.hcmocontrol
  | .VU => !cbwe c.mcmocontrol || !cbwe c.hcmocontrol || !cbwe c.vscmocontrol

/-! ### `CBO.INVAL` (rules R184, R187, R188) -/

/-- The `INVWxE` bit that `Wx` selects (rule R184). -/
def invwE (r : Word) (w1 : Bool) : Bool := if w1 then invw1e r else invw0e r

/-- The `INVWxI` value of a register (rule R187): the bit that `Wx` selects if the protection mechanism is enabled,
the AND of both if it is not. -/
def invwI (r : Word) (enabled w1 : Bool) : Bool :=
  if enabled then (if w1 then invw1i r else invw0i r) else invw0i r && invw1i r

/-- The `W` bit of the leaf PTE of a stage; a stage that is off has none. -/
def stageW (p : Option Pte) : Bool :=
  match p with
  | some q => q.w
  | none => false

/-- `PerformsInvalidate` (rule R188): whether `CBO.INVAL` invalidates, by effective mode; `s1` and `g` are the leaf
PTEs of the two stages, `wm` is the `Wx` of `mcmocontrol`. -/
def performsInvalidate (c : CmoCsrs) (m : Mode) (s1 g : Option Pte) (wm : Bool) : Bool :=
  let im := invwI c.mcmocontrol true wm
  let is1 := invwI c.scmocontrol s1.isSome (stageW s1)
  let ivs := invwI c.vscmocontrol s1.isSome (stageW s1)
  let ih := invwI c.hcmocontrol g.isSome (stageW g)
  match m with
  | .M => true
  | .S => im
  | .U => is1 && im
  | .VS => ih && im
  | .VU => ivs && ih && im

end Sys2Proof.Machine
end

