-- ==== Sys2Proof/Machine/Cache.lean ====
section
/-!
DEFINITION. The cache machine (spec rules R77, R102 to R112): sets of coherent observers, the view of an observer,
the caches' own moves, loads, stores, and the three cache block operations. Every operation here is one atomic step.
-/

namespace Sys2Proof.Machine

/-! ### Attributes and sets of coherent observers -/

/-- `attrs(pa)`: the attributes of the first region that holds the address; `none` where the platform has no region
or no such address (rules R43, R92). -/
def State.attrs (s : State) (pa : Nat) : Option Attr :=
  if pa < s.cfg.paSize then
    (s.regions.find? (fun r => decide (r.base ≤ pa ∧ pa < r.base + r.size))).map Region.attr
  else none

/-- The location exists: a region of the address map holds it (rule R92). What an access elsewhere does is left open there: that
it does not exist is the model's choice (DESIGN CHOICE, log entry 32). -/
def State.exist (s : State) (pa : Nat) : Bool := (s.attrs pa).isSome

/-- `cset(o, pa)`: the set of coherent observers `o` belongs to (rule R77); `o` alone where hardware does not enforce
coherence, and where the platform lists no set with it. -/
def State.cset (s : State) (o : ObserverId) (pa : Nat) : List ObserverId :=
  match s.attrs pa with
  | none => [o]
  | some a =>
    if a.coherent then ((s.cfg.coherentSets (s.blockBase pa) a.cacheable).find? (fun d => d.contains o)).getD [o] else [o]

/-- Whether some member of a set has a cache (rule R109). -/
def State.setCached (s : State) (set : List ObserverId) : Bool :=
  s.cfg.observers.any (fun o => o.cached && set.contains o.id)

/-! ### Lines -/

/-- The order of cache keys: by block, then by set. -/
def CacheKey.lt (a b : CacheKey) : Bool := natLt a.block b.block || (a.block == b.block && natListLt a.set b.set)

/-- The key of the block of `pa` in the caches of `cset(o, pa)`. -/
def State.keyOf (s : State) (o : ObserverId) (pa : Nat) : CacheKey :=
  { set := s.cset o pa, block := s.blockBase pa }

/-- `Cache[S][B]` (rule R102); `none` is `Absent`. -/
def State.line (s : State) (o : ObserverId) (pa : Nat) : Option Line := mapGet (s.keyOf o pa) s.cache

/-- `Cache[S][B] <- Present(data, dirty)`. -/
def State.setLine (s : State) (o : ObserverId) (pa : Nat) (l : Line) : State :=
  { s with cache := mapSet CacheKey.lt (s.keyOf o pa) l s.cache }

/-- `Cache[S][B] <- Absent`. -/
def State.dropLine (s : State) (o : ObserverId) (pa : Nat) : State :=
  { s with cache := mapDel (s.keyOf o pa) s.cache }

/-- The bytes of a block in memory, `Mem[B .. B+CBS-1]`. -/
def State.memBlock (s : State) (pa : Nat) : List Byte := s.mem.readBytes (s.blockBase pa) s.cfg.cbs

/-- `View(o, pa)` (rule R103). -/
def State.view (s : State) (o : ObserverId) (pa : Nat) : Byte :=
  match s.line o pa with
  | some l => l.data.getD (pa - s.blockBase pa) 0#8
  | none => s.mem.read pa

/-! ### What bears on instruction fetches (rule R116) -/

/-- The bytes from `base` on may have changed, as a fetch sees them. -/
def State.markChanged (s : State) (base size : Nat) : State := { s with fetchLog := .changed base size :: s.fetchLog }

/-- The marks of the bytes in which a copy of the block of `pa` differs from memory. -/
def State.differing (s : State) (pa : Nat) (data : List Byte) : List FetchMark :=
  ((List.range s.cfg.cbs).filter (fun k => data.getD k 0#8 != s.mem.read (s.blockBase pa + k))).map
    (fun k => .changed (s.blockBase pa + k) 1)

/-- The marks of an operation that makes the copy of the block and memory agree, or removes the copy: one for each byte in which
the two differ, whose fetch has no defined result before either. No other byte's fetch changes (rule R116). -/
def State.markDiffering (s : State) (o : ObserverId) (pa : Nat) : State :=
  match s.line o pa with
  | none => s
  | some l => { s with fetchLog := s.differing pa l.data ++ s.fetchLog }

/-! ### The caches' own moves (rules R104 to R106); where a move is not offered nothing changes -/

/-- Fill is offered on an absent or clean block, in a set of observers of the location that has a cache (rules R77, R104, R109),
where the location exists (DESIGN CHOICE, log entry 32). -/
def State.fillOffered (s : State) (o : ObserverId) (pa : Nat) : Bool :=
  s.setCached (s.cset o pa) && s.cfg.observes o pa && s.exist pa &&
    (match s.line o pa with
      | none => true
      | some l => !l.dirty)

/-- Fill (rule R104). -/
def State.fill (s : State) (o : ObserverId) (pa : Nat) : State :=
  if s.fillOffered o pa then (s.markDiffering o pa).setLine o pa { data := s.memBlock pa, dirty := false } else s

/-- Drop (rule R105). -/
def State.drop (s : State) (o : ObserverId) (pa : Nat) : State :=
  match s.line o pa with
  | none => s
  | some l => if l.dirty then s else (s.markDiffering o pa).dropLine o pa

/-- The block of `pa` written to memory and held clean, if it is held dirty: the common core of WriteBack and Clean
(rules R71, R106, R111). -/
def State.writeDirty (s : State) (o : ObserverId) (pa : Nat) : State :=
  match s.line o pa with
  | none => s
  | some l =>
    if l.dirty then
      { (s.markDiffering o pa).setLine o pa { l with dirty := false } with mem := s.mem.writeBytes (s.blockBase pa) l.data }
    else s

/-- WriteBack (rule R106). -/
def State.writeBack (s : State) (o : ObserverId) (pa : Nat) : State := s.writeDirty o pa

/-! ### Loads and stores -/

/-- Whether an element of the global memory order accesses the byte. -/
def MemOp.covers (op : MemOp) (a : Nat) : Bool := decide (op.base ≤ a ∧ a < op.base + op.size)

/-- Whether an invalidate operation by `o` operated on the byte and no store to it came since (rule R101); a flush
performs one (rule R74). Rule R101 leaves open whether the "global memory order" in which no store may come is that of all agents or
of some: here it is of all, so a store by any observer, a non-coherent one too, counts (DESIGN CHOICE, log entry 19). -/
def invalidatedSinceStore (o : ObserverId) (a : Nat) : List MemOp → Bool
  | [] => false
  | op :: older =>
    if op.covers a && op.kind == .store then false
    else if op.covers a && (op.kind == .invalidate || op.kind == .flush) && op.observer == o then true
    else invalidatedSinceStore o a older

/-- The byte a load returns: the view (rule R107), or a free value where the weaker reading of rule R101 applies. -/
def State.loadByte (s : State) (o : ObserverId) (pa k : Nat) : Byte :=
  if s.cfg.invalLoadValue = .any && invalidatedSinceStore o (pa + k) s.gmo then Config.freeLoadByte s.free k
  else s.view o (pa + k)

/-- `Load(o, pa, n)`: the bytes it returns (rule R107). -/
def State.load (s : State) (o : ObserverId) (pa n : Nat) : List Byte := (List.range n).map (s.loadByte o pa)

/-- A list with the elements from position `k` on replaced by those of `v`, as far as it reaches. -/
def patch (data : List Byte) (k : Nat) (v : List Byte) : List Byte :=
  data.mapIdx (fun i b => if k ≤ i ∧ i < k + v.length then v.getD (i - k) 0#8 else b)

/-- `Store(o, pa, n, v)`, the bytes all in one block (rule R108). -/
def State.store (s : State) (o : ObserverId) (pa : Nat) (v : List Byte) : State :=
  match s.line o pa with
  | some l => s.setLine o pa { data := patch l.data (pa - s.blockBase pa) v, dirty := true }
  | none => { s with mem := s.mem.writeBytes pa v }

/-! ### The three cache block operations -/

/-- `Invalidate(h, pa)` (rule R110). -/
def State.invalidate (s : State) (h : ObserverId) (pa : Nat) : State := (s.markDiffering h pa).dropLine h pa

/-- `Clean(h, pa)` (rule R111). -/
def State.clean (s : State) (h : ObserverId) (pa : Nat) : State := s.writeDirty h pa

/-- `Flush(h, pa)`, its two halves in one step (rule R112). -/
def State.flush (s : State) (h : ObserverId) (pa : Nat) : State := (s.clean h pa).invalidate h pa

/-! ### The global memory order -/

/-- One element more at the end of the global memory order (rules R99, R100, R102). -/
def State.record (s : State) (o : ObserverId) (kind : MemKind) (base size : Nat) : State :=
  { s with gmo := { observer := o, kind := kind, base := base, size := size } :: s.gmo }

/-- A management operation accesses all the bytes of its block (rule R99). -/
def State.recordBlock (s : State) (kind : MemKind) (pa : Nat) : State :=
  s.record s.self kind (s.blockBase pa) s.cfg.cbs

/-- Whether two runs of bytes share one. -/
def overlap (a n b m : Nat) : Bool := decide (max a b < min (a + n) (b + m))

/-- The reservations that a store by `o` leaves: those of the other observers on a byte it stores to are lost, so that
no paired store-conditional can succeed across it (rule R98; log entry 10). -/
def keptByStore (o : ObserverId) (pa n : Nat) (rs : List Reservation) : List Reservation :=
  rs.filter (fun r => r.hart == o || !overlap r.base r.size pa n)

/-- A store as an observer performs it: the store, its place in the global memory order, its mark for fetches, and what it
does to reservations. -/
def State.observerStore (s : State) (o : ObserverId) (pa : Nat) (v : List Byte) : State :=
  { ((s.store o pa v).record o .store pa v.length).markChanged pa v.length with
    reservations := keptByStore o pa v.length s.reservations }

end Sys2Proof.Machine
end

