-- ==== Sys2Proof/Machine/Protect.lean ====
section
/-!
DEFINITION. Translation and protection as a CMO instruction sees them (spec rules R84 to R90), the exceptions (rule
R170), and the outcome of a check.
-/

namespace Sys2Proof.Machine

/-! ### Exceptions -/

/-- The exceptions of rule R170. -/
inductive Cause where
  | instrAddrMisaligned
  | instrAccessFault
  | illegalInstruction
  | breakpoint
  | loadAddrMisaligned
  | loadAccessFault
  | storeAmoAddrMisaligned
  | storeAmoAccessFault
  | instrPageFault
  | loadPageFault
  | storeAmoPageFault
  | instrGuestPageFault
  | loadGuestPageFault
  | virtualInstruction
  | storeAmoGuestPageFault
  deriving DecidableEq, Repr

/-- The code of an exception (rule R170). -/
def Cause.code : Cause → Nat
  | .instrAddrMisaligned => 0
  | .instrAccessFault => 1
  | .illegalInstruction => 2
  | .breakpoint => 3
  | .loadAddrMisaligned => 4
  | .loadAccessFault => 5
  | .storeAmoAddrMisaligned => 6
  | .storeAmoAccessFault => 7
  | .instrPageFault => 12
  | .loadPageFault => 13
  | .storeAmoPageFault => 15
  | .instrGuestPageFault => 20
  | .loadGuestPageFault => 21
  | .virtualInstruction => 22
  | .storeAmoGuestPageFault => 23

/-- Guest-page faults, codes 20, 21 and 23 (rule R208). -/
def Cause.isGuestPageFault : Cause → Bool
  | .instrGuestPageFault => true
  | .loadGuestPageFault => true
  | .storeAmoGuestPageFault => true
  | .instrAddrMisaligned => false
  | .instrAccessFault => false
  | .illegalInstruction => false
  | .breakpoint => false
  | .loadAddrMisaligned => false
  | .loadAccessFault => false
  | .storeAmoAddrMisaligned => false
  | .storeAmoAccessFault => false
  | .instrPageFault => false
  | .loadPageFault => false
  | .storeAmoPageFault => false
  | .virtualInstruction => false

/-- An exception as it is raised: its kind, its trap value (rule R201), and for a guest-page fault the guest
physical address (rule R206). -/
structure Exc where
  cause : Cause
  tval  : Word
  gpa   : Nat
  deriving DecidableEq, Repr

/-- How a check ends: it passes with a result, raises an exception, or has no meaning in the spec. -/
inductive Check (α : Type) where
  | pass (a : α)
  | raise (e : Exc)
  | refuse (r : Refusal)
  deriving DecidableEq, Repr

/-- A check after a check. -/
def Check.andThen {α β : Type} (c : Check α) (k : α → Check β) : Check β :=
  match c with
  | .pass a => k a
  | .raise e => .raise e
  | .refuse r => .refuse r

/-- A condition whose failure raises an exception. -/
def require (ok : Bool) (e : Exc) : Check Unit := if ok then .pass () else .raise e

/-! ### Translation (rule R84) -/

/-- The smallest page size (rule R84). -/
def pageSize : Nat := 4096

/-- The result of `Translate`: the walk interrupted, or the leaf PTEs of the two stages (`none` is `Off`), the
guest physical address the first stage gives, and the physical address. -/
inductive Translated where
  | walkAccessFault
  | walkGuestPageFault (gpa : Nat)
  | mapped (s1 g : Option Pte) (gpa pa : Nat)
  deriving DecidableEq, Repr

/-- A leaf that stands for every way a walk fails to find a valid one (rule R84). -/
def Pte.invalid : Pte := { v := false, r := false, w := false, x := false, u := false }

/-- The walk of one stage for an input address. -/
def PageTable.walk (t : PageTable) (a : Nat) : Walk := (mapGet (a / pageSize) t.walks).getD (.leaf .invalid 0)

/-- The address a leaf maps an input address to: the leaf's page and the offset in the page. -/
def leafAddr (ppn a : Nat) : Nat := ppn * pageSize + a % pageSize

/-- The first stage's register: the `satp` table for S and U, the `vsatp` table for VS and VU, none for M (rule R84). -/
def firstStage (c : HostCsrs) : Mode → Option PageTable
  | .M => none
  | .S => some c.satp
  | .U => some c.satp
  | .VS => some c.vsatp
  | .VU => some c.vsatp

/-- The G-stage's register: the `hgatp` table for VS and VU (rule R84). -/
def gStage (c : HostCsrs) (m : Mode) : Option PageTable := if m.virt then some c.hgatp else none

/-- The table of a stage that translates: its register exists and is not `Bare`. -/
def stageOn (t : Option PageTable) : Option PageTable := t.filter (fun p => !p.bare)

/-- The G-stage of a translation whose first stage ended at `s1` with guest physical address `gpa`. -/
def translateG (c : HostCsrs) (m : Mode) (s1 : Option Pte) (gpa : Nat) : Translated :=
  match stageOn (gStage c m) with
  | none => .mapped s1 none gpa gpa
  | some t =>
    match t.walk gpa with
    | .accessFault => .walkAccessFault
    | .guestPageFault a => .walkGuestPageFault a
    | .leaf p ppn => .mapped s1 (some p) gpa (leafAddr ppn gpa)

/-- `Translate(va, eff_mode)` (rule R84). A first stage with no valid leaf ends the translation there. -/
def translateVa (c : HostCsrs) (va : Nat) (m : Mode) : Translated :=
  match stageOn (firstStage c m) with
  | none => translateG c m none va
  | some t =>
    match t.walk va with
    | .accessFault => .walkAccessFault
    | .guestPageFault a => .walkGuestPageFault a
    | .leaf p ppn => if p.v then translateG c m (some p) (leafAddr ppn va) else .mapped (some p) none 0 0

/-! ### Permissions of the two stages (rules R85 to R87) -/

/-- `SUM_m`: `mstatus.SUM` for S, `vsstatus.SUM` for VS (rule R86). -/
def sumOf (c : HostCsrs) : Mode → Bool
  | .S => c.mstatus.sum
  | .VS => c.vsstatus.sum
  | .M => false
  | .U => false
  | .VU => false

/-- `Uok(p, m)` (rule R86). Effective M-mode has no first stage. -/
def uOk (c : HostCsrs) (p : Pte) : Mode → Bool
  | .U => p.u
  | .VU => p.u
  | .S => !p.u || sumOf c .S
  | .VS => !p.u || sumOf c .VS
  | .M => true

/-- `S1okRX(p, m)` (rule R85). -/
def s1OkRX (c : HostCsrs) (p : Pte) (m : Mode) : Bool := p.v && (p.r || p.x) && uOk c p m

/-- `S1okW(p, m)` (rule R85). -/
def s1OkW (c : HostCsrs) (p : Pte) (m : Mode) : Bool := p.v && p.w && uOk c p m

/-- `GokRX(p)`: in the G-stage every access counts as a user access (rules R86, R87). -/
def gOkRX (p : Pte) : Bool := p.v && (p.r || p.x) && p.u

/-- `GokW(p)` (rule R87). -/
def gOkW (p : Pte) : Bool := p.v && p.w && p.u

/-! ### Joint permission (rules R88 to R90) -/

/-- The verdict of a mode. -/
def ModePerms.of (p : ModePerms) : Mode → Perm
  | .M => p.m
  | .S => p.s
  | .U => p.u
  | .VS => p.vs
  | .VU => p.vu

/-- No permission. -/
def Perm.none : Perm := { r := false, w := false, x := false }

/-- The PMP's verdict: that of the first entry that holds the address, or the verdict where none does (rule R88). -/
def pmpPerm (c : HostCsrs) (pa : Nat) (m : Mode) : Perm :=
  (((c.pmp.find? (fun e => decide (e.base ≤ pa ∧ pa < e.base + e.size))).map PmpEntry.perms).getD c.pmpDefault).of m

/-- The PMAs' verdict for the executing hart (rule R43): none where the platform has no region, and none where the hart is
no observer of the location, which it can neither load from nor store to (rule R62; log entry 14). -/
def State.pmaPerm (s : State) (pa : Nat) : Perm :=
  if s.cfg.observes s.self pa then ((s.attrs pa).map Attr.perm).getD .none else .none

/-- `jointR(pa)` in a mode (rule R88). -/
def State.jointR (s : State) (m : Mode) (pa : Nat) : Bool := (pmpPerm s.hart.csr pa m).r && (s.pmaPerm pa).r
/-- `jointW(pa)` in a mode (rule R88). -/
def State.jointW (s : State) (m : Mode) (pa : Nat) : Bool := (pmpPerm s.hart.csr pa m).w && (s.pmaPerm pa).w
/-- `jointX(pa)` in a mode (rule R88). -/
def State.jointX (s : State) (m : Mode) (pa : Nat) : Bool := (pmpPerm s.hart.csr pa m).x && (s.pmaPerm pa).x

/-- `allJointRX(block(pa))` (rule R89). -/
def State.allJointRX (s : State) (m : Mode) (pa : Nat) : Bool :=
  (s.block pa).all (fun a => s.jointR m a || s.jointX m a)

/-- `anyJointW(block(pa))`: the `Wx` of `mcmocontrol` (rule R89). -/
def State.anyJointW (s : State) (m : Mode) (pa : Nat) : Bool := (s.block pa).any (s.jointW m)

/-- `fullJointW(block(pa))` (rule R89). -/
def State.fullJointW (s : State) (m : Mode) (pa : Nat) : Bool := (s.block pa).all (s.jointW m)

/-- The PMA constraints of rule R90 on the block of `pa`, a matter of `attrs` alone: the same throughout, and read with write. -/
def State.pmaConstraintsMet (s : State) (pa : Nat) : Bool :=
  (s.block pa).all (fun a => s.attrs a == s.attrs pa) && (s.attrs pa).all (fun a => !a.perm.w || a.perm.r)

end Sys2Proof.Machine
end

