-- ==== Sys2Proof/Machine/Ops.lean ====
section
/-!
DEFINITION. The shared operations of the instructions: taking an exception and returning from one (spec rules R205 to
R208), triggers (rules R194 to R198), the address checks (rule R199), and completing an instruction (rules R10, R22).
-/

namespace Sys2Proof.Machine

/-- The three outcomes of a step, at this machine's types. -/
abbrev Out := Host.Outcome State Fault Refusal

/-! ### Taking an exception (rules R205, R206, R208) -/

/-- The level a trap is taken to. -/
inductive TrapTarget where
  | m
  | s
  | vs
  deriving DecidableEq, Repr

/-- Where an exception goes (rule R208): to M-mode unless it is raised below M-mode and `medeleg` delegates its code;
then to HS-mode, or on to VS-mode if it is raised in VS or VU, `hedeleg` delegates it too, and it is no guest-page fault. -/
def trapTarget (c : Config) (mode : Mode) (csr : HostCsrs) (cause : Cause) : TrapTarget :=
  if mode = .M || !c.hasS || !csr.medeleg.getLsbD cause.code then .m
  else if mode.virt && csr.hedeleg.getLsbD cause.code && !cause.isGuestPageFault then .vs
  else .s

/-- `xepc`, `xcause`, `xtval` of one level after a trap (rule R206); the interrupt bit of the cause is clear. -/
def TrapRegs.save (t : TrapRegs) (pc : Word) (e : Exc) : TrapRegs :=
  { t with epc := pc, cause := BitVec.ofNat 64 e.cause.code, tval := e.tval }

/-- The handler's address: `xtvec` with its two low bits cleared (rule R206). -/
def TrapRegs.base (t : TrapRegs) : Word := t.tvec &&& ~~~3#64

/-- A guest-page fault records the guest physical address shifted right by 2 (rule R206); other traps leave the
register as it is (log entry 8). -/
def gpaReg (c : Config) (e : Exc) (old : Word) : Word :=
  if e.cause.isGuestPageFault then c.trunc (BitVec.ofNat 64 (e.gpa / 4)) else old

/-- What `mtinst` or `htinst` holds after a trap: a free value after a guest-page fault (log entry 2). -/
def tinstReg (c : Config) (e : Exc) (n : Nat) (old : Word) : Word :=
  if e.cause.isGuestPageFault then c.trunc (Config.freeTinst n) else old

/-- A trap into M-mode (rule R206). -/
def trapToM (c : Config) (n : Nat) (h : Hart) (e : Exc) : Hart :=
  { h with
    mode := .M
    pc := c.trunc h.csr.mtrap.base
    csr :=
      { h.csr with
        mtrap := h.csr.mtrap.save h.pc e
        mtval2 := gpaReg c e h.csr.mtval2
        mtinst := tinstReg c e n h.csr.mtinst
        mstatus :=
          { h.csr.mstatus with
            mpp := h.mode.level, mpv := h.mode.virt, mpie := h.csr.mstatus.mie, mie := false } } }

/-- A trap into HS-mode (rule R206). -/
def trapToS (c : Config) (n : Nat) (h : Hart) (e : Exc) : Hart :=
  { h with
    mode := .S
    pc := c.trunc h.csr.strap.base
    csr :=
      { h.csr with
        strap := h.csr.strap.save h.pc e
        htval := gpaReg c e h.csr.htval
        htinst := tinstReg c e n h.csr.htinst
        spv := h.mode.virt
        mstatus :=
          { h.csr.mstatus with
            spp := h.mode.level == .s, spie := h.csr.mstatus.sie, sie := false } } }

/-- A trap into VS-mode, with the `vs` copies of the registers (rule R206). -/
def trapToVS (c : Config) (h : Hart) (e : Exc) : Hart :=
  { h with
    mode := .VS
    pc := c.trunc h.csr.vstrap.base
    csr :=
      { h.csr with
        vstrap := h.csr.vstrap.save h.pc e
        vsstatus :=
          { h.csr.vsstatus with
            spp := h.mode.level == .s, spie := h.csr.vsstatus.sie, sie := false } } }

/-- The hart after an exception. -/
def trapHart (c : Config) (n : Nat) (h : Hart) (e : Exc) : Hart :=
  match trapTarget c h.mode h.csr e.cause with
  | .m => trapToM c n h e
  | .s => trapToS c n h e
  | .vs => trapToVS c h e

/-- The reservations that survive a step of a CMO instruction or an exception: whether one does is not stated (rules R47, R115; log
entry 10), so each is kept or lost by a free value. -/
def State.reservationsKept (s : State) : List Reservation :=
  s.reservations.filter (fun r => Config.freeKeepsReservation s.free r.hart)

/-- TAKING AN EXCEPTION: the hart is at the handler, a load reservation may or may not survive, and nothing else has changed but the
counter of free values. Memory, caches, general registers and the four `xcmocontrol` registers are as they were (rules R203, R207). -/
def State.trap (s : State) (e : Exc) : State :=
  { s with hart := trapHart s.cfg s.free s.hart e, reservations := s.reservationsKept, free := s.free + 1 }

/-! ### Returning from one (rule R207) -/

/-- `MRET`. The mode comes from `mstatus.MPP` and `mstatus.MPV`; `MPV` itself is left as it is (log entry 8). -/
def mretHart (c : Config) (h : Hart) : Hart :=
  let back := modeOf c h.csr.mstatus.mpp h.csr.mstatus.mpv
  { h with
    mode := back
    pc := c.trunc h.csr.mtrap.epc
    csr :=
      { h.csr with
        mstatus :=
          { h.csr.mstatus with
            mie := h.csr.mstatus.mpie
            mpie := true
            mpp := if c.hasU then .u else .m
            mprv := if back = .M then h.csr.mstatus.mprv else false } } }

/-- `SRET` in M-mode or HS-mode, with `sstatus.SPP` and `hstatus.SPV`. -/
def sretHart (c : Config) (h : Hart) : Hart :=
  { h with
    mode := modeOf c (if h.csr.mstatus.spp then .s else .u) h.csr.spv
    pc := c.trunc h.csr.strap.epc
    csr :=
      { h.csr with
        mstatus :=
          { h.csr.mstatus with sie := h.csr.mstatus.spie, spie := true, spp := false, mprv := false } } }

/-- `SRET` in VS-mode, with the `vs` copies; `V` stays 1, and `mstatus.MPRV` is cleared, the new mode not being M. -/
def vsretHart (c : Config) (h : Hart) : Hart :=
  { h with
    mode := if h.csr.vsstatus.spp then .VS else .VU
    pc := c.trunc h.csr.vstrap.epc
    csr :=
      { h.csr with
        mstatus := { h.csr.mstatus with mprv := false }
        vsstatus := { h.csr.vsstatus with sie := h.csr.vsstatus.spie, spie := true, spp := false } } }

/-- Whether a mode may execute `MRET`. -/
def mretAllowed : Mode → Bool
  | .M => true
  | .S => false
  | .U => false
  | .VS => false
  | .VU => false

/-- The hart after `SRET`, in the modes that have it. -/
def sretResult (c : Config) (h : Hart) : Option Hart :=
  match h.mode with
  | .M => if c.hasS then some (sretHart c h) else none
  | .S => some (sretHart c h)
  | .VS => some (vsretHart c h)
  | .U => none
  | .VU => none

/-! ### Completing an instruction -/

/-- `retire`: `pc <- pc + 4` modulo `2 ^ XLEN` (rules R10, R22). A load reservation may or may not survive it. -/
def State.retire (s : State) : State :=
  { s with
    hart := { s.hart with pc := s.cfg.trunc (s.hart.pc + 4#64), pending := none }
    reservations := s.reservationsKept
    free := s.free + 1 }

/-- A step of a CMO instruction after which `p` of it is left (rules R75, R112): `pc` is still at it. A load reservation may or may
not survive this step either (log entry 10). -/
def State.suspend (s : State) (p : Pending) : State :=
  { s with
    hart := { s.hart with pending := some p }
    reservations := s.reservationsKept
    free := s.free + 1 }

/-- A check before the rest of an instruction: it goes on, or takes the exception, or refuses. -/
def State.checked {α : Type} (s : State) (c : Check α) (k : α → Out) : Out :=
  match c with
  | .pass a => k a
  | .raise e => .next (s.trap e)
  | .refuse r => .refused r

/-- The illegal instruction exception of an instruction, with `IllegalTval` (rule R201). -/
def State.illegal (s : State) (i : Instr) : Exc :=
  { cause := .illegalInstruction
    tval :=
      if s.cfg.illegalTvalIsWord then ((encode s.cfg.prefetchDecode i).getD 0#32).setWidth 64 else 0#64
    gpa := 0 }

/-! ### Triggers (rules R194 to R198) -/

/-- What a CMO instruction is to a type-6 trigger (rules R195, R196). -/
structure AccessClass where
  load  : Bool
  store : Bool
  deriving DecidableEq, Repr

/-- A management instruction is both a load and a store (rule R195). -/
def AccessClass.mgmt : AccessClass := { load := true, store := true }
/-- A write instruction is a store (rule R195). -/
def AccessClass.write : AccessClass := { load := false, store := true }
/-- A hint instruction is both, or neither (rule R196). -/
def AccessClass.hint (c : Config) : AccessClass := { load := c.hintIsLoadStore, store := c.hintIsLoadStore }

/-- Whether the address is one the trigger matches. -/
def Trigger.hits (t : Trigger) (a : Word) : Bool :=
  match t.compare with
  | .exact => t.addr == a
  | .napot k => t.addr.toNat / 2 ^ k == a.toNat / 2 ^ k

/-- An armed trigger whose behaviour on a CMO instruction is UNSPECIFIED (rule R197). -/
def Trigger.unspecified (t : Trigger) : Bool :=
  t.armed && (t.load || t.store) && (t.ttype == .mcontrol || t.data)

/-- A type-6 address trigger that fires on an access to `va` (rule R195). -/
def Trigger.firesOnAccess (t : Trigger) (k : AccessClass) (va : Word) : Bool :=
  t.armed && t.ttype == .mcontrol6 && !t.data && ((t.load && k.load) || (t.store && k.store)) && t.hits va

/-- A trigger that fires on the execution of the instruction at `pc` (rule R194). The rule speaks of execute-address triggers
alone: that an execute trigger that matches data never fires is the model's choice (DESIGN CHOICE, log entry 20). -/
def Trigger.firesOnExecute (t : Trigger) (pc : Word) : Bool := t.armed && t.execute && !t.data && t.hits pc

/-- What a set of firing triggers does: nothing, a breakpoint exception, or another debug action (rule R194). -/
def State.fire (s : State) (firing : List Trigger) : Check Unit :=
  if firing.any (fun t => t.action == .other) then .refuse .debugAction
  else if firing.isEmpty then .pass ()
  else .raise { cause := .breakpoint, tval := s.cfg.trunc (Config.freeBreakpointTval s.free), gpa := 0 }

/-- The triggers' part of a CMO instruction on the effective address `va` (rules R195 to R197). -/
def State.accessTriggers (s : State) (k : AccessClass) (va : Word) : Check Unit :=
  if s.hart.csr.triggers.any Trigger.unspecified then .refuse .unspecifiedTrigger
  else s.fire (s.hart.csr.triggers.filter (fun t => t.firesOnAccess k va))

/-- The triggers' part before the instruction at `pc` is fetched (rules R194, R200). -/
def State.executeTriggers (s : State) : Check Unit :=
  s.fire (s.hart.csr.triggers.filter (fun t => t.firesOnExecute s.hart.pc))

/-! ### The address checks (rule R199) -/

/-- The classes of rule R199: `MGMT`, `INVAL`, `WRITE`. -/
inductive OpClass where
  | mgmt
  | inval
  | write
  deriving DecidableEq, Repr

/-- What `CheckAddr` returns (rule R199). -/
structure Checked where
  pa : Nat
  s1 : Option Pte
  g  : Option Pte
  wm : Bool
  deriving DecidableEq, Repr

/-- The store/AMO access fault on `va`; the trap value is the effective address as given (rule R201). -/
def accessFaultOn (va : Word) : Exc := { cause := .storeAmoAccessFault, tval := va, gpa := 0 }
/-- The store/AMO page fault on `va`. -/
def pageFaultOn (va : Word) : Exc := { cause := .storeAmoPageFault, tval := va, gpa := 0 }
/-- The store/AMO guest-page fault on `va` at guest physical address `gpa`. -/
def guestPageFaultOn (va : Word) (gpa : Nat) : Exc := { cause := .storeAmoGuestPageFault, tval := va, gpa := gpa }

/-- The `INVWxE` test of the first stage: `scmocontrol` in effective U-mode, `vscmocontrol` in effective VU-mode, none
in the others (rule R184). -/
def firstStageInvalOk (c : CmoCsrs) (m : Mode) (p : Pte) : Bool :=
  match m with
  | .U => invwE c.scmocontrol p.w
  | .VU => invwE c.vscmocontrol p.w
  | .M => true
  | .S => true
  | .VS => true

/-- The first stage allows the access (rules R177, R178, R184). -/
def State.firstStageOk (s : State) (k : OpClass) (m : Mode) (s1 : Option Pte) : Bool :=
  match s1 with
  | none => true
  | some p =>
    match k with
    | .mgmt => s1OkRX s.hart.csr p m
    | .inval => s1OkRX s.hart.csr p m && firstStageInvalOk s.hart.cmo m p
    | .write => s1OkW s.hart.csr p m

/-- The G-stage allows the access (rules R179, R184). -/
def State.gStageOk (s : State) (k : OpClass) (g : Option Pte) : Bool :=
  match g with
  | none => true
  | some p =>
    match k with
    | .mgmt => gOkRX p
    | .inval => gOkRX p && invwE s.hart.cmo.hcmocontrol p.w
    | .write => gOkW p

/-- The PMP and the PMAs allow the access (rules R184, R190, R191). -/
def State.jointOk (s : State) (k : OpClass) (m : Mode) (pa : Nat) : Bool :=
  match k with
  | .mgmt => s.allJointRX m pa
  | .inval => s.allJointRX m pa && (m == .M || invwE s.hart.cmo.mcmocontrol (s.anyJointW m pa))
  | .write => s.fullJointW m pa

/-- `CheckAddr` (rule R199), in its order: translation, first stage, G-stage, PMA constraints, PMP and PMAs. -/
def State.checkAddr (s : State) (k : OpClass) (va : Word) : Check Checked :=
  let m := s.effMode
  match translateVa s.hart.csr va.toNat m with
  | .walkAccessFault => .raise (accessFaultOn va)
  | .walkGuestPageFault gpa => .raise (guestPageFaultOn va gpa)
  | .mapped s1 g gpa pa =>
    if !s.firstStageOk k m s1 then .raise (pageFaultOn va)
    else if !s.gStageOk k g then .raise (guestPageFaultOn va gpa)
    else if !s.pmaConstraintsMet pa then .refuse .pmaConstraint
    else if !s.jointOk k m pa then .raise (accessFaultOn va)
    else .pass { pa := pa, s1 := s1, g := g, wm := s.anyJointW m pa }

/-- `HintOk` (rule R199): the physical address if the checks of rules R180 and R193 pass. It never raises. A block that does
not meet the PMA constraints is refused, as for every CMO instruction (rule R90, decision D32; log entry 26). -/
def State.hintTarget (s : State) (va : Word) : Check (Option Nat) :=
  let m := s.effMode
  match translateVa s.hart.csr va.toNat m with
  | .walkAccessFault => .pass none
  | .walkGuestPageFault _ => .pass none
  | .mapped s1 g _ pa =>
    if !(s.firstStageOk .mgmt m s1 && s.gStageOk .mgmt g) then .pass none
    else if !s.pmaConstraintsMet pa then .refuse .pmaConstraint
    else if s.allJointRX m pa then .pass (some pa)
    else .pass none

end Sys2Proof.Machine
end

