-- ==== Sys2Proof/Machine/Hint.lean ====
section
/-!
DEFINITION. The cache block hint instructions: `PREFETCH.R`, `PREFETCH.W`, `PREFETCH.I` (spec rules R160 to R165).
`level` is ignored (rule R161). Where the checks fail they access nothing; where they pass the caches may take the
Fill that rule R104 offers, or not: `State.hintFills` says which.
-/

namespace Sys2Proof.Machine

/-- The optional allocation of a hint instruction whose checks give `target` (rule R162). -/
def State.hintAllocate (s : State) (target : Option Nat) : State :=
  match target with
  | none => s
  | some pa =>
    match s.hintFills with
    | [] => s
    | true :: rest => { s with hintFills := rest }.fill s.self pa
    | false :: rest => { s with hintFills := rest }

/-- What the three have in common (rule R162): the triggers, the checks, the optional allocation, and `retire` whether the
checks pass or fail. -/
def State.hint (s : State) (rs1 : RegNum) : Out :=
  s.checked (s.accessTriggers (.hint s.cfg) (s.effAddr rs1)) fun _ =>
    s.checked (s.hintTarget (s.effAddr rs1)) fun target => .next (s.hintAllocate target).retire

/-- `PREFETCH.R` (rule R163). -/
def execPrefetchR (rs1 : RegNum) (_level : Level) (s : State) : Out := s.hint rs1

/-- `PREFETCH.W` (rule R164); no write permission is asked. -/
def execPrefetchW (rs1 : RegNum) (_level : Level) (s : State) : Out := s.hint rs1

/-- `PREFETCH.I` (rule R165); the permission asked is read or execute. -/
def execPrefetchI (rs1 : RegNum) (_level : Level) (s : State) : Out := s.hint rs1

end Sys2Proof.Machine
end

