-- ==== Sys2Proof/Machine/Management.lean ====
section
/-!
DEFINITION. The cache block management instructions: `CBO.INVAL`, `CBO.CLEAN`, `CBO.FLUSH` (spec rules R140 to R144).
-/

namespace Sys2Proof.Machine

/-- The invalidate operation of the executing hart, and the end of the instruction (rules R110, R142). -/
def State.doInvalidate (s : State) (pa : Nat) : State :=
  ((s.invalidate s.self pa).recordBlock .invalidate pa).retire

/-- The clean operation of the executing hart, and the end of the instruction (rules R111, R143). -/
def State.doClean (s : State) (pa : Nat) : State := ((s.clean s.self pa).recordBlock .clean pa).retire

/-- The second half of a flush that is not atomic: an invalidate operation of its own, and the end of the instruction
(rule R112). -/
def State.finishFlush (s : State) (pa : Nat) : State := s.doInvalidate pa

/-- The flush operation of the executing hart (rules R112, R144). With `FlushAtomic`, both halves and the end of the
instruction are one step and one element of the global memory order. Without, they are a clean operation now and an
invalidate operation at the hart's next step; the low bits of the address have no effect (rule R94), so the block's base
stands for it there. -/
def State.doFlush (s : State) (pa : Nat) : State :=
  let cleaned := s.clean s.self pa
  if s.cfg.flushAtomic then ((cleaned.recordBlock .flush pa).invalidate s.self pa).retire
  else (cleaned.recordBlock .clean pa).suspend (.flushInvalidate (s.blockBase pa))

/-- What the three instructions have in common (rule R141): the illegal-instruction test in the current mode, the
triggers, the address checks in the effective mode, then the operation. -/
def State.manage (s : State) (i : Instr) (k : OpClass) (operate : Checked → State) : Out :=
  let va := s.effAddr i.rs1
  if illegalMgmt s.hart.cmo s.hart.mode then .next (s.trap (s.illegal i))
  else s.checked (s.accessTriggers .mgmt va) fun _ => s.checked (s.checkAddr k va) fun r => .next (operate r)

/-- `CBO.INVAL` (rule R142): an invalidate or a flush, by the control registers (rule R188). -/
def execCboInval (rs1 : RegNum) (s : State) : Out :=
  s.manage (.cboInval rs1) .inval fun r =>
    if performsInvalidate s.hart.cmo s.effMode r.s1 r.g r.wm then s.doInvalidate r.pa else s.doFlush r.pa

/-- `CBO.CLEAN` (rule R143). -/
def execCboClean (rs1 : RegNum) (s : State) : Out := s.manage (.cboClean rs1) .mgmt fun r => s.doClean r.pa

/-- `CBO.FLUSH` (rule R144). -/
def execCboFlush (rs1 : RegNum) (s : State) : Out := s.manage (.cboFlush rs1) .mgmt fun r => s.doFlush r.pa

end Sys2Proof.Machine
end

