-- ==== Sys2Proof/Machine/Write.lean ====
section
/-!
DEFINITION. The cache block write instruction, `CBO.ZERO` (spec rules R150 to R153).
-/

namespace Sys2Proof.Machine

/-- The byte stores of zero at the given offsets of the block with base `base`, by the executing hart (rule R152). -/
def State.zeroBytes (s : State) (base : Nat) : List Nat → State
  | [] => s
  | k :: ks => (s.observerStore s.self (base + k) [0#8]).zeroBytes base ks

/-- The offsets, of those still to be stored to, that the next atomic group stores to: those that the plan's next group names, or
all of them where no group is left (log entry 16). -/
def zeroNow (plan : List (List Nat)) (offsets : List Nat) : List Nat :=
  match plan with
  | [] => offsets
  | group :: _ => offsets.filter (fun k => group.contains k)

/-- The offsets left after that group. -/
def zeroLater (plan : List (List Nat)) (offsets : List Nat) : List Nat :=
  offsets.filter (fun k => !(zeroNow plan offsets).contains k)

/-- One atomic group of byte stores. The instruction ends with its last byte store (rules R75, R152). -/
def State.zeroGroup (s : State) (base : Nat) (offsets : List Nat) : State :=
  let stored := { s with zeroPlan := s.zeroPlan.tail }.zeroBytes base (zeroNow s.zeroPlan offsets)
  if (zeroLater s.zeroPlan offsets).isEmpty then stored.retire
  else stored.suspend (.zero base (zeroLater s.zeroPlan offsets))

/-- `CBO.ZERO` (rule R152): the illegal-instruction test, the triggers, all the checks, then the byte stores. -/
def execCboZero (rs1 : RegNum) (s : State) : Out :=
  let va := s.effAddr rs1
  if illegalWrite s.hart.cmo s.hart.mode then .next (s.trap (s.illegal (.cboZero rs1)))
  else
    s.checked (s.accessTriggers .write va) fun _ =>
      s.checked (s.checkAddr .write va) fun r => .next (s.zeroGroup (s.blockBase r.pa) (List.range s.cfg.cbs))

end Sys2Proof.Machine
end

