-- ==== Sys2Proof/Machine/Fetch.lean ====
section
/-!
DEFINITION. Instruction fetch and one step of the executing hart (spec rules R22, R93, R116, R131, R132, R170, R200).
Fetch faults are the host's (rule R170): their checks are log entry 7 (PRESUMED).
-/

namespace Sys2Proof.Machine

/-! ### Fetching bytes -/

/-- Whether the byte may have changed since the hart's latest `FENCE.I`: then nothing says what a fetch sees (rule R116). -/
def changedSinceFenceI (h : ObserverId) (a : Nat) : List FetchMark → Bool
  | [] => false
  | .fenceI g :: older => if g = h then false else changedSinceFenceI h a older
  | .changed base size :: older =>
    if base ≤ a ∧ a < base + size then true else changedSinceFenceI h a older

/-- Every copy of the byte, in the caches of any set, agrees with memory. -/
def State.copiesAgree (s : State) (pa : Nat) : Bool :=
  s.cache.all (fun p => p.1.block != s.blockBase pa || p.2.data.getD (pa - s.blockBase pa) 0#8 == s.mem.read pa)

/-- The fetch of a location has a defined result: since the hart's latest `FENCE.I` the byte has not been stored to, nor
written back, filled over, discarded or invalidated where a copy differed from memory; and no copy differs now. -/
def State.fetchDefined (s : State) (pa : Nat) : Bool :=
  !changedSinceFenceI s.self pa s.fetchLog && s.copiesAgree pa

/-- The byte a fetch sees: memory's, or a free value where nothing is promised (rule R116). `k` is its offset. -/
def State.fetchByte (s : State) (pa k : Nat) : Byte :=
  if s.fetchDefined pa then s.mem.read pa else Config.freeFetchByte s.free k

/-- An instruction page in the first stage: valid, executable, and a user page exactly for the user modes (log entry 7). -/
def s1OkFetch (p : Pte) : Mode → Bool
  | .U => p.v && p.x && p.u
  | .VU => p.v && p.x && p.u
  | .S => p.v && p.x && !p.u
  | .VS => p.v && p.x && !p.u
  | .M => true

/-- The physical address of an instruction byte at `a`, fetched in the current mode, or the fetch's exception. -/
def State.fetchAddr (s : State) (a : Word) : Check Nat :=
  let m := s.hart.mode
  let fault (c : Cause) (gpa : Nat) : Check Nat := .raise { cause := c, tval := a, gpa := gpa }
  match translateVa s.hart.csr a.toNat m with
  | .walkAccessFault => fault .instrAccessFault 0
  | .walkGuestPageFault gpa => fault .instrGuestPageFault gpa
  | .mapped s1 g gpa pa =>
    if !(s1.all (fun p => s1OkFetch p m)) then fault .instrPageFault 0
    else if !(g.all (fun p => p.v && p.x && p.u)) then fault .instrGuestPageFault gpa
    else if !s.jointX m pa then fault .instrAccessFault 0
    else .pass pa

/-- The instruction byte at offset `k` from `pc`. -/
def State.fetchAt (s : State) (k : Nat) : Check Byte :=
  (s.fetchAddr (s.cfg.trunc (s.hart.pc + BitVec.ofNat 64 k))).andThen fun pa => .pass (s.fetchByte pa k)

/-- The bytes of the instruction at `pc`: two, and two more if those say that it is a 32-bit one (rule R131). -/
def State.fetch (s : State) : Check (List Byte) :=
  if s.hart.pc.toNat % s.cfg.ialign ≠ 0 then
    .raise { cause := .instrAddrMisaligned, tval := s.hart.pc, gpa := 0 }
  else
    (s.fetchAt 0).andThen fun b0 => (s.fetchAt 1).andThen fun b1 =>
      if isWordSized b0 then
        (s.fetchAt 2).andThen fun b2 => (s.fetchAt 3).andThen fun b3 => .pass [b0, b1, b2, b3]
      else .pass [b0, b1]

/-! ### One step of the hart -/

/-- A fetched instruction: a CMO instruction runs; a reserved encoding and an instruction of the host are refused
(rules R129, R132). -/
def State.runBytes (s : State) (bs : List Byte) : Out :=
  match decodeBytes s.cfg.prefetchDecode bs with
  | some (.instr i, _) => exec i s
  | some (.reserved c, _) => .refused (.reservedEncoding c)
  | some (.notCmo, _) => .refused .hostInstruction
  | none => .refused .hostInstruction

/-- What is left of an instruction goes on. -/
def State.resume (s : State) (p : Pending) : State :=
  match p with
  | .zero base offsets => s.zeroGroup base offsets
  | .flushInvalidate pa => s.finishFlush pa

/-- A step of the executing hart: the rest of the instruction in progress, or the instruction at `pc`. -/
def hartStep (s : State) : Out :=
  match s.hart.pending with
  | some p => .next (s.resume p)
  | none => s.checked s.executeTriggers fun _ => s.checked s.fetch fun bs => s.runBytes bs

/-! ### Placing an instruction -/

/-- A byte of memory replaced at a physical address, and in every copy of its block. -/
def State.placeAt (s : State) (pa : Nat) (v : Byte) : State :=
  { s with
    mem := s.mem.write pa v
    cache := s.cache.map (fun p =>
      if p.1.block = s.blockBase pa then (p.1, { p.2 with data := patch p.2.data (pa - s.blockBase pa) [v] }) else p) }

/-- One byte placed where the fetch of the byte at offset `k` from `pc` reads, if that fetch has an address. -/
def State.placeByte (s : State) (k : Nat) (v : Byte) : State :=
  match s.fetchAddr (s.cfg.trunc (s.hart.pc + BitVec.ofNat 64 k)) with
  | .pass pa => s.placeAt pa v
  | .raise _ => s
  | .refuse _ => s

/-- An instruction word placed from outside the machine where the hart fetches next (log entry 6): nothing is
scheduled or in progress before it, no execute trigger fires on it, and the fetch sees the new bytes as after a `FENCE.I`. -/
def State.placeWord (s : State) (w : InstrWord) : State :=
  let h :=
    { s.hart with
      pending := none
      csr := { s.hart.csr with triggers := s.hart.csr.triggers.filter (fun t => !t.firesOnExecute s.hart.pc) } }
  let ready := { s with hart := h, schedule := [], fetchLog := .fenceI s.self :: s.fetchLog }
  (((ready.placeByte 0 (byteOfWord w 0)).placeByte 1 (byteOfWord w 1)).placeByte 2 (byteOfWord w 2)).placeByte 3 (byteOfWord w 3)

end Sys2Proof.Machine
end

