-- ==== Sys2Proof/Machine/Access.lean ====
section
/-!
DEFINITION. Loads and stores: by an observer at a physical address (spec rules R62, R92, R107 to R109), and by the executing
hart at an effective address, through translation (rule R10). The checks of the latter are the host's: log entry 33 (PRESUMED).
-/

namespace Sys2Proof.Machine

/-! ### By an observer at a physical address -/

/-- The state of the hart with a number, if it is one. -/
def State.hartOf (s : State) (o : ObserverId) : Option Hart :=
  if o = s.self then some s.hart else (s.others.find? (fun p => p.1 == o)).map Prod.snd

/-- The observer is not inside a CMO instruction: a hart's own loads and stores come between its instructions (rules R99, R112,
R209). -/
def State.between (s : State) (o : ObserverId) : Bool := (s.hartOf o).all (fun h => h.pending.isNone)

/-- The access is one that the observer can make now: it has bytes, and `o` is an observer of each of them (rule R62). -/
def State.accessOffered (s : State) (o : ObserverId) (pa n : Nat) : Bool :=
  n != 0 && s.between o && (List.range n).all (fun k => s.cfg.observes o (pa + k))

/-- Some byte of the access is in a range that is a device (rule R92). -/
def State.onDevice (s : State) (pa n : Nat) : Bool :=
  (List.range n).any (fun k => (s.attrs (pa + k)).any (fun a => a.kind == .device))

/-- The access that gives `t`: no step where it is not offered (log entry 9), a fault where a byte does not exist, a refusal
where one is a device's. -/
def State.access (s : State) (o : ObserverId) (pa n : Nat) (t : State) : Out :=
  if !s.accessOffered o pa n then .next s
  else if !(List.range n).all (fun k => s.exist (pa + k)) then .fault .noSuchLocation
  else if s.onDevice pa n then .refused .deviceLocation
  else .next t

/-- `Load(o, pa, n)` in one block (rule R107); what it returns is kept in `State.lastLoad`. -/
def State.observerLoad (s : State) (o : ObserverId) (pa n : Nat) : State :=
  { s with
    lastLoad := some { observer := o, base := pa, bytes := s.load o pa n }
    gmo := { observer := o, kind := .load, base := pa, size := n } :: s.gmo
    free := s.free + 1 }

/-- How many of the `n` bytes from `a` on lie in the block of `a`. -/
def State.inBlock (s : State) (a n : Nat) : Nat := min n (s.cfg.cbs - a % s.cfg.cbs)

/-- What is left of an access that crosses a block boundary is an access of its own, the next step of the schedule unless
`left` is 0 (rule R107). -/
def State.goOn (s : State) (left : Nat) (e : Event) : State := if left = 0 then s else { s with schedule := e :: s.schedule }

/-- `Load(o, pa, n)`: one load for each block it has bytes in (rule R107). -/
def State.loadEvent (s : State) (o : ObserverId) (pa n : Nat) : Out :=
  let k := s.inBlock pa n
  s.access o pa k ((s.observerLoad o pa k).goOn (n - k) (.load o (pa + k) (n - k)))

/-- A store's bytes lie in one block (rule R108). -/
def State.oneBlock (s : State) (a n : Nat) : Bool := s.inBlock a n == n

/-- `Store(o, pa, n, v)`, offered where its bytes lie in one block (rule R108). -/
def State.storeEvent (s : State) (o : ObserverId) (pa : Nat) (v : List Byte) : Out :=
  if s.oneBlock pa v.length then s.access o pa v.length (s.observerStore o pa v) else .next s

/-! ### By the executing hart at an effective address (rule R10) -/

/-- The host's two kinds of access. -/
inductive AccessKind where
  | load
  | store
  deriving DecidableEq, Repr

/-- The access fault, the page fault and the guest-page fault of an access (rule R170). -/
def AccessKind.accessFault : AccessKind → Cause
  | .load => .loadAccessFault
  | .store => .storeAmoAccessFault
def AccessKind.pageFault : AccessKind → Cause
  | .load => .loadPageFault
  | .store => .storeAmoPageFault
def AccessKind.guestPageFault : AccessKind → Cause
  | .load => .loadGuestPageFault
  | .store => .storeAmoGuestPageFault

/-- `MXR` makes executable pages readable to loads: `mstatus.MXR` in every mode, `vsstatus.MXR` too in VS and VU (rule R27). -/
def mxrOf (c : HostCsrs) (m : Mode) : Bool := c.mstatus.mxr || (m.virt && c.vsstatus.mxr)

/-- The first stage allows the access. -/
def AccessKind.firstOk (k : AccessKind) (c : HostCsrs) (m : Mode) (p : Pte) : Bool :=
  match k with
  | .load => p.v && (p.r || (mxrOf c m && p.x)) && uOk c p m
  | .store => s1OkW c p m

/-- The G-stage allows the access. -/
def AccessKind.gOk (k : AccessKind) (c : HostCsrs) (p : Pte) : Bool :=
  match k with
  | .load => p.v && (p.r || (c.mstatus.mxr && p.x)) && p.u
  | .store => gOkW p

/-- The PMP and the PMAs allow the access to a byte. -/
def AccessKind.jointOk (k : AccessKind) (s : State) (m : Mode) (pa : Nat) : Bool :=
  match k with
  | .load => s.jointR m pa
  | .store => s.jointW m pa

/-- The physical address of an access of the executing hart to `n` bytes of one block, or its exception, with the effective
address as trap value. -/
def State.hostTarget (s : State) (k : AccessKind) (va : Word) (n : Nat) : Check Nat :=
  let m := s.effMode
  let fault (c : Cause) (gpa : Nat) : Check Nat := .raise { cause := c, tval := va, gpa := gpa }
  match translateVa s.hart.csr va.toNat m with
  | .walkAccessFault => fault k.accessFault 0
  | .walkGuestPageFault gpa => fault k.guestPageFault gpa
  | .mapped s1 g gpa pa =>
    if !s1.all (k.firstOk s.hart.csr m) then fault k.pageFault 0
    else if !g.all (k.gOk s.hart.csr) then fault k.guestPageFault gpa
    else if !(List.range n).all (fun j => k.jointOk s m (pa + j)) then fault k.accessFault 0
    else .pass pa

/-- What the two have in common: the checks of the bytes in the first block, then the access to them, which gives `go pa k` for
`k` bytes at physical address `pa`. Of no bytes it is no step and meets no check (DESIGN CHOICE, log entry 9). -/
def State.hostAccess (s : State) (kind : AccessKind) (va : Word) (n : Nat) (go : Nat → Nat → State) : Out :=
  let k := s.inBlock va.toNat n
  if n = 0 then .next s else s.checked (s.hostTarget kind va k) fun pa => s.access s.self pa k (go pa k)

/-- `MemRead(addr, n)`: a load by the executing hart through translation and the caches (rule R10), one load for each block it
has bytes in (rule R107; log entry 39). Bytes past effective address `2 ^ XLEN - 1` go on at 0; the spec states wrap-around for `pc`
alone (DESIGN CHOICE, log entry 39). -/
def State.memRead (s : State) (addr : Word) (n : Nat) : Out :=
  let va := s.cfg.trunc addr
  s.hostAccess .load va n fun pa k =>
    (s.observerLoad s.self pa k).goOn (n - k) (.memRead (va + BitVec.ofNat 64 k) (n - k))

/-- `MemWrite(addr, n, v)`: a store by the executing hart through translation and the caches (rule R10), one store for each block
it has bytes in, since a store's bytes lie in one block (rule R108). An exception on a later block leaves what was stored to the
earlier ones, and bytes past effective address `2 ^ XLEN - 1` go on at 0 (DESIGN CHOICE, log entry 39). -/
def State.memWrite (s : State) (addr : Word) (v : List Byte) : Out :=
  let va := s.cfg.trunc addr
  s.hostAccess .store va v.length fun pa k =>
    (s.observerStore s.self pa (v.take k)).goOn (v.length - k) (.memWrite (va + BitVec.ofNat 64 k) (v.drop k))

end Sys2Proof.Machine
end

