-- ==== Sys2Proof/Machine/Events.lean ====
section
/-!
DEFINITION. The steps of the other agents and of the host's instructions (spec rules R20, R39, R104 to R109, R207, R238).
An event that its rule does not offer in a state is no step: the state stays as it is (log entry 9).
-/

namespace Sys2Proof.Machine

/-! ### Harts -/

/-- Hart `h` becomes the executing hart, and the one that was is parked in its place (rule R20). -/
def State.switchTo (s : State) (h : ObserverId) : State :=
  match s.others.find? (fun p => p.1 == h) with
  | none => s
  | some (_, hart) =>
    { s with
      self := h
      hart := hart
      others := s.others.map (fun p => if p.1 == h then (s.self, s.hart) else p) }

/-- A host instruction of the executing hart: it comes between instructions (rule R209), never inside one. -/
def State.byHost (s : State) (t : State) : State := if s.hart.pending.isSome then s else t

/-- The same for a host instruction with other outcomes than a next state. -/
def State.byHostOut (s : State) (t : Out) : Out := if s.hart.pending.isSome then .next s else t

/-- The hart replaced. -/
def State.withHart (s : State) (h : Hart) : State := { s with hart := h }

/-! ### Control registers (rules R38, R39, R239) -/

/-- A CSR instruction that reaches one of the four registers and reads it. -/
def State.csrRead (s : State) (num : BitVec 12) (rd : RegNum) : State :=
  match cmoRegOf s.cfg s.hart.mode num with
  | none => s
  | some r => s.writeX rd (s.hart.cmo.get r)

/-- A CSR instruction that reaches one of the four registers and writes it; the write takes effect at once (rule R239). -/
def State.csrWrite (s : State) (num : BitVec 12) (v : Word) : State :=
  match cmoRegOf s.cfg s.hart.mode num with
  | none => s
  | some r => s.withHart { s.hart with cmo := s.hart.cmo.set r (legalise (r.shape s.cfg) v) }

/-- An address an instruction can lie at (rule R22). -/
def Config.aligned (c : Config) (a : Word) : Bool := a.toNat % c.ialign == 0 && c.trunc a == a

/-- Register contents of one trap level that the hart can hold. -/
def TrapRegs.legal (c : Config) (t : TrapRegs) : Bool :=
  Config.aligned c t.epc && c.trunc t.cause == t.cause && c.trunc t.tval == t.tval && c.trunc t.tvec == t.tvec

/-- Values of the host's control registers that a hart of this configuration can hold (rules R21, R22, R25, R40). -/
def HostCsrs.legal (c : Config) (h : HostCsrs) : Bool :=
  h.mtrap.legal c && h.strap.legal c && h.vstrap.legal c &&
    c.trunc h.mtval2 == h.mtval2 && c.trunc h.htval == h.htval &&
    c.trunc h.mtinst == h.mtinst && c.trunc h.htinst == h.htinst &&
    (modeOf c h.mstatus.mpp h.mstatus.mpv).present c

/-! ### Attributes (rule R238) -/

/-- Some copy is held of a block whose attributes the new regions change. -/
def State.changesUnderCopy (s : State) (rs : List Region) : Bool :=
  s.cache.any (fun p =>
    (s.block p.1.block).any (fun a => !({ s with regions := rs }.attrs a == s.attrs a)))

/-! ### Events -/

/-- One step of an agent. Four points that the spec leaves to the host are the model's choice (DESIGN CHOICE): new contents
of the host's control registers, page tables and PMP among them, are seen by the next instruction with no `SFENCE.VMA` or
`HFENCE` between (rule R239; log entry 33); attributes that the platform does not fix may change at any time, whatever the mode
(rule R43; log entry 14); an address that no region holds does not exist (rule R92; log entry 32); and a hart holds one
reservation at most, a new one in place of the old (rule R47; log entry 10). -/
def runEvent (e : Event) (s : State) : Out :=
  match e with
  | .hart => hartStep s
  | .switch h => .next (s.switchTo h)
  | .fill o pa => .next (s.fill o pa)
  | .drop o pa => .next (s.drop o pa)
  | .writeBack o pa => .next (s.writeBack o pa)
  | .load o pa n => s.loadEvent o pa n
  | .store o pa v => s.storeEvent o pa v
  | .memRead addr n => s.byHostOut (s.memRead addr n)
  | .memWrite addr v => s.byHostOut (s.memWrite addr v)
  | .fence pr pw sr sw => .next (s.byHost (s.record s.self (.fence pr pw sr sw) 0 0))
  | .fenceI => .next (s.byHost { s with fetchLog := .fenceI s.self :: s.fetchLog })
  | .writeX rd v => .next (s.byHost (s.writeX rd v))
  | .jump t => .next (s.byHost (if Config.aligned s.cfg t then s.withHart { s.hart with pc := t } else s))
  | .csrRead num rd => .next (s.byHost (s.csrRead num rd))
  | .csrWrite num v => .next (s.byHost (s.csrWrite num v))
  | .hostCsrs c => .next (s.byHost (if c.legal s.cfg then s.withHart { s.hart with csr := c } else s))
  | .mret => .next (s.byHost (if mretAllowed s.hart.mode then s.withHart (mretHart s.cfg s.hart) else s))
  | .sret =>
    .next (s.byHost (match sretResult s.cfg s.hart with
      | none => s
      | some h => s.withHart h))
  | .reserve pa n =>
    .next (s.byHost { s with
      reservations := { hart := s.self, base := pa, size := n } :: s.reservations.filter (fun r => r.hart != s.self) })
  | .unreserve => .next (s.byHost { s with reservations := s.reservations.filter (fun r => r.hart != s.self) })
  | .regions rs =>
    if s.cfg.attrsFixed then .next s
    else if s.changesUnderCopy rs then .refused .attributesChangedUnderCopy
    else .next { s with regions := rs }

end Sys2Proof.Machine
end

