-- ==== Sys2Proof/Machine/Step.lean ====
section
/-!
DEFINITION. One step of the machine: the agent that `State.schedule` names next, or the executing hart where it names
none (spec rules R20, R49, R102); and the state with an instruction word placed where the hart fetches its next one.
-/

namespace Sys2Proof.Machine

/-- One step. -/
def step (s : State) : Host.Outcome State Fault Refusal :=
  match s.schedule with
  | [] => hartStep s
  | e :: rest => runEvent e { s with schedule := rest }

/-- The state whose very next step runs the instruction with bits `w` (log entry 6). -/
def State.withFetchWord (s : State) (nbits w : Nat) : State := s.placeWord (BitVec.ofNat 32 (w % 2 ^ nbits))

end Sys2Proof.Machine
end

