-- ==== Sys2Proof/Machine/Assembly.lean ====
section
/-!
DEFINITION. Assembly language (spec rules R21, R133): the spellings of an instruction. Mnemonics are case-insensitive;
the spellings here are in lower case (the level by its own capitals).
-/

namespace Sys2Proof.Machine

/-- The assembler names of `x0` to `x31`, in order (rule R21). -/
def abiNames : List String :=
  ["zero", "ra", "sp", "gp", "tp", "t0", "t1", "t2"] ++
  ["s0", "s1", "a0", "a1", "a2", "a3", "a4", "a5"] ++
  ["a6", "a7", "s2", "s3", "s4", "s5", "s6", "s7"] ++
  ["s8", "s9", "s10", "s11", "t3", "t4", "t5", "t6"]

/-- The names of a register: its `x` name and its assembler name; `x8` is also `fp` (rules R21, R133). -/
def regNames (r : RegNum) : List String :=
  ["x" ++ toString r.val, abiNames.getD r.val ""] ++ (if r.val = 8 then ["fp"] else [])

/-- What may follow the register of a hint instruction: its level, or nothing for `default` (rule R133). -/
def levelSuffixes : Level → List String
  | .default => [", default", ""]
  | .L1 => [", L1"]
  | .L2 => [", L2"]
  | .L3 => [", L3"]

/-- The spellings of an instruction (rule R133). -/
def spellings : Instr → List String
  | .cboInval r => (regNames r).map ("cbo.inval " ++ ·)
  | .cboClean r => (regNames r).map ("cbo.clean " ++ ·)
  | .cboFlush r => (regNames r).map ("cbo.flush " ++ ·)
  | .cboZero r => (regNames r).map ("cbo.zero " ++ ·)
  | .prefetchR r l => (regNames r).flatMap fun n => (levelSuffixes l).map fun t => "prefetch.r " ++ n ++ t
  | .prefetchW r l => (regNames r).flatMap fun n => (levelSuffixes l).map fun t => "prefetch.w " ++ n ++ t
  | .prefetchI r l => (regNames r).flatMap fun n => (levelSuffixes l).map fun t => "prefetch.i " ++ n ++ t

end Sys2Proof.Machine
end

