-- ==== Sys2Proof/Machine/Ordering.lean ====
section
/-!
DEFINITION. Memory ordering (spec rules R95 to R101, R114). `State.gmo` is the global memory order that this
interleaving machine realises (rule R102), the newest element first; what follows says which pairs of elements the rules
keep in program order. The dependency rules of RVWMO (rule R96, 9 to 13) need the host's registers and are not stated.
-/

namespace Sys2Proof.Machine

/-- Invalidate, clean and flush operations (rule R99). -/
def MemKind.isManagement : MemKind → Bool
  | .invalidate => true
  | .clean => true
  | .flush => true
  | .load => false
  | .store => false
  | .fence _ _ _ _ => false

/-- What stands as a store in the preserved program order rules: a store, and a management operation (rule R99). -/
def MemKind.storeLike (k : MemKind) : Bool := k == .store || k.isManagement

/-- The two elements access a byte in common. -/
def MemOp.overlaps (a b : MemOp) : Bool := overlap a.base a.size b.base b.size

/-- Rule R96 (1): the later one is a store and both access overlapping addresses. -/
def ppoOverlappingStore (a b : MemOp) : Bool := a.observer == b.observer && b.kind.storeLike && a.overlaps b

/-- Rule R99: a management operation before a load of overlapping addresses. -/
def ppoManagementLoad (a b : MemOp) : Bool :=
  a.observer == b.observer && a.kind.isManagement && b.kind == .load && a.overlaps b

/-- Whether an element is in a set of a `FENCE`, given by its `R` and `W` bits (rule R114). -/
def MemKind.inFenceSet (k : MemKind) (r w : Bool) : Bool := (r && k == .load) || (w && k.storeLike)

/-- Rule R96 (4) with rule R114: a `FENCE` of the same hart orders `a` before `b`. -/
def ppoFence (a f b : MemOp) : Bool :=
  match f.kind with
  | .fence pr pw sr sw =>
    a.observer == f.observer && f.observer == b.observer && a.kind.inFenceSet pr pw && b.kind.inFenceSet sr sw
  | .load => false
  | .store => false
  | .invalidate => false
  | .clean => false
  | .flush => false

/-- `a` comes before `b` in a global memory order that lists the newest element first. -/
def precedes (gmo : List MemOp) (a b : MemOp) : Prop := ∃ newest between oldest, gmo = newest ++ b :: between ++ a :: oldest

end Sys2Proof.Machine
end

