-- ==== Sys2Proof/Safety.lean ====
section
/-!
DEFINITION. The terms claims use: the states a reset may leave, the invariant of the machine, what completing and
trapping leave unchanged, safe runs, and the fairness of write-backs.
-/

namespace Sys2Proof.Machine

/-! ### After reset -/

/-- What a reset may leave of one hart (rules R48, R231): M-mode with `V = 0`, `mstatus.MPRV = 0`, `pc` at the reset vector,
the four control registers within their legal sets, so their reserved bits 0, no instruction in progress; everything else
unspecified. -/
structure Hart.AfterReset (c : Config) (h : Hart) : Prop where
  mode    : h.mode = .M
  mprv    : h.csr.mstatus.mprv = false
  pc      : h.pc = c.resetVector
  legalM  : legalise c.warlM h.cmo.mcmocontrol = h.cmo.mcmocontrol
  legalS  : legalise c.warlS h.cmo.scmocontrol = h.cmo.scmocontrol
  legalH  : legalise c.warlH h.cmo.hcmocontrol = h.cmo.hcmocontrol
  legalVs : legalise c.warlVs h.cmo.vscmocontrol = h.cmo.vscmocontrol
  idle    : h.pending = none

/-- The states a reset may leave (rules R20, R48, R231): every hart, the executing one and each other, is as a reset may leave
it; memory, caches and everything else are unspecified. -/
structure State.AfterReset (s : State) : Prop where
  hart   : Hart.AfterReset s.cfg s.hart
  others : ∀ p ∈ s.others, Hart.AfterReset s.cfg p.2

/-! ### The invariant -/

/-- The cache is in its canonical form. -/
def cacheSorted (c : CacheMap) : Bool := mapSorted CacheKey.lt c

/-- A cached block is aligned, holds `CBS` bytes, and is in a set that has a cache (rules R44, R64, R109). -/
def State.lineOk (s : State) (p : CacheKey × Line) : Bool :=
  p.1.block % s.cfg.cbs == 0 && p.2.data.length == s.cfg.cbs && s.setCached p.1.set

/-- Each control register holds a value of its legal set, so every reserved bit is 0 (rules R37, R38). -/
def CmoCsrs.legal (c : Config) (r : CmoCsrs) : Bool :=
  legalise c.warlM r.mcmocontrol == r.mcmocontrol && legalise c.warlS r.scmocontrol == r.scmocontrol &&
    legalise c.warlH r.hcmocontrol == r.hcmocontrol && legalise c.warlVs r.vscmocontrol == r.vscmocontrol

/-- An instruction in progress is one that can be: byte offsets of one aligned block are left to store to (rule R152). -/
def pendingOk (c : Config) : Option Pending → Bool
  | none => true
  | some (.flushInvalidate _) => true
  | some (.zero base offsets) => base % c.cbs == 0 && offsets.all (fun k => decide (k < c.cbs)) && !offsets.isEmpty

/-- What holds of every hart: its mode is one it has, `pc` is aligned, and every register holds a value it can hold. -/
structure Hart.Ok (c : Config) (h : Hart) : Prop where
  mode    : h.mode.present c = true
  pc      : Config.aligned c h.pc = true
  x       : ∀ i : RegNum, c.trunc h.x[i] = h.x[i]
  cmo     : h.cmo.legal c = true
  csr     : h.csr.legal c = true
  pending : pendingOk c h.pending = true

/-- The harts that the state holds: the executing one and the others. -/
def State.hartIds (s : State) : List ObserverId := s.self :: s.others.map Prod.fst

/-- THE INVARIANT of the machine. The harts of the state are those of the configuration, each once (rule R20). -/
structure State.Inv (s : State) : Prop where
  cfg     : s.cfg.wellFormed = true
  mem     : s.mem.wf = true
  sorted  : cacheSorted s.cache = true
  lines   : s.cache.all s.lineOk = true
  hart    : Hart.Ok s.cfg s.hart
  others  : ∀ p ∈ s.others, Hart.Ok s.cfg p.2
  harts   : s.hartIds.Perm s.cfg.hartIds

/-! ### Frames -/

/-- What no CMO instruction changes, whether it completes, is in progress or takes an exception. -/
structure Untouched (s t : State) : Prop where
  cfg      : t.cfg = s.cfg
  self     : t.self = s.self
  others   : t.others = s.others
  regions  : t.regions = s.regions
  lastLoad : t.lastLoad = s.lastLoad
  schedule : t.schedule = s.schedule
  x        : t.hart.x = s.hart.x
  cmo      : t.hart.cmo = s.hart.cmo

/-- A CMO instruction has completed: `pc` is 4 further, no register of any kind has changed, and no reservation is new. -/
structure Completed (s t : State) : Prop where
  frame        : Untouched s t
  hart         : t.hart = { s.hart with pc := s.cfg.trunc (s.hart.pc + 4#64), pending := none }
  reservations : ∀ r ∈ t.reservations, r ∈ s.reservations

/-- Memory and caches are as they were, and so is everything a CMO operation records or chooses. -/
structure SameMemory (s t : State) : Prop where
  mem       : t.mem = s.mem
  cache     : t.cache = s.cache
  gmo       : t.gmo = s.gmo
  zeroPlan  : t.zeroPlan = s.zeroPlan
  hintFills : t.hintFills = s.hintFills
  fetchLog  : t.fetchLog = s.fetchLog

/-- No other block is touched: the copies under every other key, and every byte of memory outside the block of `pa`. -/
structure OtherBlocksSame (s t : State) (pa : Nat) : Prop where
  lines : ∀ k : CacheKey, k ≠ s.keyOf s.self pa → mapGet k t.cache = mapGet k s.cache
  mem   : ∀ a, a ∉ s.block pa → t.mem.read a = s.mem.read a

/-- A CMO instruction has begun and is not complete: `pc` is still at it, and no register of any kind has changed. -/
structure InProgress (s t : State) : Prop where
  frame        : Untouched s t
  hart         : ∃ p, t.hart = { s.hart with pending := some p }
  reservations : ∀ r ∈ t.reservations, r ∈ s.reservations

/-! ### When an instruction executes -/

/-- A management instruction passes every test (rule R141): it is not forbidden in the current mode, no trigger stops
it, and `CheckAddr` returns `r`. -/
structure MayManage (s : State) (i : Instr) (k : OpClass) (r : Checked) : Prop where
  legal    : illegalMgmt s.hart.cmo s.hart.mode = false
  triggers : s.accessTriggers .mgmt (s.effAddr i.rs1) = .pass ()
  address  : s.checkAddr k (s.effAddr i.rs1) = .pass r

/-- `CBO.ZERO` passes every test (rule R150). -/
structure MayZero (s : State) (rs1 : RegNum) (r : Checked) : Prop where
  legal    : illegalWrite s.hart.cmo s.hart.mode = false
  triggers : s.accessTriggers .write (s.effAddr rs1) = .pass ()
  address  : s.checkAddr .write (s.effAddr rs1) = .pass r

/-- Both stages allow a hint instruction its access to the effective address `va`, which they map to `pa` (rules R84 to R87,
R180): each leaf is valid and readable or executable; the first stage's page is a user page in U and VU, and in S and VS no user
page unless `SUM` is set; a G-stage page is a user page. -/
def StagesPass (s : State) (va : Word) (pa : Nat) : Prop :=
  ∃ s1 g gpa, translateVa s.hart.csr va.toNat s.effMode = .mapped s1 g gpa pa ∧
    (∀ p, s1 = some p → p.v = true ∧ (p.r = true ∨ p.x = true) ∧
      match s.effMode with
      | .M => True
      | .U => p.u = true
      | .VU => p.u = true
      | .S => p.u = false ∨ s.hart.csr.mstatus.sum = true
      | .VS => p.u = false ∨ s.hart.csr.vsstatus.sum = true) ∧
    ∀ p, g = some p → p.v = true ∧ (p.r = true ∨ p.x = true) ∧ p.u = true

/-- Every byte of the block may be read or executed (rules R88, R89, R193). -/
def BlockPermitted (s : State) (pa : Nat) : Prop :=
  ∀ a ∈ s.block pa, s.jointR s.effMode a = true ∨ s.jointX s.effMode a = true

/-- The exceptions of rule R202's table, by instruction. -/
def raises (c : Config) (i : Instr) (e : Cause) : Bool :=
  if i.isHint then c.hintIsLoadStore && e == .breakpoint
  else
    e == .illegalInstruction || e == .breakpoint || e == .storeAmoPageFault || e == .storeAmoGuestPageFault ||
      e == .storeAmoAccessFault

/-! ### Two runs that differ in one thing -/

/-- The next state of an outcome changed. -/
def mapNext (f : State → State) : Out → Out
  | .next s => .next (f s)
  | .fault r => .fault r
  | .refused r => .refused r

/-- `mstatus.MXR` and `vsstatus.MXR` set to the given values. -/
def State.setMxr (s : State) (m vs : Bool) : State :=
  s.withHart { s.hart with
    csr := { s.hart.csr with
      mstatus := { s.hart.csr.mstatus with mxr := m }, vsstatus := { s.hart.csr.vsstatus with mxr := vs } } }

/-- The four control registers set to the given values. -/
def State.setCmo (s : State) (c : CmoCsrs) : State := s.withHart { s.hart with cmo := c }

/-! ### Runs -/

/-- A run of `k` steps that stops in no fault. -/
def Safe (k : Nat) (s : State) : Prop := ∀ f, Sys2Proof.core.run k s ≠ .fault f

/-- The hart's part of an instruction in progress, `k` times at most, with no other agent between. -/
def resumeTimes : Nat → State → State
  | 0, s => s
  | k + 1, s =>
    match s.hart.pending with
    | none => s
    | some p => resumeTimes k (s.resume p)

/-- A fair run (rules R71, R106): a copy that is held dirty is at some later time held dirty no more. -/
def FairRun (run : Nat → State) : Prop :=
  ∀ n key, (∃ l, mapGet key (run n).cache = some l ∧ l.dirty = true) →
    ∃ m, n ≤ m ∧ ∀ l, mapGet key (run m).cache = some l → l.dirty = false

end Sys2Proof.Machine
end

