-- ==== Sys2Proof/Certificates/Slice0/Obligations.lean ====
section
/-!
DEFINITION. The statements for the provers. Each docstring names the rules of the spec it is about. A free value and a
field of the model's own (`schedule`, `zeroPlan`, `hintFills`, `free`) may hold anything: every statement is about all of them.
-/

open Sys2Proof Sys2Proof.Machine

/-! ### Encoding and decoding -/

/-- Rules R120 to R123, R129: words written out from the field table, the first of them with each register bit. -/
def Obligations.ListedWordsDecodeAsListed : Prop :=
  decode 0b0000000_00000_01010_010_00000_0001111#32 = .instr (.cboInval 10) ∧
  decode 0b0000001_00000_01010_010_00000_0001111#32 = .instr (.cboClean 10) ∧
  decode 0b0000010_00000_01010_010_00000_0001111#32 = .instr (.cboFlush 10) ∧
  decode 0b0000100_00000_01010_010_00000_0001111#32 = .instr (.cboZero 10) ∧
  decode 0b0000100_00000_11111_010_00000_0001111#32 = .instr (.cboZero 31) ∧
  decode 0b0000011_00000_00000_010_00000_0001111#32 = .reserved .caseD ∧
  decode 0b0010001_00000_01010_010_00000_0001111#32 = .reserved .caseC ∧
  decode 0b0000000_00001_00000_010_00000_0001111#32 = .reserved .caseB ∧
  decode 0b0000001_00001_01010_010_00001_0001111#32 = .reserved .caseA ∧
  decode 0b0000111_11111_00000_000_00000_0001111#32 = .notCmo

/-- Rules R121, R122, R128, R132: every well-formed instruction, the hints of any `PrefetchDecode` among them, is what its
word decodes to. -/
def Obligations.DecodeOfEncodeIsTheInstruction : Prop :=
  ∀ (c : Config) (i : Instr) (w : InstrWord), c.wellFormed = true →
    encode c.prefetchDecode i = some w → decodeWith c.prefetchDecode w = .instr i

/-- Rules R122, R132: a word that decodes to an instruction is that instruction's word: each word has one meaning and each
encoded instruction one word. -/
def Obligations.EncodeOfDecodeIsTheWord : Prop :=
  ∀ (w : InstrWord) (i : Instr), decode w = .instr i → i.isHint = false ∧ encode [] i = some w

/-- Rule R123: a word is the instruction of a row when `w & mask == match`, and the word for register `r` is `match | (r <<
15)`. -/
def Obligations.MatchAndMaskOfEachRow : Prop :=
  ∀ (w : InstrWord) (r : RegNum),
    ((∃ q, decode w = .instr (.cboInval q)) ↔ w &&& 0xFFF07FFF#32 = 0x0000200F#32) ∧
    ((∃ q, decode w = .instr (.cboClean q)) ↔ w &&& 0xFFF07FFF#32 = 0x0200200F#32) ∧
    ((∃ q, decode w = .instr (.cboFlush q)) ↔ w &&& 0xFFF07FFF#32 = 0x0400200F#32) ∧
    ((∃ q, decode w = .instr (.cboZero q)) ↔ w &&& 0xFFF07FFF#32 = 0x0800200F#32) ∧
    encode [] (.cboInval r) = some (0x0000200F#32 ||| BitVec.ofNat 32 r.val <<< 15) ∧
    encode [] (.cboClean r) = some (0x0200200F#32 ||| BitVec.ofNat 32 r.val <<< 15) ∧
    encode [] (.cboFlush r) = some (0x0400200F#32 ||| BitVec.ofNat 32 r.val <<< 15) ∧
    encode [] (.cboZero r) = some (0x0800200F#32 ||| BitVec.ofNat 32 r.val <<< 15)

/-- Rules R129, R132: the reserved encodings, the letter being the first that holds; the hart refuses such a word unless
`PrefetchDecode` names it. A hart that has fetched such a word refuses it with its letter, unless PrefetchDecode names the
word (the refusal is decision D7, log entry 25). -/
def Obligations.ReservedEncodingsAreRefused : Prop :=
  ∀ (w : InstrWord), opcodeOf w = 0b0001111#7 → funct3Of w = 0b010#3 →
    (rdOf w ≠ 0#5 → decode w = .reserved .caseA) ∧
    (rdOf w = 0#5 → rs2Of w ≠ 0#5 → decode w = .reserved .caseB) ∧
    (rdOf w = 0#5 → rs2Of w = 0#5 → xxxOf w ≠ 0#3 → decode w = .reserved .caseC) ∧
    (rdOf w = 0#5 → rs2Of w = 0#5 → xxxOf w = 0#3 →
      yyyyOf w ∉ [0b0000#4, 0b0001#4, 0b0010#4, 0b0100#4] → decode w = .reserved .caseD) ∧
    ∀ (s : State) (c : ReservedCase), decode w = .reserved c → prefetchRowOf s.cfg.prefetchDecode w = none →
      s.runBytes (bytesOfWord w) = .refused (.reservedEncoding c)

/-- Rules R93, R131: an instruction word is decoded from its four bytes, the least significant at the lowest address. The byte
order is decision D2 (log entry 37). -/
def Obligations.WordsAreDecodedLittleEndian : Prop :=
  ∀ (rows : List PrefetchRow) (w : InstrWord) (rest : List Byte), isWordSized (byteOfWord w 0) = true →
    bytesOfWord w = [w.extractLsb' 0 8, w.extractLsb' 8 8, w.extractLsb' 16 8, w.extractLsb' 24 8] ∧
    decodeBytes rows (bytesOfWord w ++ rest) = some (decodeWith rows w, rest)

/-! ### One step -/

/-- Rules R20, R112, R132, R152, R200: where the hart is the agent that moves, it goes on with an instruction in progress and
fetches nothing; and where none is in progress, no execute trigger fires and the bytes fetched decode to an instruction, the
step is that instruction's. What `step` adds is taking the agent off the schedule; moving past the word is `exec`'s. -/
def Obligations.StepRunsTheDecodedInstruction : Prop :=
  ∀ (s : State), s.schedule = [] ∨ s.schedule.head? = some .hart →
    let u : State := { s with schedule := s.schedule.tail }
    (∀ p, u.hart.pending = some p → step s = .next (u.resume p)) ∧
    ∀ (i : Instr) (bs rest : List Byte), u.hart.pending = none → u.executeTriggers = .pass () → u.fetch = .pass bs →
      decodeBytes u.cfg.prefetchDecode bs = some (.instr i, rest) → step s = exec i u

/-- Rules R22, R93, R116: in M-mode, with `pc` aligned, the fetch gives the word that lies at `pc` in memory, where every byte
of it may be executed and its fetch is defined. The fetch's checks are the model's (log entry 7). -/
def Obligations.MachineModeFetchReadsTheWordAtPc : Prop :=
  ∀ (s : State) (w : InstrWord),
    let at_ (k : Nat) : Nat := (s.cfg.trunc (s.hart.pc + BitVec.ofNat 64 k)).toNat
    s.hart.mode = .M → s.hart.pc.toNat % s.cfg.ialign = 0 → isWordSized (byteOfWord w 0) = true →
    (∀ k < 4, s.jointX .M (at_ k) = true ∧ s.fetchDefined (at_ k) = true ∧ s.mem.read (at_ k) = byteOfWord w k) →
    s.fetch = .pass (bytesOfWord w)

/-! ### Registers -/

/-- Rule R21: register 0 reads 0 and a write to it is discarded; every other register holds the `XLEN` bits last written to
it, and a write to one leaves the others. -/
def Obligations.RegistersHoldWhatWasWritten : Prop :=
  ∀ (s : State) (i j : RegNum) (v : Word),
    s.readX 0 = 0#64 ∧ s.writeX 0 v = s ∧
    (i ≠ 0 → (s.writeX i v).readX i = s.cfg.trunc v) ∧
    (j ≠ i → (s.writeX i v).readX j = s.readX j)

/-- Rules R21, R23, R207: whatever a CMO instruction does, in its first step and in each further step of one in progress, it
writes no general register and no CMO control register, and changes nothing of the other harts, the attributes or the agents to
come. That an exception is taken, and leaves these registers, is decision D20 (log entry 11). -/
def Obligations.CmoInstructionsWriteNoRegister : Prop :=
  ∀ (s : State),
    (∀ i t, exec i s = .next t → Untouched s t) ∧
    ∀ p, Untouched s (s.resume p) ∧ (Completed s (s.resume p) ∨ InProgress s (s.resume p))

/-- Rules R64, R94: the low `log2(CBS)` bits of the effective address have no effect on what a CMO instruction does: in every mode,
two registers that name one block give one outcome, where no trigger stops either (a trigger compares the address as given) and, for
a management or write instruction, the checks pass; where they do not, both raise the same exception, each with its own address as
trap value, or both are refused. The trap value (rule R201) is decision D18 (log entry 34, PRESUMED), the refusal decision D32 (log
entry 26), that a block lies in one page decision D30 (log entry 38), and that the checks are of all the bytes of the block decisions
D15 and D17 (log entry 36). -/
def Obligations.LowAddressBitsHaveNoEffect : Prop :=
  ∀ (s : State) (a b : RegNum),
    s.blockBase (s.effAddr a).toNat = s.blockBase (s.effAddr b).toNat →
    (s.accessTriggers .mgmt (s.effAddr b) = .pass () →
      (∀ q, MayManage s (.cboInval a) .inval q → exec (.cboInval a) s = exec (.cboInval b) s) ∧
      (∀ q, MayManage s (.cboClean a) .mgmt q → exec (.cboClean a) s = exec (.cboClean b) s) ∧
      (∀ q, MayManage s (.cboFlush a) .mgmt q → exec (.cboFlush a) s = exec (.cboFlush b) s)) ∧
    (s.accessTriggers .write (s.effAddr b) = .pass () →
      ∀ q, MayZero s a q → exec (.cboZero a) s = exec (.cboZero b) s) ∧
    (s.accessTriggers (.hint s.cfg) (s.effAddr a) = .pass () → s.accessTriggers (.hint s.cfg) (s.effAddr b) = .pass () →
      ∀ l, exec (.prefetchR a l) s = exec (.prefetchR b l) s ∧ exec (.prefetchW a l) s = exec (.prefetchW b l) s ∧
        exec (.prefetchI a l) s = exec (.prefetchI b l) s) ∧
    ∀ k, (∀ e, s.checkAddr k (s.effAddr a) = .raise e →
        ∃ e', s.checkAddr k (s.effAddr b) = .raise e' ∧ e'.cause = e.cause ∧ e'.tval = s.effAddr b) ∧
      ∀ r, s.checkAddr k (s.effAddr a) = .refuse r → s.checkAddr k (s.effAddr b) = .refuse r

/-! ### Control registers and modes -/

/-- Rules R37 to R39: a CSR write that reaches a register leaves it holding `(v & WMask) | Fixed` with every reserved bit 0, and
changes nothing else of the state; a CSR read gives the value held to `x[rd]` and changes nothing else. The shape and the
reserved bits are decisions D9 and D10 (log entry 23). -/
def Obligations.ControlRegisterWriteIsWarl : Prop :=
  ∀ (s : State) (num : BitVec 12) (v : Word) (rd : RegNum) (r : CmoReg), s.hart.pending = none →
    cmoRegOf s.cfg s.hart.mode num = some r → (r.shape s.cfg).wellFormed = true →
    let held : Word := ((v.setWidth 12 &&& (r.shape s.cfg).wmask) ||| (r.shape s.cfg).fixed).setWidth 64
    (∃ cmo, runEvent (.csrWrite num v) s = .next (s.withHart { s.hart with cmo := cmo }) ∧ cmo.get r = held ∧
      (∀ b, b ∉ [0, 1, 8, 9, 10, 11] → held.getLsbD b = false) ∧ ∀ q, q ≠ r → cmo.get q = s.hart.cmo.get q) ∧
    runEvent (.csrRead num rd) s = .next (s.writeX rd (s.hart.cmo.get r))

/-- Rules R39, R40: which of the four registers a CSR access reaches, by mode: a present one, under its own number, from M-mode
each, from HS-mode all but `mcmocontrol`, from VS-mode `vscmocontrol` alone, under the number of `scmocontrol` and with
`VsRedirect`. Presence and access are decisions D11 and D12; which of two registers with one number is reached is the model's
choice (log entry 24). -/
def Obligations.ControlRegisterAccessByMode : Prop :=
  ∀ (c : Config) (m : Mode) (num : BitVec 12),
    let number : CmoReg → BitVec 12 := fun r =>
      match r with
      | .m => c.csrM
      | .s => c.csrS
      | .h => c.csrH
      | .vs => c.csrVs
    (∀ r, cmoRegOf c m num = some r → r.present c = true ∧
      ((m = .M ∧ num = number r) ∨ (m = .S ∧ r ≠ .m ∧ num = number r) ∨
        (m = .VS ∧ c.vsRedirect = true ∧ num = c.csrS ∧ r = .vs))) ∧
    cmoRegOf c .M c.csrM = some .m ∧
    (c.hasS = true → c.csrS ≠ c.csrM → cmoRegOf c .M c.csrS = some .s) ∧
    (c.hasH = true → c.csrH ∉ [c.csrM, c.csrS] → cmoRegOf c .M c.csrH = some .h) ∧
    (c.hasH = true → c.csrVs ∉ [c.csrM, c.csrS, c.csrH] → cmoRegOf c .M c.csrVs = some .vs) ∧
    (c.hasS = true → cmoRegOf c .S c.csrS = some .s) ∧
    (c.hasH = true → c.csrH ≠ c.csrS → cmoRegOf c .S c.csrH = some .h) ∧
    (c.hasH = true → c.csrVs ≠ c.csrS → c.csrVs ≠ c.csrH → cmoRegOf c .S c.csrVs = some .vs) ∧
    (c.hasH = true → c.vsRedirect = true → cmoRegOf c .VS c.csrS = some .vs)

/-- Rule R173: when a management instruction takes an illegal instruction exception; otherwise it goes on to its operation. -/
def Obligations.ManagementIllegalInstructionByMode : Prop :=
  ∀ (s : State) (i : Instr) (rs1 : RegNum), i = .cboInval rs1 ∨ i = .cboClean rs1 ∨ i = .cboFlush rs1 →
    let enabled (r : Word) : Prop := r.getLsbD 0 = true
    let c := s.hart.cmo
    let forbidden : Prop :=
      match s.hart.mode with
      | .M => False
      | .S => ¬enabled c.mcmocontrol
      | .U => ¬enabled c.mcmocontrol ∨ ¬enabled c.scmocontrol
      | .VS => ¬enabled c.mcmocontrol ∨ ¬enabled c.hcmocontrol
      | .VU => ¬enabled c.mcmocontrol ∨ ¬enabled c.hcmocontrol ∨ ¬enabled c.vscmocontrol
    (forbidden → exec i s = .next (s.trap (s.illegal i)) ∧ (s.illegal i).cause = .illegalInstruction) ∧
    (¬forbidden → ∀ k q, k = (if i = .cboInval rs1 then OpClass.inval else OpClass.mgmt) →
      s.accessTriggers .mgmt (s.effAddr rs1) = .pass () → s.checkAddr k (s.effAddr rs1) = .pass q →
      ∃ t, exec i s = .next t ∧ (Completed s t ∨ InProgress s t))

/-- Rule R174: when a write instruction takes an illegal instruction exception; otherwise it goes on to its stores. -/
def Obligations.WriteIllegalInstructionByMode : Prop :=
  ∀ (s : State) (rs1 : RegNum),
    let enabled (r : Word) : Prop := r.getLsbD 1 = true
    let c := s.hart.cmo
    let forbidden : Prop :=
      match s.hart.mode with
      | .M => False
      | .S => ¬enabled c.mcmocontrol
      | .U => ¬enabled c.mcmocontrol ∨ ¬enabled c.scmocontrol
      | .VS => ¬enabled c.mcmocontrol ∨ ¬enabled c.hcmocontrol
      | .VU => ¬enabled c.mcmocontrol ∨ ¬enabled c.hcmocontrol ∨ ¬enabled c.vscmocontrol
    (forbidden → exec (.cboZero rs1) s = .next (s.trap (s.illegal (.cboZero rs1))) ∧
      (s.illegal (.cboZero rs1)).cause = .illegalInstruction) ∧
    (¬forbidden → ∀ q, s.accessTriggers .write (s.effAddr rs1) = .pass () →
      s.checkAddr .write (s.effAddr rs1) = .pass q →
      ∃ t, exec (.cboZero rs1) s = .next t ∧ (Completed s t ∨ InProgress s t))

/-- Rule R201: the trap value of an illegal instruction exception is the instruction word, zero-extended, or zero. It is
decision D18 (log entry 34). -/
def Obligations.IllegalInstructionTrapValue : Prop :=
  ∀ (s : State) (i : Instr) (w : InstrWord), encode s.cfg.prefetchDecode i = some w →
    (s.illegal i).tval = if s.cfg.illegalTvalIsWord then w.setWidth 64 else 0#64

/-- Rule R26: the effective privilege mode, whose three bits act in M-mode with `MPRV` set only. The algorithm is decision
D14. -/
def Obligations.EffectivePrivilegeModeByMprv : Prop :=
  ∀ (s : State),
    (s.hart.mode ≠ .M ∨ s.hart.csr.mstatus.mprv = false → s.effMode = s.hart.mode) ∧
    (s.hart.mode = .M → s.hart.csr.mstatus.mprv = true →
      (s.hart.csr.mstatus.mpp = .m → s.effMode = .M) ∧
      (s.hart.csr.mstatus.mpp = .s → s.effMode =
        if s.cfg.hasH = true ∧ s.hart.csr.mstatus.mpv = true then .VS else .S) ∧
      (s.hart.csr.mstatus.mpp = .u → s.effMode =
        if s.cfg.hasH = true ∧ s.hart.csr.mstatus.mpv = true then .VU else .U))

/-- Rule R184: the traps that the control registers make a `CBO.INVAL` take, by effective mode, where it passes every test of
a management instruction. `e` is the `INVWxE` value of a register; a page table that is `Bare` makes its alternative true. That
the `Wx` of `mcmocontrol` is `W1` where one byte is jointly writable, its mechanism always enabled, and the trap value are the
spec's own (D15, D16, D18; log entries 34, 36). -/
def Obligations.InvalTrapsByEffectiveMode : Prop :=
  ∀ (s : State) (rs1 : RegNum) (s1 g : Option Pte) (gpa pa : Nat),
    let va := s.effAddr rs1
    let e (r : Word) (w1 : Bool) : Bool := if w1 then r.getLsbD 11 else r.getLsbD 9
    let c := s.hart.cmo
    let m := e c.mcmocontrol (s.anyJointW s.effMode pa)
    let su := e c.scmocontrol (stageW s1) || s.hart.csr.satp.bare
    let h := e c.hcmocontrol (stageW g) || s.hart.csr.hgatp.bare
    let vu := e c.vscmocontrol (stageW s1) || s.hart.csr.vsatp.bare
    let pageFault := exec (.cboInval rs1) s = .next (s.trap { cause := .storeAmoPageFault, tval := va, gpa := 0 })
    let guestPageFault := exec (.cboInval rs1) s = .next (s.trap { cause := .storeAmoGuestPageFault, tval := va, gpa := gpa })
    let accessFault := exec (.cboInval rs1) s = .next (s.trap { cause := .storeAmoAccessFault, tval := va, gpa := 0 })
    let goesOn := ∃ t, exec (.cboInval rs1) s = .next t ∧ (Completed s t ∨ InProgress s t)
    illegalMgmt c s.hart.mode = false → s.accessTriggers .mgmt va = .pass () →
    translateVa s.hart.csr va.toNat s.effMode = .mapped s1 g gpa pa →
    s.firstStageOk .mgmt s.effMode s1 = true → s.gStageOk .mgmt g = true → s.pmaConstraintsMet pa = true →
    s.allJointRX s.effMode pa = true →
    match s.effMode with
    | .M => goesOn
    | .S => (m = false → accessFault) ∧ (m = true → goesOn)
    | .U => (su = false → pageFault) ∧ (su = true → m = false → accessFault) ∧ (su = true → m = true → goesOn)
    | .VS => (h = false → guestPageFault) ∧ (h = true → m = false → accessFault) ∧ (h = true → m = true → goesOn)
    | .VU => (vu = false → pageFault) ∧ (vu = true → h = false → guestPageFault) ∧
        (vu = true → h = true → m = false → accessFault) ∧ (vu = true → h = true → m = true → goesOn)

/-- Rules R187, R188: the operation a `CBO.INVAL` performs, by effective mode. `v` is the `INVWxI` value of a register: the
bit that `Wx` selects if its mechanism is enabled, the AND of both if it is not. That the `Wx` of `mcmocontrol` is `W1` where one
byte is jointly writable and its mechanism always enabled are the spec's own (D15, D16; log entry 36). -/
def Obligations.InvalOperationByEffectiveMode : Prop :=
  ∀ (s : State) (rs1 : RegNum) (q : Checked), MayManage s (.cboInval rs1) .inval q →
    let v (r : Word) (enabled w1 : Bool) : Bool :=
      if enabled then (if w1 then r.getLsbD 10 else r.getLsbD 8) else r.getLsbD 8 && r.getLsbD 10
    let c := s.hart.cmo
    let m := v c.mcmocontrol true (s.anyJointW s.effMode q.pa)
    let su := v c.scmocontrol (!s.hart.csr.satp.bare) (stageW q.s1)
    let h := v c.hcmocontrol (!s.hart.csr.hgatp.bare) (stageW q.g)
    let vu := v c.vscmocontrol (!s.hart.csr.vsatp.bare) (stageW q.s1)
    let invalidates : Bool :=
      match s.effMode with
      | .M => true
      | .S => m
      | .U => su && m
      | .VS => h && m
      | .VU => vu && h && m
    exec (.cboInval rs1) s = .next (if invalidates then s.doInvalidate q.pa else s.doFlush q.pa)

/-- Rules R41, R184, R185, R188, R210: which control registers play a part, by effective mode: none in M; `mcmocontrol` in S,
with `scmocontrol` in U, with `hcmocontrol` in VS, with `hcmocontrol` and `vscmocontrol` in VU. The others may hold anything.
-/
def Obligations.OnlyGoverningRegistersMatter : Prop :=
  ∀ (i : Instr) (s : State) (c : CmoCsrs),
    let d := s.hart.cmo
    (match s.effMode with
      | .M => True
      | .S => c.mcmocontrol = d.mcmocontrol
      | .U => c.mcmocontrol = d.mcmocontrol ∧ c.scmocontrol = d.scmocontrol
      | .VS => c.mcmocontrol = d.mcmocontrol ∧ c.hcmocontrol = d.hcmocontrol
      | .VU => c.mcmocontrol = d.mcmocontrol ∧ c.hcmocontrol = d.hcmocontrol ∧ c.vscmocontrol = d.vscmocontrol) →
    exec i (s.setCmo c) = mapNext (fun t => t.setCmo c) (exec i s)

/-- Rule R172: a hint instruction never takes an illegal instruction exception (the source's words), and no field of any control
register has any effect on it: the rule's second sentence, "so no field of any `xcmocontrol` register has any effect on a hint
instruction", which the spec marks as derived from rules R30 to R36. -/
def Obligations.HintsIgnoreControlRegisters : Prop :=
  ∀ (i : Instr) (s : State) (c : CmoCsrs), i.isHint = true →
    exec i (s.setCmo c) = mapNext (fun t => t.setCmo c) (exec i s) ∧
    ∀ t, exec i s = .next t → Completed s t ∨ ∃ e, e.cause ≠ .illegalInstruction ∧ t = s.trap e

/-- Rule R181: the `MXR` bits do not affect the execution of CMO instructions. -/
def Obligations.MxrHasNoEffect : Prop :=
  ∀ (i : Instr) (s : State) (m vs : Bool),
    exec i (s.setMxr m vs) = mapNext (fun t => t.setMxr m vs) (exec i s)

/-! ### Address checks -/

/-- Rules R84, R85, R86, R177, R179, R190, R201: the exceptions of a management instruction that its address gives rise to, in
order, and its going on where there is none. A `CBO.INVAL` (`inval`) has them all where the control registers' tests, `INVWxE`
by rule R184, are passed as far as they come before (`firstE`, `gE`), and goes on where all of them are. The order, the U rule,
the trap value and the bytes accessed are the spec's own (D30, D34, D18, D15 to D17). -/
def Obligations.ManagementAddressChecks : Prop :=
  ∀ (s : State) (i : Instr) (rs1 : RegNum) (g : Option Pte) (gpa pa : Nat),
    let va := s.effAddr rs1
    let m := s.effMode
    let user (p : Pte) : Prop :=
      match m with
      | .M => True
      | .U => p.u = true
      | .VU => p.u = true
      | .S => p.u = false ∨ s.hart.csr.mstatus.sum = true
      | .VS => p.u = false ∨ s.hart.csr.vsstatus.sum = true
    let allowed (p : Pte) : Prop := p.v = true ∧ (p.r = true ∨ p.x = true) ∧ user p
    let gAllowed (p : Pte) : Prop := p.v = true ∧ (p.r = true ∨ p.x = true) ∧ p.u = true
    let c := s.hart.cmo
    let inval : Prop := i = .cboInval rs1
    let e (r : Word) (w1 : Bool) : Prop := (if w1 then r.getLsbD 11 else r.getLsbD 9) = true
    let firstE (p : Pte) : Prop :=
      match m with
      | .M => True
      | .U => e c.scmocontrol p.w
      | .VU => e c.vscmocontrol p.w
      | .S => True
      | .VS => True
    let gE (p : Pte) : Prop := e c.hcmocontrol p.w
    let jointE : Prop := m = .M ∨ e c.mcmocontrol (s.anyJointW m pa)
    i = .cboInval rs1 ∨ i = .cboClean rs1 ∨ i = .cboFlush rs1 →
    illegalMgmt s.hart.cmo s.hart.mode = false → s.accessTriggers .mgmt va = .pass () →
    (translateVa s.hart.csr va.toNat m = .walkAccessFault →
      exec i s = .next (s.trap { cause := .storeAmoAccessFault, tval := va, gpa := 0 })) ∧
    (translateVa s.hart.csr va.toNat m = .walkGuestPageFault gpa →
      exec i s = .next (s.trap { cause := .storeAmoGuestPageFault, tval := va, gpa := gpa })) ∧
    (∀ p, translateVa s.hart.csr va.toNat m = .mapped (some p) g gpa pa → ¬allowed p →
      exec i s = .next (s.trap { cause := .storeAmoPageFault, tval := va, gpa := 0 })) ∧
    (∀ s1, translateVa s.hart.csr va.toNat m = .mapped s1 g gpa pa →
      (∀ p, s1 = some p → allowed p ∧ (inval → firstE p)) →
      (∀ p, g = some p → ¬gAllowed p →
        exec i s = .next (s.trap { cause := .storeAmoGuestPageFault, tval := va, gpa := gpa })) ∧
      ((∀ p, g = some p → gAllowed p ∧ (inval → gE p)) → s.pmaConstraintsMet pa = true →
        ((∃ a ∈ s.block pa, s.jointR m a = false ∧ s.jointX m a = false) →
          exec i s = .next (s.trap { cause := .storeAmoAccessFault, tval := va, gpa := 0 })) ∧
        ((∀ a ∈ s.block pa, s.jointR m a = true ∨ s.jointX m a = true) → (inval → jointE) →
          ∃ t, exec i s = .next t ∧ (Completed s t ∨ InProgress s t))))

/-- Rules R84, R85, R178, R179, R191, R201: the exceptions of `CBO.ZERO` that its address gives rise to, in order, and its
going on to the stores where there is none: write permission at every stage, and for every byte of the block. The order, the U
rule and the trap value are decisions D30, D34 and D18 (log entry 34). -/
def Obligations.WriteAddressChecks : Prop :=
  ∀ (s : State) (rs1 : RegNum) (g : Option Pte) (gpa pa : Nat),
    let va := s.effAddr rs1
    let m := s.effMode
    let i := Instr.cboZero rs1
    let user (p : Pte) : Prop :=
      match m with
      | .M => True
      | .U => p.u = true
      | .VU => p.u = true
      | .S => p.u = false ∨ s.hart.csr.mstatus.sum = true
      | .VS => p.u = false ∨ s.hart.csr.vsstatus.sum = true
    let allowed (p : Pte) : Prop := p.v = true ∧ p.w = true ∧ user p
    let gAllowed (p : Pte) : Prop := p.v = true ∧ p.w = true ∧ p.u = true
    illegalWrite s.hart.cmo s.hart.mode = false → s.accessTriggers .write va = .pass () →
    (translateVa s.hart.csr va.toNat m = .walkAccessFault →
      exec i s = .next (s.trap { cause := .storeAmoAccessFault, tval := va, gpa := 0 })) ∧
    (translateVa s.hart.csr va.toNat m = .walkGuestPageFault gpa →
      exec i s = .next (s.trap { cause := .storeAmoGuestPageFault, tval := va, gpa := gpa })) ∧
    (∀ p, translateVa s.hart.csr va.toNat m = .mapped (some p) g gpa pa → ¬allowed p →
      exec i s = .next (s.trap { cause := .storeAmoPageFault, tval := va, gpa := 0 })) ∧
    (∀ s1, translateVa s.hart.csr va.toNat m = .mapped s1 g gpa pa → (∀ p, s1 = some p → allowed p) →
      (∀ p, g = some p → ¬gAllowed p →
        exec i s = .next (s.trap { cause := .storeAmoGuestPageFault, tval := va, gpa := gpa })) ∧
      ((∀ p, g = some p → gAllowed p) → s.pmaConstraintsMet pa = true →
        ((∃ a ∈ s.block pa, s.jointW m a = false) →
          exec i s = .next (s.trap { cause := .storeAmoAccessFault, tval := va, gpa := 0 })) ∧
        ((∀ a ∈ s.block pa, s.jointW m a = true) →
          ∃ t, exec i s = .next t ∧ (Completed s t ∨ InProgress s t))))

/-- Rules R90, R199: a CMO instruction that its own enable bits do not forbid (a hint has none) and whose address passes both stages
is refused where its block does not meet the PMA constraints: the behaviour is UNSPECIFIED. UNSPECIFIED becomes a refusal by decision D32 (log entry 26). -/
def Obligations.PmaConstraintsUnmetIsRefused : Prop :=
  ∀ (s : State) (k : OpClass) (i : Instr) (rs1 : RegNum) (s1 g : Option Pte) (gpa pa : Nat),
    (k = .inval ∧ i = .cboInval rs1) ∨ (k = .mgmt ∧ i = .cboClean rs1) ∨ (k = .mgmt ∧ i = .cboFlush rs1) ∨
      (k = .write ∧ i = .cboZero rs1) ∨ (k = .mgmt ∧ i.isHint = true ∧ i.rs1 = rs1) →
    (k ≠ .write → i.isHint = false → illegalMgmt s.hart.cmo s.hart.mode = false) →
    (k = .write → illegalWrite s.hart.cmo s.hart.mode = false) →
    s.hart.csr.triggers = [] →
    translateVa s.hart.csr (s.effAddr rs1).toNat s.effMode = .mapped s1 g gpa pa →
    s.firstStageOk k s.effMode s1 = true → s.gStageOk k g = true →
    (∃ a ∈ s.block pa, s.attrs a ≠ s.attrs pa) ∨ (∃ a, s.attrs pa = some a ∧ a.perm.w = true ∧ a.perm.r = false) →
    exec i s = .refused .pmaConstraint

/-- Rules R192, R202, R203, R175, R189: the exceptions each instruction can take, the address misaligned and virtual
instruction ones not among them; an exception leaves memory and caches as they were, and any other next state is the
instruction done or in progress. The table is rule R202, derived by the spec; that a trap changes no memory is decision D26, and
that a hint takes no exception but breakpoint decision D22. -/
def Obligations.ExceptionsOfEachInstruction : Prop :=
  ∀ (i : Instr) (s t : State), exec i s = .next t →
    Completed s t ∨ InProgress s t ∨
    ∃ e, t = s.trap e ∧ raises s.cfg i e.cause = true ∧ SameMemory s t ∧
      e.cause ≠ .storeAmoAddrMisaligned ∧ e.cause ≠ .loadAddrMisaligned ∧ e.cause ≠ .instrAddrMisaligned ∧
      e.cause ≠ .virtualInstruction

/-! ### Triggers -/

/-- Rules R194 to R198: one armed trigger. It matches an address exactly or as one of its NAPOT range, the effective address
being compared as given. Of type 6 and matching, it fires on a management instruction if it is set for loads or stores, on
`CBO.ZERO` if for stores, on a hint as `HintIsLoadStore` says; not matching, it fires on none. Armed for load or store addresses of
type 2, or for data, it makes every CMO instruction that executes one without a meaning. `CBME` is asked of a management instruction
alone, `CBWE` of `CBO.ZERO` alone, neither of a hint nor of an execute trigger. Set for execution, it stops the
instruction at `pc` before it is fetched exactly where it matches `pc`. The shape of a trigger is the model's (log entry 20). -/
def Obligations.TriggersOnCmoInstructions : Prop :=
  ∀ (s : State) (tr : Trigger) (i : Instr), s.hart.csr.triggers = [tr] → tr.armed = true → tr.action = .breakpoint →
    let legal : Prop :=
      match i with
      | .cboInval _ => illegalMgmt s.hart.cmo s.hart.mode = false
      | .cboClean _ => illegalMgmt s.hart.cmo s.hart.mode = false
      | .cboFlush _ => illegalMgmt s.hart.cmo s.hart.mode = false
      | .cboZero _ => illegalWrite s.hart.cmo s.hart.mode = false
      | .prefetchR _ _ => True
      | .prefetchW _ _ => True
      | .prefetchI _ _ => True
    let va := s.effAddr i.rs1
    let hit (a : Word) : Prop :=
      match tr.compare with
      | .exact => tr.addr = a
      | .napot k => tr.addr.toNat / 2 ^ k = a.toNat / 2 ^ k
    let stops := ∃ e, e.cause = .breakpoint ∧ exec i s = .next (s.trap e)
    (tr.ttype = .mcontrol6 → tr.data = false → hit va →
      (∀ rs1, i = .cboInval rs1 ∨ i = .cboClean rs1 ∨ i = .cboFlush rs1 → legal → tr.load = true ∨ tr.store = true → stops) ∧
      (∀ rs1, i = .cboZero rs1 → (legal → tr.store = true → stops) ∧ (tr.store = false → s.accessTriggers .write va = .pass ())) ∧
      (i.isHint = true → tr.load = true ∨ tr.store = true →
        (s.cfg.hintIsLoadStore = true → stops) ∧
        (s.cfg.hintIsLoadStore = false → s.accessTriggers (.hint s.cfg) va = .pass ()))) ∧
    (tr.ttype = .mcontrol6 → tr.data = false → ¬hit va → ∀ k, s.accessTriggers k va = .pass ()) ∧
    (tr.ttype = .mcontrol ∨ tr.data = true → tr.load = true ∨ tr.store = true → legal →
      exec i s = .refused .unspecifiedTrigger) ∧
    (tr.execute = true → tr.data = false → hit s.hart.pc → s.hart.pending = none →
      ∃ e, e.cause = .breakpoint ∧ hartStep s = .next (s.trap e)) ∧
    (tr.execute = false ∨ ¬hit s.hart.pc → s.executeTriggers = .pass ())

/-! ### Traps and returns -/

/-- Rules R201, R203, R206: a trap to M-mode sets exactly these registers and nothing else, with `pc` at the handler. A
guest-page fault records the guest physical address; what it leaves in `mtinst` is a free value, and other traps leave
`mtval2` and `mtinst` as they are (log entries 2, 8). It rests on general knowledge (decision D20, log entries 8 and 11). -/
def Obligations.TrapToMachineMode : Prop :=
  ∀ (s : State) (e : Exc), trapTarget s.cfg s.hart.mode s.hart.csr e.cause = .m →
    let h := s.hart
    let guest := e.cause.code = 20 ∨ e.cause.code = 21 ∨ e.cause.code = 23
    SameMemory s (s.trap e) ∧ ∃ gpa inst,
      (guest → gpa = s.cfg.trunc (BitVec.ofNat 64 (e.gpa / 4))) ∧
      (¬guest → gpa = h.csr.mtval2 ∧ inst = h.csr.mtinst) ∧
      (s.trap e).hart =
        { h with
          mode := .M
          pc := s.cfg.trunc (h.csr.mtrap.tvec &&& ~~~3#64)
          csr := { h.csr with
            mtrap :=
              { epc := h.pc, cause := BitVec.ofNat 64 e.cause.code, tval := e.tval, tvec := h.csr.mtrap.tvec }
            mtval2 := gpa
            mtinst := inst
            mstatus :=
              { h.csr.mstatus with
                mpp := h.mode.level, mpv := h.mode.virt, mpie := h.csr.mstatus.mie, mie := false } } }

/-- Rules R201, R203, R206: the same for a trap to HS-mode, with the `s` registers and `hstatus.SPV` (log entries 2, 8). It
rests on general knowledge (decision D20, log entries 8 and 11). -/
def Obligations.TrapToSupervisorMode : Prop :=
  ∀ (s : State) (e : Exc), trapTarget s.cfg s.hart.mode s.hart.csr e.cause = .s →
    let h := s.hart
    let guest := e.cause.code = 20 ∨ e.cause.code = 21 ∨ e.cause.code = 23
    SameMemory s (s.trap e) ∧ ∃ gpa inst,
      (guest → gpa = s.cfg.trunc (BitVec.ofNat 64 (e.gpa / 4))) ∧
      (¬guest → gpa = h.csr.htval ∧ inst = h.csr.htinst) ∧
      (s.trap e).hart =
        { h with
          mode := .S
          pc := s.cfg.trunc (h.csr.strap.tvec &&& ~~~3#64)
          csr := { h.csr with
            strap :=
              { epc := h.pc, cause := BitVec.ofNat 64 e.cause.code, tval := e.tval, tvec := h.csr.strap.tvec }
            htval := gpa
            htinst := inst
            spv := h.mode.virt
            mstatus :=
              { h.csr.mstatus with
                spp := decide (h.mode.level = .s), spie := h.csr.mstatus.sie, sie := false } } }

/-- Rules R201, R203, R206: the same for a trap to VS-mode, with the `vs` copies of the registers. It rests on general
knowledge (decision D20, log entry 11). -/
def Obligations.TrapToVirtualSupervisorMode : Prop :=
  ∀ (s : State) (e : Exc), trapTarget s.cfg s.hart.mode s.hart.csr e.cause = .vs →
    let h := s.hart
    SameMemory s (s.trap e) ∧
      (s.trap e).hart =
        { h with
          mode := .VS
          pc := s.cfg.trunc (h.csr.vstrap.tvec &&& ~~~3#64)
          csr := { h.csr with
            vstrap :=
              { epc := h.pc, cause := BitVec.ofNat 64 e.cause.code, tval := e.tval, tvec := h.csr.vstrap.tvec }
            vsstatus :=
              { h.csr.vsstatus with
                spp := decide (h.mode.level = .s), spie := h.csr.vsstatus.sie, sie := false } } }

/-- Rule R208: where an exception goes. Guest-page faults never go to VS-mode. It rests on general knowledge (decision D20,
log entry 11). -/
def Obligations.DelegationOfExceptions : Prop :=
  ∀ (c : Config) (m : Mode) (csr : HostCsrs) (e : Cause),
    let med := csr.medeleg.getLsbD e.code
    let hed := csr.hedeleg.getLsbD e.code
    let guest := e.code = 20 ∨ e.code = 21 ∨ e.code = 23
    (m = .M ∨ c.hasS = false ∨ med = false → trapTarget c m csr e = .m) ∧
    (m ≠ .M → c.hasS = true → med = true →
      ((m = .VS ∨ m = .VU) ∧ hed = true ∧ ¬guest → trapTarget c m csr e = .vs) ∧
      (m = .S ∨ m = .U ∨ hed = false ∨ guest → trapTarget c m csr e = .s))

/-- Rule R207: what `MRET` does, in M-mode: these registers and nothing else. It rests on general knowledge (decision D20);
that MPV is left is log entry 8. -/
def Obligations.MretRestores : Prop :=
  ∀ (s : State), s.hart.pending = none → s.hart.mode = .M →
    let h := s.hart
    let st := h.csr.mstatus
    let back : Mode :=
      match st.mpp with
      | .m => .M
      | .s => if s.cfg.hasH = true ∧ st.mpv = true then .VS else .S
      | .u => if s.cfg.hasH = true ∧ st.mpv = true then .VU else .U
    runEvent .mret s = .next (s.withHart
      { h with
        mode := back
        pc := s.cfg.trunc h.csr.mtrap.epc
        csr := { h.csr with
          mstatus :=
            { st with
              mie := st.mpie
              mpie := true
              mpp := if s.cfg.hasU = true then .u else .m
              mprv := if back = .M then st.mprv else false } } })

/-- Rule R207: what `SRET` does, in HS-mode, in M-mode where there is S-mode, and, with the `vs` copies, in VS-mode: these registers
and nothing else; elsewhere it is no step (log entry 9). It rests on general knowledge (decision D20, log entry 41). That
`hstatus.SPV` is left as it is, is the model's reading (log entry 8). -/
def Obligations.SretRestores : Prop :=
  ∀ (s : State), s.hart.pending = none →
    let h := s.hart
    (h.mode = .S ∨ (h.mode = .M ∧ s.cfg.hasS = true) → runEvent .sret s = .next (s.withHart
      { h with
        mode :=
          if s.cfg.hasH = true ∧ h.csr.spv = true then (if h.csr.mstatus.spp then .VS else .VU)
          else (if h.csr.mstatus.spp then .S else .U)
        pc := s.cfg.trunc h.csr.strap.epc
        csr := { h.csr with
          mstatus := { h.csr.mstatus with sie := h.csr.mstatus.spie, spie := true, spp := false, mprv := false } } })) ∧
    (h.mode = .VS → runEvent .sret s = .next (s.withHart
      { h with
        mode := if h.csr.vsstatus.spp then .VS else .VU
        pc := s.cfg.trunc h.csr.vstrap.epc
        csr := { h.csr with
          mstatus := { h.csr.mstatus with mprv := false }
          vsstatus := { h.csr.vsstatus with sie := h.csr.vsstatus.spie, spie := true, spp := false } } })) ∧
    ((h.mode = .M ∧ s.cfg.hasS = false) ∨ h.mode = .U ∨ h.mode = .VU → runEvent .sret s = .next s)

/-- Rules R206, R207: the executing hart's mode changes by an exception, by a return, and by no other step of an agent: a CMO
instruction that completes leaves it. It rests on general knowledge (decision D20, log entries 11 and 41). -/
def Obligations.OnlyTrapsAndReturnsChangeMode : Prop :=
  ∀ (e : Event) (s t : State), runEvent e s = .next t → t.self = s.self → s.others.all (fun p => p.1 != s.self) = true →
    t.hart.mode ≠ s.hart.mode → e = .mret ∨ e = .sret ∨
      ((e = .hart ∨ (∃ addr n, e = .memRead addr n) ∨ ∃ addr v, e = .memWrite addr v) ∧ ∃ x, t = s.trap x)

/-! ### The cache machine -/

/-- Rules R77, R104, R105, R109: Fill, on a block that is absent or clean, in a set of observers of the location that has a cache;
and Drop, on a clean copy only. They are steps of the spec's machine (decision D23). The model's choices are that no Fill is
offered at an address that no region holds (log entry 32) and that a move that is not offered leaves the state as it is (log
entry 9). -/
def Obligations.FillAndDropOfCleanCopies : Prop :=
  ∀ (s : State) (o : ObserverId) (pa : Nat),
    let offered := s.setCached (s.cset o pa) = true ∧ s.cfg.observes o pa = true ∧ s.attrs pa ≠ none ∧ ∀ l, s.line o pa = some l → l.dirty = false
    (offered → ∃ t l, runEvent (.fill o pa) s = .next t ∧ t.line o pa = some l ∧ l.dirty = false ∧
      l.data.length = s.cfg.cbs ∧ (∀ k < s.cfg.cbs, l.data.getD k 0#8 = s.mem.read (s.blockBase pa + k)) ∧
      t.mem = s.mem ∧ t.hart = s.hart ∧ ∀ key, key ≠ s.keyOf o pa → mapGet key t.cache = mapGet key s.cache) ∧
    (¬offered → runEvent (.fill o pa) s = .next s) ∧
    (∀ l, s.line o pa = some l → l.dirty = false →
      ∃ t, runEvent (.drop o pa) s = .next t ∧ t.line o pa = none ∧ t.mem = s.mem ∧ t.hart = s.hart ∧
        ∀ key, key ≠ s.keyOf o pa → mapGet key t.cache = mapGet key s.cache) ∧
    ((s.line o pa = none ∨ ∃ l, s.line o pa = some l ∧ l.dirty = true) → runEvent (.drop o pa) s = .next s)

/-- Rules R47, R98, R115: load reservations: a hart reserves bytes, in place of what it had reserved, and gives its reservation
up; a store by another observer to a reserved byte takes the reservation away, and no other store does; no step of a CMO
instruction makes one, and whether one survives it is open. That a store takes it away is deduced from the Atomicity Axiom, and that a hart holds one
at most is the model's choice (log entry 10). -/
def Obligations.LoadReservations : Prop :=
  ∀ (s : State) (o : ObserverId) (pa n : Nat) (v : List Byte),
    (s.hart.pending = none →
      (∃ t, runEvent (.reserve pa n) s = .next t ∧ t.hart = s.hart ∧ SameMemory s t ∧
        ∀ r, r ∈ t.reservations ↔ r = { hart := s.self, base := pa, size := n } ∨ (r ∈ s.reservations ∧ r.hart ≠ s.self)) ∧
      ∃ t, runEvent .unreserve s = .next t ∧ t.hart = s.hart ∧ SameMemory s t ∧
        ∀ r, r ∈ t.reservations ↔ r ∈ s.reservations ∧ r.hart ≠ s.self) ∧
    (∀ t, runEvent (.store o pa v) s = .next t → t ≠ s →
      ∀ r, r ∈ t.reservations ↔ r ∈ s.reservations ∧
        (r.hart = o ∨ ∀ a, r.base ≤ a ∧ a < r.base + r.size → ¬(pa ≤ a ∧ a < pa + v.length))) ∧
    (∀ i t, exec i s = .next t → ∀ r ∈ t.reservations, r ∈ s.reservations) ∧
    ∀ p, ∀ r ∈ (s.resume p).reservations, r ∈ s.reservations

/-- Rules R71, R106: WriteBack writes a dirty copy to memory, whole, and holds it clean; it is not offered on a clean or
absent block. It is a step of the spec's machine (decision D23); that one not offered leaves the state as it is is log entry 9. -/
def Obligations.WriteBackWritesDirtyCopies : Prop :=
  ∀ (s : State) (o : ObserverId) (pa : Nat),
    (∀ l, s.line o pa = some l → l.dirty = true → l.data.length = s.cfg.cbs →
      ∃ t, runEvent (.writeBack o pa) s = .next t ∧ t.line o pa = some { l with dirty := false } ∧ t.hart = s.hart ∧
        (∀ k < s.cfg.cbs, t.mem.read (s.blockBase pa + k) = l.data.getD k 0#8) ∧
        (∀ a, a ∉ s.block pa → t.mem.read a = s.mem.read a) ∧
        ∀ key, key ≠ s.keyOf o pa → mapGet key t.cache = mapGet key s.cache) ∧
    ((∀ l, s.line o pa = some l → l.dirty = false) → runEvent (.writeBack o pa) s = .next s)

/-- Rules R10, R62, R92, R101, R103, R107, R209: a load by an observer of its bytes, in memory, returns the observer's view, byte by
byte, and changes no memory and no cache; with `InvalLoadValue` any (decision D25, log entry 19) it does so too, but for the value of
a byte on which the observer performed an invalidate or a flush with no store to it since in the global memory order, of all agents
(the model's choice, log entry 19); one that crosses a block boundary is a load of the bytes in the first block and then a load of the
rest, which the model puts at the head of the schedule (log entry 39). It is no step inside a CMO instruction of the
hart that loads, nor by one that is no observer of a byte; it ends in a fault where a byte does not exist and in a refusal where
one is a device's (log entries 9, 14, 32). The executing hart's `MemRead` is such a load at the translated address, one for each
block, or an exception by the host's checks (log entry 33), and of no bytes it is no step (log entry 9). It is a step of the spec's
machine (decision D23). -/
def Obligations.LoadReturnsTheView : Prop :=
  ∀ (s : State) (o : ObserverId) (pa n : Nat), 0 < n →
    let j := min n (s.cfg.cbs - pa % s.cfg.cbs)
    let may := s.between o = true ∧ ∀ k < j, s.cfg.observes o (pa + k) = true
    let covers (op : MemOp) (a : Nat) : Prop := op.base ≤ a ∧ a < op.base + op.size
    let settled (a : Nat) : Prop :=
      ∀ newer op older, s.gmo = newer ++ op :: older → covers op a → op.observer = o →
        op.kind = .invalidate ∨ op.kind = .flush → ∃ st ∈ newer, st.kind = .store ∧ covers st a
    (may → (∀ k < j, ∃ a, s.attrs (pa + k) = some a ∧ a.kind = .memory) →
      ∃ t bytes, runEvent (.load o pa n) s = .next t ∧
        t.lastLoad = some { observer := o, base := pa, bytes := bytes } ∧ bytes.length = j ∧
        (∀ k < j, s.cfg.invalLoadValue = .memory ∨ settled (pa + k) → bytes.getD k 0#8 = s.view o (pa + k)) ∧
        (∀ k, s.view o (pa + k) =
          match s.line o (pa + k) with
          | some l => l.data.getD (pa + k - s.blockBase (pa + k)) 0#8
          | none => s.mem.read (pa + k)) ∧
        t.mem = s.mem ∧ t.cache = s.cache ∧ t.hart = s.hart ∧
        t.gmo = { observer := o, kind := .load, base := pa, size := j } :: s.gmo ∧
        t.schedule = if n = j then s.schedule else .load o (pa + j) (n - j) :: s.schedule) ∧
    (¬may → runEvent (.load o pa n) s = .next s) ∧
    (may → (∃ k < j, s.attrs (pa + k) = none) → runEvent (.load o pa n) s = .fault .noSuchLocation) ∧
    (may → (∀ k < j, s.attrs (pa + k) ≠ none) → (∃ k < j, ∃ a, s.attrs (pa + k) = some a ∧ a.kind = .device) →
      runEvent (.load o pa n) s = .refused .deviceLocation) ∧
    ∀ addr : Word, s.hart.pending = none → n = j → n ≤ s.cfg.cbs - (s.cfg.trunc addr).toNat % s.cfg.cbs →
      (s.hostTarget .load (s.cfg.trunc addr) n = .pass pa → runEvent (.memRead addr n) s = runEvent (.load s.self pa n) s) ∧
      (∀ x, s.hostTarget .load (s.cfg.trunc addr) n = .raise x → runEvent (.memRead addr n) s = .next (s.trap x)) ∧
      (n = s.cfg.cbs - (s.cfg.trunc addr).toNat % s.cfg.cbs → ∀ m, 0 < m →
        (s.hostTarget .load (s.cfg.trunc addr) n = .pass pa → (∀ k < n, s.cfg.observes s.self (pa + k) = true) →
          ∀ t, runEvent (.load s.self pa n) s = .next t → runEvent (.memRead addr (n + m)) s =
            .next { t with schedule := .memRead (s.cfg.trunc addr + BitVec.ofNat 64 n) m :: t.schedule }) ∧
        ∀ x, s.hostTarget .load (s.cfg.trunc addr) n = .raise x → runEvent (.memRead addr (n + m)) s = .next (s.trap x)) ∧
      runEvent (.memRead addr 0) s = .next s

/-- Rules R10, R62, R92, R108, R209: a store by an observer of its bytes, in memory and in one block, goes to the copy of the
observer's set if there is one, which becomes dirty, and to memory if there is none. It is no step inside a CMO instruction of the
hart that stores, nor by one that is no observer of a byte (log entry 9). The executing hart's `MemWrite` is such a store at the
translated address, one for each block it has bytes in, the rest at the head of the schedule (log entry 39), or an exception by the
host's checks (log entry 33), and of no bytes it is no step (log entry 9). It is a step of the spec's machine (decision D23). -/
def Obligations.StoreGoesToTheCopyOrToMemory : Prop :=
  ∀ (s : State) (o : ObserverId) (pa : Nat) (v : List Byte), v ≠ [] →
    s.blockBase pa = s.blockBase (pa + (v.length - 1)) →
    let may := s.between o = true ∧ ∀ k < v.length, s.cfg.observes o (pa + k) = true
    (¬may → runEvent (.store o pa v) s = .next s) ∧
    (∀ addr : Word, s.hart.pending = none → v.length ≤ s.cfg.cbs - (s.cfg.trunc addr).toNat % s.cfg.cbs →
      (s.hostTarget .store (s.cfg.trunc addr) v.length = .pass pa →
        runEvent (.memWrite addr v) s = runEvent (.store s.self pa v) s) ∧
      (∀ x, s.hostTarget .store (s.cfg.trunc addr) v.length = .raise x → runEvent (.memWrite addr v) s = .next (s.trap x)) ∧
      (v.length = s.cfg.cbs - (s.cfg.trunc addr).toNat % s.cfg.cbs → ∀ rest, rest ≠ [] →
        (s.hostTarget .store (s.cfg.trunc addr) v.length = .pass pa →
          (∀ k < v.length, s.cfg.observes s.self (pa + k) = true) →
          ∀ t, runEvent (.store s.self pa v) s = .next t → runEvent (.memWrite addr (v ++ rest)) s =
            .next { t with schedule := .memWrite (s.cfg.trunc addr + BitVec.ofNat 64 v.length) rest :: t.schedule }) ∧
        ∀ x, s.hostTarget .store (s.cfg.trunc addr) v.length = .raise x →
          runEvent (.memWrite addr (v ++ rest)) s = .next (s.trap x)) ∧
      runEvent (.memWrite addr []) s = .next s) ∧
    (may → (∀ k < v.length, ∃ a, s.attrs (pa + k) = some a ∧ a.kind = .memory) →
    ∃ t, runEvent (.store o pa v) s = .next t ∧ t.hart = s.hart ∧
      (∀ key, key ≠ s.keyOf o pa → mapGet key t.cache = mapGet key s.cache) ∧
      (s.line o pa = none → t.line o pa = none ∧
        (∀ k < v.length, t.mem.read (pa + k) = v.getD k 0#8) ∧
        ∀ a, a < pa ∨ pa + v.length ≤ a → t.mem.read a = s.mem.read a) ∧
      (∀ l, s.line o pa = some l → l.data.length = s.cfg.cbs → t.mem = s.mem ∧
        ∃ l', t.line o pa = some l' ∧ l'.dirty = true ∧ l'.data.length = l.data.length ∧
          (∀ k < v.length, l'.data.getD (pa + k - s.blockBase pa) 0#8 = v.getD k 0#8) ∧
          ∀ j < l.data.length, s.blockBase pa + j < pa ∨ pa + v.length ≤ s.blockBase pa + j →
            l'.data.getD j 0#8 = l.data.getD j 0#8))

/-- Rules R109, R140: nothing an observer outside a set does changes the copies of that set: the steps of the caches and
observers, every CMO instruction of a hart that is no member, and every further step of one in progress. Rule R109 is one of the
spec's machine, which is decision D23 (log entry 27, DESIGN CHOICE). -/
def Obligations.OtherSetsKeepTheirCopies : Prop :=
  ∀ (s t : State) (key : CacheKey),
    (∀ o pa n v e, e ∈ [Event.fill o pa, .drop o pa, .writeBack o pa, .load o pa n, .store o pa v] →
      runEvent e s = .next t → key.set ≠ s.cset o pa → mapGet key t.cache = mapGet key s.cache) ∧
    (∀ i, exec i s = .next t → s.self ∉ key.set → mapGet key t.cache = mapGet key s.cache) ∧
    (∀ p, s.self ∉ key.set → mapGet key (s.resume p).cache = mapGet key s.cache)

/-- Rule R71: a copy that has not been stored to is never written to memory: where a management or a hint instruction changes a
byte of memory, the executing hart's own set held the block of that byte dirty, and memory now holds that copy's byte; where a step
of the caches does, the byte is one of the block the step names, the set that acts held that block dirty, and memory now holds that
copy's byte; and the second step of a flush that is not atomic writes no memory. The steps are those of the spec's machine (decision
D23, log entry 27), and the flush in two steps is decision D24 (log entry 18). -/
def Obligations.OnlyDirtyCopiesReachMemory : Prop :=
  ∀ (s : State), s.Inv →
    (∀ i t a, exec i s = .next t → (∀ rs1, i ≠ .cboZero rs1) → t.mem.read a ≠ s.mem.read a →
      ∃ l, s.line s.self a = some l ∧ l.dirty = true ∧ t.mem.read a = l.data.getD (a - s.blockBase a) 0#8) ∧
    (∀ o pa e t a, e ∈ [Event.fill o pa, .drop o pa, .writeBack o pa] → runEvent e s = .next t →
      t.mem.read a ≠ s.mem.read a → a ∈ s.block pa ∧
        ∃ l, s.line o pa = some l ∧ l.dirty = true ∧ t.mem.read a = l.data.getD (a - s.blockBase pa) 0#8) ∧
    ∀ pa, (s.resume (.flushInvalidate pa)).mem = s.mem

/-- Rules R62, R77: the set of an observer holds it; it is the observer alone where hardware does not enforce coherence; for one
address the sets partition the observers of the location, and the set of one holds no one that is none. -/
def Obligations.SetsOfCoherentObserversPartition : Prop :=
  ∀ (s : State) (o p : ObserverId) (pa : Nat), s.Inv →
    o ∈ s.cset o pa ∧
    ((∀ a, s.attrs pa = some a → a.coherent = false) → s.cset o pa = [o]) ∧
    (p ∈ s.cset o pa → s.cset p pa = s.cset o pa) ∧
    (s.cfg.observes o pa = true → p ∈ s.cset o pa → s.cfg.observes p pa = true)

/-! ### The instructions -/

/-- Rules R110, R142: a `CBO.INVAL` that invalidates: the block is absent, whatever it was; no byte of memory changes, so a
load by a member of the set sees memory; nothing else is touched. The machine is decision D23. -/
def Obligations.CboInvalInvalidates : Prop :=
  ∀ (s : State) (rs1 : RegNum) (q : Checked), MayManage s (.cboInval rs1) .inval q →
    performsInvalidate s.hart.cmo s.effMode q.s1 q.g q.wm = true →
    ∃ t, exec (.cboInval rs1) s = .next t ∧ Completed s t ∧ OtherBlocksSame s t q.pa ∧
      t.line s.self q.pa = none ∧ t.mem = s.mem ∧
      ∀ a ∈ s.block q.pa, ∀ o ∈ s.cset s.self q.pa, s.cset o a = s.cset s.self q.pa → t.view o a = s.mem.read a

/-- Rules R111, R112, R142, R144: `CBO.FLUSH`, and a `CBO.INVAL` that the control registers turn into a flush, with
`FlushAtomic`: the block is absent, and memory holds its bytes if they were held dirty, and is as it was if not; nothing else
is touched. The machine and FlushAtomic are decisions D23 and D24. -/
def Obligations.FlushWritesAndRemoves : Prop :=
  ∀ (s : State) (i : Instr) (k : OpClass) (rs1 : RegNum) (q : Checked), s.Inv → s.cfg.flushAtomic = true →
    MayManage s i k q →
    (i = .cboFlush rs1 ∧ k = .mgmt) ∨
      (i = .cboInval rs1 ∧ k = .inval ∧ performsInvalidate s.hart.cmo s.effMode q.s1 q.g q.wm = false) →
    ∃ t, exec i s = .next t ∧ Completed s t ∧ OtherBlocksSame s t q.pa ∧ t.line s.self q.pa = none ∧
      ∀ j < s.cfg.cbs, t.mem.read (s.blockBase q.pa + j) =
        match s.line s.self q.pa with
        | some l => if l.dirty then l.data.getD j 0#8 else s.mem.read (s.blockBase q.pa + j)
        | none => s.mem.read (s.blockBase q.pa + j)

/-- Rules R74, R112, R142, R144: without `FlushAtomic` the two halves of a `CBO.FLUSH`, and of a `CBO.INVAL` that the control
registers turn into a flush, are two steps: first memory holds the bytes of the block if they were held dirty, and is as it was if
not, and the copy is held clean, with `pc` still at the instruction; the hart's next step removes the copy and completes, writing
no memory and touching no other block and no other set's copy, whatever state the steps of other agents between the two left. It is
the other reading of decision D24 (log entry 18), in the spec's machine (decision D23, log entry 27). -/
def Obligations.FlushInTwoSteps : Prop :=
  ∀ (s : State) (i : Instr) (k : OpClass) (rs1 : RegNum) (q : Checked), s.Inv → s.cfg.flushAtomic = false →
    MayManage s i k q →
    (i = .cboFlush rs1 ∧ k = .mgmt) ∨
      (i = .cboInval rs1 ∧ k = .inval ∧ performsInvalidate s.hart.cmo s.effMode q.s1 q.g q.wm = false) →
    ∃ t, exec i s = .next t ∧ InProgress s t ∧ OtherBlocksSame s t q.pa ∧
      t.line s.self q.pa = (s.line s.self q.pa).map (fun l => { l with dirty := false }) ∧
      (∀ j < s.cfg.cbs, t.mem.read (s.blockBase q.pa + j) =
        match s.line s.self q.pa with
        | some l => if l.dirty then l.data.getD j 0#8 else s.mem.read (s.blockBase q.pa + j)
        | none => s.mem.read (s.blockBase q.pa + j)) ∧
      ∃ p, t.hart.pending = some p ∧ Completed s (t.resume p) ∧ OtherBlocksSame s (t.resume p) q.pa ∧
        (t.resume p).line s.self q.pa = none ∧ (t.resume p).mem = t.mem ∧
        ∀ u : State, u.cfg = s.cfg → u.pmaConstraintsMet q.pa = true →
          Completed u (u.resume p) ∧ OtherBlocksSame u (u.resume p) q.pa ∧
            (u.resume p).line u.self q.pa = none ∧ (u.resume p).mem = u.mem

/-- Rules R111, R143: `CBO.CLEAN`: memory holds the bytes of the block if they were held dirty, the copy is held clean, and a
copy that was clean or absent is left as it is with memory not written; nothing else is touched. The machine is decision D23.
-/
def Obligations.CboCleanWritesDirtyBlock : Prop :=
  ∀ (s : State) (rs1 : RegNum) (q : Checked), s.Inv → MayManage s (.cboClean rs1) .mgmt q →
    ∃ t, exec (.cboClean rs1) s = .next t ∧ Completed s t ∧ OtherBlocksSame s t q.pa ∧
      t.line s.self q.pa = (s.line s.self q.pa).map (fun l => { l with dirty := false }) ∧
      ∀ j < s.cfg.cbs, t.mem.read (s.blockBase q.pa + j) =
        match s.line s.self q.pa with
        | some l => if l.dirty then l.data.getD j 0#8 else s.mem.read (s.blockBase q.pa + j)
        | none => s.mem.read (s.blockBase q.pa + j)

/-- Rules R108, R152, R153: `CBO.ZERO`, its byte stores in one step: every byte of the block is zero for the hart; the zeros
are in the copy if there was one, with memory not written, and in memory if there was none; nothing else is touched. Where the zeros
go is rule R108, of the spec's machine, decision D23 (log entry 27, DESIGN CHOICE); that the stores are one step where no grouping is
planned is the model's choice (log entry 16, DESIGN CHOICE; decision D26). -/
def Obligations.CboZeroZeroesItsBlock : Prop :=
  ∀ (s : State) (rs1 : RegNum) (q : Checked), s.Inv → s.zeroPlan = [] → MayZero s rs1 q →
    ∃ t, exec (.cboZero rs1) s = .next t ∧ Completed s t ∧ OtherBlocksSame s t q.pa ∧
      (∀ a ∈ s.block q.pa, t.view s.self a = 0#8) ∧
      (s.line s.self q.pa = none → t.line s.self q.pa = none ∧ ∀ a ∈ s.block q.pa, t.mem.read a = 0#8) ∧
      (∀ l, s.line s.self q.pa = some l → t.mem = s.mem ∧
        t.line s.self q.pa = some { data := List.replicate s.cfg.cbs 0#8, dirty := true })

/-- Rules R75, R152: the byte stores of a `CBO.ZERO` in any grouping and order: whatever groups are planned, the instruction
begins or completes, and with no other agent between, as many further steps of the hart as there are groups complete it; then
every byte of the block is zero for the hart, `pc` is 4 further, and no byte outside the block has changed. One such step, whatever
state the steps of other agents left, makes every byte of its group zero for the hart (the bytes still to be stored to that the plan's
next group names, all of them where none is planned) and touches nothing else; with no byte left it completes the instruction, and
otherwise leaves exactly the rest in progress. Any grouping is decision D26 (log entry 16), and the machine is decision D23 (log
entry 27). -/
def Obligations.CboZeroInAnyGrouping : Prop :=
  ∀ (s : State) (rs1 : RegNum) (q : Checked), s.Inv → MayZero s rs1 q →
    ∃ t, exec (.cboZero rs1) s = .next t ∧ (Completed s t ∨ InProgress s t) ∧
      let u := resumeTimes s.zeroPlan.length t
      u.hart = { s.hart with pc := s.cfg.trunc (s.hart.pc + 4#64), pending := none } ∧
      (∀ a ∈ s.block q.pa, u.view s.self a = 0#8) ∧ OtherBlocksSame s u q.pa ∧
      ∀ (v : State) (later : List Nat), v.Inv → v.cfg = s.cfg → v.pmaConstraintsMet q.pa = true →
        (∀ k ∈ later, k < s.cfg.cbs) →
        let base := s.blockBase q.pa
        let w := v.resume (.zero base later)
        let now :=
          match v.zeroPlan with
          | [] => later
          | group :: _ => later.filter (fun k => group.contains k)
        OtherBlocksSame v w q.pa ∧ w.zeroPlan = v.zeroPlan.tail ∧
          (∀ k ∈ now, w.view v.self (base + k) = 0#8) ∧
          (∀ a, (∀ k ∈ now, a ≠ base + k) → w.view v.self a = v.view v.self a) ∧
          ((∀ k ∈ later, k ∈ now) → Completed v w) ∧
          ((∃ k ∈ later, k ∉ now) → InProgress v w ∧
            ∃ rest, w.hart.pending = some (.zero base rest) ∧ ∀ k, k ∈ rest ↔ k ∈ later ∧ k ∉ now)

/-- Rules R116, R162, R165, R180, R193: a hint instruction that no trigger stops completes in every mode, and changes for no byte
whether its fetch has a defined result (log entry 7). Where a stage does not allow the
access, a walk that is interrupted among these (decision D22), or where some byte of the block may be neither read nor executed,
it accesses no memory; where the checks pass it changes no byte of memory, no other block's copy, and no copy at all unless the
caches choose to allocate (the choice is the model's, log entry 17) and a Fill is offered. A block that does not meet the PMA
constraints is the one address left out: the behaviour is UNSPECIFIED (decision D32, log entry 26). -/
def Obligations.HintsCompleteWithoutFaulting : Prop :=
  ∀ (s : State) (i : Instr), i.isHint = true →
    let va := s.effAddr i.rs1
    s.accessTriggers (.hint s.cfg) va = .pass () →
    ((∀ pa, StagesPass s va pa → s.pmaConstraintsMet pa = true ∧ ¬BlockPermitted s pa) →
      ∃ t, exec i s = .next t ∧ Completed s t ∧ SameMemory s t ∧ ∀ a, t.fetchDefined a = s.fetchDefined a) ∧
    ∀ pa, StagesPass s va pa → s.pmaConstraintsMet pa = true → BlockPermitted s pa →
      ∃ t, exec i s = .next t ∧ Completed s t ∧ t.mem = s.mem ∧ t.gmo = s.gmo ∧
        (∀ a, t.fetchDefined a = s.fetchDefined a) ∧
        (∀ key, key ≠ s.keyOf s.self pa → mapGet key t.cache = mapGet key s.cache) ∧
        (s.hintFills = [] ∨ s.hintFills.head? = some false ∨ s.fillOffered s.self pa = false → t.cache = s.cache)

/-- Rules R160, R162, R164: where the checks pass, the caches choose to and a Fill is offered, a hint instruction allocates
the block, clean, as memory holds it: read or execute permission is enough, for `PREFETCH.W` too. The choice is the model's
(log entry 17); Fill is a step of the spec's machine (decision D23, log entry 27). -/
def Obligations.HintsMayAllocateTheBlock : Prop :=
  ∀ (s : State) (i : Instr) (pa : Nat) (rest : List Bool), i.isHint = true →
    s.accessTriggers (.hint s.cfg) (s.effAddr i.rs1) = .pass () →
    StagesPass s (s.effAddr i.rs1) pa → s.pmaConstraintsMet pa = true → BlockPermitted s pa →
    s.hintFills = true :: rest → s.fillOffered s.self pa = true →
    ∃ t, exec i s = .next t ∧ Completed s t ∧ t.hintFills = rest ∧ t.mem = s.mem ∧
      t.line s.self pa = some { data := s.memBlock pa, dirty := false }

/-! ### Memory ordering -/

/-- Rules R96, R99, R102: the machine realises one global order: every step leaves what is in it in its order, and what it
adds comes after everything there; so an operation precedes every later one of its hart, whatever the preserved program order
asks. This interleaving machine is decision D23 (log entry 28). -/
def Obligations.GlobalMemoryOrderOnlyGrows : Prop :=
  ∀ (s t : State), step s = .next t → ∃ newer, t.gmo = newer ++ s.gmo ∧ ∀ a ∈ s.gmo, ∀ b ∈ newer, precedes t.gmo a b

/-- Rules R99, R100, R112: the step in which a management instruction executes adds one element to the global memory order, over
all the bytes of its block (decision D17, log entry 36), of a kind that behaves as a store; the second step of a flush that is not
atomic adds an invalidate over the same block (log entry 18). Each byte store of `CBO.ZERO` is a store element of its own, and in
one step there is one for each byte of the block. A hint instruction adds none. -/
def Obligations.OperationsInTheGlobalMemoryOrder : Prop :=
  ∀ (s : State) (i : Instr) (rs1 : RegNum) (q : Checked),
    ((i = .cboInval rs1 ∧ MayManage s i .inval q) ∨ ((i = .cboClean rs1 ∨ i = .cboFlush rs1) ∧ MayManage s i .mgmt q) →
      ∃ t op, exec i s = .next t ∧ t.gmo = op :: s.gmo ∧ op.observer = s.self ∧ op.base = s.blockBase q.pa ∧
        op.size = s.cfg.cbs ∧ op.kind.isManagement = true ∧ op.kind.storeLike = true) ∧
    (∀ pa, s.hart.pending = some (.flushInvalidate pa) →
      (s.resume (.flushInvalidate pa)).gmo =
        { observer := s.self, kind := .invalidate, base := s.blockBase pa, size := s.cfg.cbs } :: s.gmo) ∧
    (MayZero s rs1 q → ∃ t newer, exec (.cboZero rs1) s = .next t ∧ t.gmo = newer ++ s.gmo ∧
      (∀ op ∈ newer, ∃ j < s.cfg.cbs,
        op = { observer := s.self, kind := .store, base := s.blockBase q.pa + j, size := 1 }) ∧
      (s.zeroPlan = [] → newer.length = s.cfg.cbs ∧
        ∀ j < s.cfg.cbs, { observer := s.self, kind := .store, base := s.blockBase q.pa + j, size := 1 } ∈ newer)) ∧
    (i.isHint = true → ∀ t, exec i s = .next t → t.gmo = s.gmo)

/-! ### The machine as a whole -/

/-- The invariant holds at reset. Its values are the model's where the spec gives none (log entries 3, 4, 5). -/
def Obligations.InvariantHoldsAtReset : Prop := State.reset.Inv

/-- Every step keeps the invariant: memory and caches in their canonical form, cached blocks aligned and of `CBS` bytes in
sets that have a cache, every control register within its legal set, every hart of the configuration there once, in a mode it has
with `pc` aligned. It rests on rules R20, R21, R22, R25, R37, R38, R40, R44 and R109, the reserved bits on
decision D9 (log entry 23) and the caches on decision D23 (log entry 27). -/
def Obligations.EveryStepKeepsTheInvariant : Prop :=
  ∀ (s t : State), s.Inv → step s = .next t → t.Inv

/-- Rule R49: the parameters are fixed for a run: no step changes them. -/
def Obligations.ParametersAreFixed : Prop :=
  ∀ (s t : State), step s = .next t → t.cfg = s.cfg

/-- Rules R48, R231: what reset leaves of every hart where the spec gives it: M-mode, `MPRV = 0`, `pc` at the reset vector,
control registers within their legal sets with their reserved bits 0, nothing in progress; for the state after reset, and the
reserved bits for any hart of any state a reset may leave. It rests on general knowledge and decisions D9, D13, D29. -/
def Obligations.ResetLeavesMachineMode : Prop :=
  State.reset.AfterReset ∧ State.reset.hart.pc = State.reset.cfg.resetVector ∧ State.reset.effMode = .M ∧
    ∀ (s : State) (h : Hart) (r : CmoReg) (b : Nat), s.AfterReset → h = s.hart ∨ (∃ o, (o, h) ∈ s.others) →
      b ∉ [0, 1, 8, 9, 10, 11] → (h.cmo.get r).getLsbD b = false

/-- Rule R231: in any state a reset may leave, whichever hart executes, no management or write instruction is illegal, `CBO.INVAL`
has no other address checks than any management instruction, and one that passes them invalidates, whatever the control registers
hold. Mode and MPRV at reset are general knowledge (decision D13). -/
def Obligations.AfterResetControlRegistersDoNotMatter : Prop :=
  ∀ (r s : State) (rs1 : RegNum) (q : Checked), r.AfterReset → s = r ∨ (∃ h, s = r.switchTo h) →
    s.AfterReset ∧
    illegalMgmt s.hart.cmo s.hart.mode = false ∧ illegalWrite s.hart.cmo s.hart.mode = false ∧
    (∀ va, s.checkAddr .inval va = s.checkAddr .mgmt va) ∧
    (MayManage s (.cboInval rs1) .mgmt q → exec (.cboInval rs1) s = .next (s.doInvalidate q.pa))

/-- Rules R43, R49, R238: attributes that the platform does not fix end the run where they change under a copy, and take effect
where no cached block's do, so of a block that was flushed first though others are cached; those it fixes do not change. The refusal is decision D39 (log entry 31), and that any agent may change
attributes is the model's choice (log entry 14). -/
def Obligations.AttributeChangeUnderCopyIsRefused : Prop :=
  ∀ (s : State) (rs : List Region),
    (s.cfg.attrsFixed = true → runEvent (.regions rs) s = .next s) ∧
    (s.cfg.attrsFixed = false → (∃ key l a, mapGet key s.cache = some l ∧ a ∈ s.block key.block ∧ { s with regions := rs }.attrs a ≠ s.attrs a) →
      runEvent (.regions rs) s = .refused .attributesChangedUnderCopy) ∧
    (s.cfg.attrsFixed = false →
      (∀ key l a, mapGet key s.cache = some l → a ∈ s.block key.block → { s with regions := rs }.attrs a = s.attrs a) →
      runEvent (.regions rs) s = .next { s with regions := rs })

/-- Rule R234: the stale-data hazard and its defence: an invalidate of a block held dirty shows the bytes memory held; after a
clean of the block first, it shows the bytes stored. It follows in the spec's machine (decision D23). -/
def Obligations.InvalidateExposesStaleData : Prop :=
  ∀ (s : State) (pa j : Nat) (l : Line), s.line s.self pa = some l → l.dirty = true → l.data.length = s.cfg.cbs →
    s.pmaConstraintsMet pa = true → j < s.cfg.cbs →
    let a := s.blockBase pa + j
    s.view s.self a = l.data.getD j 0#8 ∧
    (s.doInvalidate pa).view s.self a = s.mem.read a ∧
    ((s.clean s.self pa).doInvalidate pa).view s.self a = l.data.getD j 0#8

/-- Rules R73, R117, R118: a clean operation makes stored data appear to an observer outside the set: after a `CBO.CLEAN` of a
block that the hart's set holds dirty, an observer with no copy of its own sees every byte as the hart sees it. It follows in
the spec's machine (decision D23). -/
def Obligations.CleanMakesStoresAppearOutside : Prop :=
  ∀ (s : State) (rs1 : RegNum) (q : Checked) (n : ObserverId) (l : Line), s.Inv → MayManage s (.cboClean rs1) .mgmt q →
    s.line s.self q.pa = some l → l.dirty = true →
    (∀ a ∈ s.block q.pa, s.line n a = none) →
    ∃ t, exec (.cboClean rs1) s = .next t ∧ ∀ a ∈ s.block q.pa, t.view n a = s.view s.self a ∧ t.view s.self a = s.view s.self a
end

