-- ==== Sys2Proof/Laws/SortedMap.lean ====
section
/-! SUPPORT. The laws of sorted maps: reading after a change, and that every change keeps the keys strictly rising. -/

namespace Sys2Proof.Machine

variable {κ ν : Type} [DecidableEq κ]

/-! ### Reading after a change -/

@[simp] theorem mapGet_mapSet_self (lt : κ → κ → Bool) (k : κ) (v : ν) (m : List (κ × ν)) :
    mapGet k (mapSet lt k v m) = some v := by
  induction m with
  | nil => simp [mapSet, mapGet]
  | cons p rest ih =>
    obtain ⟨j, w⟩ := p
    by_cases h : j = k
    · simp [mapSet, mapGet, h]
    · by_cases hlt : lt k j <;> simp [mapSet, mapGet, h, hlt, ih]

theorem mapGet_mapSet_of_ne (lt : κ → κ → Bool) {k j : κ} (h : j ≠ k) (v : ν) (m : List (κ × ν)) :
    mapGet j (mapSet lt k v m) = mapGet j m := by
  induction m with
  | nil => simp [mapSet, mapGet, Ne.symm h]
  | cons p rest ih =>
    obtain ⟨i, w⟩ := p
    by_cases hi : i = k
    · subst hi; simp [mapSet, mapGet, Ne.symm h]
    · by_cases hlt : lt k i <;> simp [mapSet, mapGet, hi, hlt, ih, Ne.symm h]

@[simp] theorem mapGet_mapDel_self (k : κ) (m : List (κ × ν)) : mapGet k (mapDel k m) = none := by
  induction m with
  | nil => rfl
  | cons p rest ih =>
    obtain ⟨j, w⟩ := p
    by_cases h : j = k <;> simp [mapDel, mapGet, h, ih]

theorem mapGet_mapDel_of_ne {k j : κ} (h : j ≠ k) (m : List (κ × ν)) : mapGet j (mapDel k m) = mapGet j m := by
  induction m with
  | nil => rfl
  | cons p rest ih =>
    obtain ⟨i, w⟩ := p
    by_cases hi : i = k
    · subst hi; simp [mapDel, mapGet, ih, Ne.symm h]
    · simp [mapDel, mapGet, hi, ih]

theorem mem_of_mapGet {k : κ} {v : ν} {m : List (κ × ν)} (h : mapGet k m = some v) : (k, v) ∈ m := by
  induction m with
  | nil => simp [mapGet] at h
  | cons p rest ih =>
    obtain ⟨j, w⟩ := p
    by_cases hj : j = k
    · simp_all [mapGet]
    · simp only [mapGet, hj, if_false] at h
      exact List.mem_cons_of_mem _ (ih h)

/-! ### Membership after a change -/

theorem mem_mapSet {lt : κ → κ → Bool} {k : κ} {v : ν} {m : List (κ × ν)} {p : κ × ν}
    (h : p ∈ mapSet lt k v m) : p = (k, v) ∨ p ∈ m := by
  induction m with
  | nil => simpa [mapSet] using h
  | cons q rest ih =>
    obtain ⟨j, w⟩ := q
    by_cases hj : j = k
    · simp only [mapSet, hj, if_true, List.mem_cons] at h ⊢; tauto
    · by_cases hlt : lt k j
      · simpa [mapSet, hj, hlt] using h
      · simp only [mapSet, hj, hlt, if_false, List.mem_cons, Bool.false_eq_true] at h ⊢
        rcases h with h | h
        · exact .inr (.inl h)
        · exact (ih h).imp_right .inr

theorem mem_of_mem_mapDel {k : κ} {m : List (κ × ν)} {p : κ × ν} (h : p ∈ mapDel k m) : p ∈ m := by
  induction m with
  | nil => simp [mapDel] at h
  | cons q rest ih =>
    obtain ⟨j, w⟩ := q
    by_cases hj : j = k
    · simp only [mapDel, hj, if_true] at h; exact List.mem_cons_of_mem _ (ih h)
    · simp only [mapDel, hj, if_false, List.mem_cons] at h ⊢; exact h.imp_right ih

/-! ### The canonical form -/

theorem mapSorted_mapDel {lt : κ → κ → Bool} {k : κ} {m : List (κ × ν)} (h : mapSorted lt m) :
    mapSorted lt (mapDel k m) := by
  induction m with
  | nil => exact h
  | cons q rest ih =>
    obtain ⟨j, w⟩ := q
    simp only [mapSorted, Bool.and_eq_true, List.all_eq_true] at h
    by_cases hj : j = k
    · simpa [mapDel, hj] using ih h.2
    · simp only [mapDel, hj, if_false, mapSorted, Bool.and_eq_true, List.all_eq_true]
      exact ⟨fun p hp => h.1 p (mem_of_mem_mapDel hp), ih h.2⟩

/-- What an order of keys must be for the canonical form to be kept. -/
structure StrictOrder (lt : κ → κ → Bool) : Prop where
  trans : ∀ a b c, lt a b → lt b c → lt a c
  total : ∀ a b, a ≠ b → lt a b = false → lt b a

theorem mapSorted_mapSet {lt : κ → κ → Bool} (ho : StrictOrder lt) {k : κ} {v : ν} {m : List (κ × ν)}
    (h : mapSorted lt m) : mapSorted lt (mapSet lt k v m) := by
  induction m with
  | nil => simp [mapSet, mapSorted]
  | cons q rest ih =>
    obtain ⟨j, w⟩ := q
    have h' := h
    simp only [mapSorted, Bool.and_eq_true, List.all_eq_true] at h'
    by_cases hj : j = k
    · subst hj; simpa [mapSet, mapSorted] using h
    · by_cases hlt : lt k j
      · simp only [mapSet, hj, hlt, if_false, if_true]
        simp only [mapSorted, Bool.and_eq_true, List.all_eq_true, List.mem_cons]
        refine ⟨?_, h'⟩
        rintro p (rfl | hp)
        · exact hlt
        · exact ho.trans _ _ _ hlt (h'.1 p hp)
      · simp only [mapSet, hj, hlt, if_false, Bool.false_eq_true, mapSorted, Bool.and_eq_true, List.all_eq_true]
        refine ⟨fun p hp => ?_, ih h'.2⟩
        rcases mem_mapSet hp with rfl | hp
        · exact ho.total _ _ (Ne.symm hj) (by simpa using hlt)
        · exact h'.1 p hp

/-! ### The two orders in use -/

theorem natLt_strictOrder : StrictOrder natLt where
  trans a b c := by simp only [natLt, decide_eq_true_eq]; omega
  total a b := by simp only [natLt, decide_eq_true_eq, decide_eq_false_iff_not]; omega

theorem natListLt_trans : ∀ a b c : List Nat, natListLt a b → natListLt b c → natListLt a c
  | [], [], _, h, _ => by simp [natListLt] at h
  | [], _ :: _, [], _, h => by simp [natListLt] at h
  | [], _ :: _, _ :: _, _, _ => rfl
  | _ :: _, [], _, h, _ => by simp [natListLt] at h
  | _ :: _, _ :: _, [], _, h => by simp [natListLt] at h
  | a :: as, b :: bs, c :: cs, h1, h2 => by
    simp only [natListLt, natLt, Bool.or_eq_true, decide_eq_true_eq, Bool.and_eq_true, beq_iff_eq] at h1 h2 ⊢
    rcases h1 with h1 | ⟨h1, h1'⟩ <;> rcases h2 with h2 | ⟨h2, h2'⟩
    · left; omega
    · left; omega
    · left; omega
    · right; exact ⟨h1.trans h2, natListLt_trans as bs cs h1' h2'⟩

theorem natListLt_total : ∀ a b : List Nat, a ≠ b → natListLt a b = false → natListLt b a
  | [], [], h, _ => absurd rfl h
  | [], _ :: _, _, h => by simp [natListLt] at h
  | _ :: _, [], _, _ => rfl
  | a :: as, b :: bs, h, hlt => by
    simp only [natListLt, natLt, Bool.or_eq_false_iff, decide_eq_false_iff_not, Bool.and_eq_false_imp, beq_iff_eq] at hlt
    simp only [natListLt, natLt, Bool.or_eq_true, decide_eq_true_eq, Bool.and_eq_true, beq_iff_eq]
    by_cases hab : a = b
    · subst hab
      exact .inr ⟨rfl, natListLt_total as bs (by simpa using h) (hlt.2 rfl)⟩
    · left; omega

theorem cacheKeyLt_strictOrder : StrictOrder CacheKey.lt where
  trans a b c h1 h2 := by
    simp only [CacheKey.lt, natLt, Bool.or_eq_true, decide_eq_true_eq, Bool.and_eq_true, beq_iff_eq] at h1 h2 ⊢
    rcases h1 with h1 | ⟨h1, h1'⟩ <;> rcases h2 with h2 | ⟨h2, h2'⟩
    · left; omega
    · left; omega
    · left; omega
    · right; exact ⟨h1.trans h2, natListLt_trans _ _ _ h1' h2'⟩
  total a b h hlt := by
    obtain ⟨as, ab⟩ := a
    obtain ⟨bs, bb⟩ := b
    simp only [CacheKey.lt, natLt, Bool.or_eq_false_iff, decide_eq_false_iff_not, Bool.and_eq_false_imp, beq_iff_eq] at hlt
    simp only [CacheKey.lt, natLt, Bool.or_eq_true, decide_eq_true_eq, Bool.and_eq_true, beq_iff_eq]
    by_cases hab : ab = bb
    · subst hab
      exact .inr ⟨rfl, natListLt_total as bs (by simpa using h) (hlt.2 rfl)⟩
    · left; omega

end Sys2Proof.Machine
end

