-- ==== Sys2Proof/Laws/Memory.lean ====
section
/-! SUPPORT. The laws of memory: a read after a write, a write elsewhere, runs of bytes, and the canonical form. -/

namespace Sys2Proof.Machine

@[simp] theorem Memory.read_write_self (m : Memory) (a : Nat) (v : Byte) : (m.write a v).read a = v := by
  by_cases h : v = memDefault <;> simp [Memory.write, Memory.read, h]

theorem Memory.read_write_of_ne (m : Memory) {a b : Nat} (h : b ≠ a) (v : Byte) : (m.write a v).read b = m.read b := by
  by_cases hv : v = memDefault
  · simp [Memory.write, Memory.read, hv, mapGet_mapDel_of_ne h]
  · simp [Memory.write, Memory.read, hv, mapGet_mapSet_of_ne _ h]

/-- Memory after a run of bytes is written: inside the run its byte, outside what was there. -/
theorem Memory.read_writeBytes (m : Memory) (a b : Nat) (vs : List Byte) :
    (m.writeBytes a vs).read b =
      if a ≤ b ∧ b < a + vs.length then vs.getD (b - a) 0#8 else m.read b := by
  induction vs generalizing m a with
  | nil => simp only [Memory.writeBytes, List.length_nil, Nat.add_zero]; rw [if_neg (by omega)]
  | cons v vs ih =>
    simp only [Memory.writeBytes, ih, List.length_cons]
    by_cases hb : b = a
    · subst hb
      rw [if_neg (by omega), if_pos (by omega)]
      simp
    · by_cases hin : a + 1 ≤ b ∧ b < a + 1 + vs.length
      · rw [if_pos hin, if_pos (by omega)]
        obtain ⟨k, rfl⟩ : ∃ k, b = a + 1 + k := ⟨b - (a + 1), by omega⟩
        rw [show a + 1 + k - (a + 1) = k by omega, show a + 1 + k - a = k + 1 by omega]
        simp
      · rw [if_neg hin, if_neg (by omega), Memory.read_write_of_ne _ hb]

theorem Memory.read_writeBytes_outside (m : Memory) {a b : Nat} {vs : List Byte} (h : b < a ∨ a + vs.length ≤ b) :
    (m.writeBytes a vs).read b = m.read b := by
  rw [Memory.read_writeBytes, if_neg (by omega)]

theorem Memory.read_writeBytes_inside (m : Memory) (a k : Nat) {vs : List Byte} (h : k < vs.length) :
    (m.writeBytes a vs).read (a + k) = vs.getD k 0#8 := by
  rw [Memory.read_writeBytes, if_pos (by omega)]; simp

@[simp] theorem Memory.readBytes_length (m : Memory) (a n : Nat) : (m.readBytes a n).length = n := by
  induction n generalizing a with
  | zero => rfl
  | succ n ih => simp [Memory.readBytes, ih]

theorem Memory.readBytes_getD (m : Memory) (a : Nat) {n k : Nat} (h : k < n) :
    (m.readBytes a n).getD k 0#8 = m.read (a + k) := by
  induction n generalizing a k with
  | zero => omega
  | succ n ih =>
    cases k with
    | zero => simp [Memory.readBytes]
    | succ k =>
      simp only [Memory.readBytes, List.getD_cons_succ]
      rw [ih (a + 1) (by omega)]
      congr 1; omega

/-! ### The canonical form -/

theorem Memory.write_wf {m : Memory} (h : m.wf) (a : Nat) (v : Byte) : (m.write a v).wf := by
  simp only [Memory.wf, Bool.and_eq_true, List.all_eq_true, bne_iff_ne] at h ⊢
  by_cases hv : v = memDefault
  · simp only [Memory.write, hv, if_true]
    exact ⟨mapSorted_mapDel h.1, fun c hc => h.2 c (mem_of_mem_mapDel hc)⟩
  · simp only [Memory.write, hv, if_false]
    refine ⟨mapSorted_mapSet natLt_strictOrder h.1, fun c hc => ?_⟩
    rcases mem_mapSet hc with rfl | hc
    · exact hv
    · exact h.2 c hc

theorem Memory.writeBytes_wf {m : Memory} (h : m.wf) (a : Nat) (vs : List Byte) : (m.writeBytes a vs).wf := by
  induction vs generalizing m a with
  | nil => exact h
  | cons v vs ih => exact ih (Memory.write_wf h a v) (a + 1)

theorem reset_mem_wf : State.reset.mem.wf := rfl

end Sys2Proof.Machine
end

