-- ==== Sys2Proof/Laws/State.lean ====
section
/-!
SUPPORT. For each operation on the state, one lemma per field it leaves alone, and one per field it sets: later proofs
never unfold a record update.
-/

namespace Sys2Proof.Machine

/-! ### The hart replaced -/

@[simp] theorem State.withHart_cfg (s : State) (h : Hart) : (s.withHart h).cfg = s.cfg := rfl
@[simp] theorem State.withHart_self (s : State) (h : Hart) : (s.withHart h).self = s.self := rfl
@[simp] theorem State.withHart_others (s : State) (h : Hart) : (s.withHart h).others = s.others := rfl
@[simp] theorem State.withHart_regions (s : State) (h : Hart) : (s.withHart h).regions = s.regions := rfl
@[simp] theorem State.withHart_mem (s : State) (h : Hart) : (s.withHart h).mem = s.mem := rfl
@[simp] theorem State.withHart_cache (s : State) (h : Hart) : (s.withHart h).cache = s.cache := rfl
@[simp] theorem State.withHart_gmo (s : State) (h : Hart) : (s.withHart h).gmo = s.gmo := rfl
@[simp] theorem State.withHart_reservations (s : State) (h : Hart) : (s.withHart h).reservations = s.reservations := rfl
@[simp] theorem State.withHart_fetchLog (s : State) (h : Hart) : (s.withHart h).fetchLog = s.fetchLog := rfl
@[simp] theorem State.withHart_lastLoad (s : State) (h : Hart) : (s.withHart h).lastLoad = s.lastLoad := rfl
@[simp] theorem State.withHart_schedule (s : State) (h : Hart) : (s.withHart h).schedule = s.schedule := rfl
@[simp] theorem State.withHart_zeroPlan (s : State) (h : Hart) : (s.withHart h).zeroPlan = s.zeroPlan := rfl
@[simp] theorem State.withHart_hintFills (s : State) (h : Hart) : (s.withHart h).hintFills = s.hintFills := rfl
@[simp] theorem State.withHart_free (s : State) (h : Hart) : (s.withHart h).free = s.free := rfl

@[simp] theorem State.withHart_hart (s : State) (h : Hart) : (s.withHart h).hart = h := rfl

/-! ### A general register -/

@[simp] theorem State.writeX_cfg (s : State) (i : RegNum) (v : Word) : (s.writeX i v).cfg = s.cfg := by
  unfold State.writeX; split <;> rfl
@[simp] theorem State.writeX_self (s : State) (i : RegNum) (v : Word) : (s.writeX i v).self = s.self := by
  unfold State.writeX; split <;> rfl
@[simp] theorem State.writeX_others (s : State) (i : RegNum) (v : Word) : (s.writeX i v).others = s.others := by
  unfold State.writeX; split <;> rfl
@[simp] theorem State.writeX_regions (s : State) (i : RegNum) (v : Word) : (s.writeX i v).regions = s.regions := by
  unfold State.writeX; split <;> rfl
@[simp] theorem State.writeX_mem (s : State) (i : RegNum) (v : Word) : (s.writeX i v).mem = s.mem := by
  unfold State.writeX; split <;> rfl
@[simp] theorem State.writeX_cache (s : State) (i : RegNum) (v : Word) : (s.writeX i v).cache = s.cache := by
  unfold State.writeX; split <;> rfl
@[simp] theorem State.writeX_gmo (s : State) (i : RegNum) (v : Word) : (s.writeX i v).gmo = s.gmo := by
  unfold State.writeX; split <;> rfl
@[simp] theorem State.writeX_reservations (s : State) (i : RegNum) (v : Word) : (s.writeX i v).reservations = s.reservations := by
  unfold State.writeX; split <;> rfl
@[simp] theorem State.writeX_fetchLog (s : State) (i : RegNum) (v : Word) : (s.writeX i v).fetchLog = s.fetchLog := by
  unfold State.writeX; split <;> rfl
@[simp] theorem State.writeX_lastLoad (s : State) (i : RegNum) (v : Word) : (s.writeX i v).lastLoad = s.lastLoad := by
  unfold State.writeX; split <;> rfl
@[simp] theorem State.writeX_schedule (s : State) (i : RegNum) (v : Word) : (s.writeX i v).schedule = s.schedule := by
  unfold State.writeX; split <;> rfl
@[simp] theorem State.writeX_zeroPlan (s : State) (i : RegNum) (v : Word) : (s.writeX i v).zeroPlan = s.zeroPlan := by
  unfold State.writeX; split <;> rfl
@[simp] theorem State.writeX_hintFills (s : State) (i : RegNum) (v : Word) : (s.writeX i v).hintFills = s.hintFills := by
  unfold State.writeX; split <;> rfl
@[simp] theorem State.writeX_free (s : State) (i : RegNum) (v : Word) : (s.writeX i v).free = s.free := by
  unfold State.writeX; split <;> rfl

/-! ### A line -/

@[simp] theorem State.setLine_cfg (s : State) (o : ObserverId) (pa : Nat) (l : Line) : (s.setLine o pa l).cfg = s.cfg := rfl
@[simp] theorem State.setLine_self (s : State) (o : ObserverId) (pa : Nat) (l : Line) : (s.setLine o pa l).self = s.self := rfl
@[simp] theorem State.setLine_hart (s : State) (o : ObserverId) (pa : Nat) (l : Line) : (s.setLine o pa l).hart = s.hart := rfl
@[simp] theorem State.setLine_others (s : State) (o : ObserverId) (pa : Nat) (l : Line) : (s.setLine o pa l).others = s.others := rfl
@[simp] theorem State.setLine_regions (s : State) (o : ObserverId) (pa : Nat) (l : Line) : (s.setLine o pa l).regions = s.regions := rfl
@[simp] theorem State.setLine_mem (s : State) (o : ObserverId) (pa : Nat) (l : Line) : (s.setLine o pa l).mem = s.mem := rfl
@[simp] theorem State.setLine_gmo (s : State) (o : ObserverId) (pa : Nat) (l : Line) : (s.setLine o pa l).gmo = s.gmo := rfl
@[simp] theorem State.setLine_reservations (s : State) (o : ObserverId) (pa : Nat) (l : Line) : (s.setLine o pa l).reservations = s.reservations := rfl
@[simp] theorem State.setLine_fetchLog (s : State) (o : ObserverId) (pa : Nat) (l : Line) : (s.setLine o pa l).fetchLog = s.fetchLog := rfl
@[simp] theorem State.setLine_lastLoad (s : State) (o : ObserverId) (pa : Nat) (l : Line) : (s.setLine o pa l).lastLoad = s.lastLoad := rfl
@[simp] theorem State.setLine_schedule (s : State) (o : ObserverId) (pa : Nat) (l : Line) : (s.setLine o pa l).schedule = s.schedule := rfl
@[simp] theorem State.setLine_zeroPlan (s : State) (o : ObserverId) (pa : Nat) (l : Line) : (s.setLine o pa l).zeroPlan = s.zeroPlan := rfl
@[simp] theorem State.setLine_hintFills (s : State) (o : ObserverId) (pa : Nat) (l : Line) : (s.setLine o pa l).hintFills = s.hintFills := rfl
@[simp] theorem State.setLine_free (s : State) (o : ObserverId) (pa : Nat) (l : Line) : (s.setLine o pa l).free = s.free := rfl

/-! ### No line -/

@[simp] theorem State.dropLine_cfg (s : State) (o : ObserverId) (pa : Nat) : (s.dropLine o pa).cfg = s.cfg := rfl
@[simp] theorem State.dropLine_self (s : State) (o : ObserverId) (pa : Nat) : (s.dropLine o pa).self = s.self := rfl
@[simp] theorem State.dropLine_hart (s : State) (o : ObserverId) (pa : Nat) : (s.dropLine o pa).hart = s.hart := rfl
@[simp] theorem State.dropLine_others (s : State) (o : ObserverId) (pa : Nat) : (s.dropLine o pa).others = s.others := rfl
@[simp] theorem State.dropLine_regions (s : State) (o : ObserverId) (pa : Nat) : (s.dropLine o pa).regions = s.regions := rfl
@[simp] theorem State.dropLine_mem (s : State) (o : ObserverId) (pa : Nat) : (s.dropLine o pa).mem = s.mem := rfl
@[simp] theorem State.dropLine_gmo (s : State) (o : ObserverId) (pa : Nat) : (s.dropLine o pa).gmo = s.gmo := rfl
@[simp] theorem State.dropLine_reservations (s : State) (o : ObserverId) (pa : Nat) : (s.dropLine o pa).reservations = s.reservations := rfl
@[simp] theorem State.dropLine_fetchLog (s : State) (o : ObserverId) (pa : Nat) : (s.dropLine o pa).fetchLog = s.fetchLog := rfl
@[simp] theorem State.dropLine_lastLoad (s : State) (o : ObserverId) (pa : Nat) : (s.dropLine o pa).lastLoad = s.lastLoad := rfl
@[simp] theorem State.dropLine_schedule (s : State) (o : ObserverId) (pa : Nat) : (s.dropLine o pa).schedule = s.schedule := rfl
@[simp] theorem State.dropLine_zeroPlan (s : State) (o : ObserverId) (pa : Nat) : (s.dropLine o pa).zeroPlan = s.zeroPlan := rfl
@[simp] theorem State.dropLine_hintFills (s : State) (o : ObserverId) (pa : Nat) : (s.dropLine o pa).hintFills = s.hintFills := rfl
@[simp] theorem State.dropLine_free (s : State) (o : ObserverId) (pa : Nat) : (s.dropLine o pa).free = s.free := rfl

@[simp] theorem State.setLine_cache (s : State) (o : ObserverId) (pa : Nat) (l : Line) :
    (s.setLine o pa l).cache = mapSet CacheKey.lt (s.keyOf o pa) l s.cache := rfl
@[simp] theorem State.dropLine_cache (s : State) (o : ObserverId) (pa : Nat) :
    (s.dropLine o pa).cache = mapDel (s.keyOf o pa) s.cache := rfl
/-! ### A mark for fetches -/

@[simp] theorem State.markChanged_cfg (s : State) (b n : Nat) : (s.markChanged b n).cfg = s.cfg := rfl
@[simp] theorem State.markChanged_self (s : State) (b n : Nat) : (s.markChanged b n).self = s.self := rfl
@[simp] theorem State.markChanged_hart (s : State) (b n : Nat) : (s.markChanged b n).hart = s.hart := rfl
@[simp] theorem State.markChanged_others (s : State) (b n : Nat) : (s.markChanged b n).others = s.others := rfl
@[simp] theorem State.markChanged_regions (s : State) (b n : Nat) : (s.markChanged b n).regions = s.regions := rfl
@[simp] theorem State.markChanged_mem (s : State) (b n : Nat) : (s.markChanged b n).mem = s.mem := rfl
@[simp] theorem State.markChanged_cache (s : State) (b n : Nat) : (s.markChanged b n).cache = s.cache := rfl
@[simp] theorem State.markChanged_gmo (s : State) (b n : Nat) : (s.markChanged b n).gmo = s.gmo := rfl
@[simp] theorem State.markChanged_reservations (s : State) (b n : Nat) : (s.markChanged b n).reservations = s.reservations := rfl
@[simp] theorem State.markChanged_lastLoad (s : State) (b n : Nat) : (s.markChanged b n).lastLoad = s.lastLoad := rfl
@[simp] theorem State.markChanged_schedule (s : State) (b n : Nat) : (s.markChanged b n).schedule = s.schedule := rfl
@[simp] theorem State.markChanged_zeroPlan (s : State) (b n : Nat) : (s.markChanged b n).zeroPlan = s.zeroPlan := rfl
@[simp] theorem State.markChanged_hintFills (s : State) (b n : Nat) : (s.markChanged b n).hintFills = s.hintFills := rfl
@[simp] theorem State.markChanged_free (s : State) (b n : Nat) : (s.markChanged b n).free = s.free := rfl

@[simp] theorem State.markChanged_fetchLog (s : State) (b n : Nat) :
    (s.markChanged b n).fetchLog = .changed b n :: s.fetchLog := rfl

/-! ### The mark of an operation on a copy -/

@[simp] theorem State.markDiffering_cfg (s : State) (o : ObserverId) (pa : Nat) : (s.markDiffering o pa).cfg = s.cfg := by
  unfold State.markDiffering; split <;> rfl
@[simp] theorem State.markDiffering_self (s : State) (o : ObserverId) (pa : Nat) : (s.markDiffering o pa).self = s.self := by
  unfold State.markDiffering; split <;> rfl
@[simp] theorem State.markDiffering_hart (s : State) (o : ObserverId) (pa : Nat) : (s.markDiffering o pa).hart = s.hart := by
  unfold State.markDiffering; split <;> rfl
@[simp] theorem State.markDiffering_others (s : State) (o : ObserverId) (pa : Nat) : (s.markDiffering o pa).others = s.others := by
  unfold State.markDiffering; split <;> rfl
@[simp] theorem State.markDiffering_regions (s : State) (o : ObserverId) (pa : Nat) : (s.markDiffering o pa).regions = s.regions := by
  unfold State.markDiffering; split <;> rfl
@[simp] theorem State.markDiffering_mem (s : State) (o : ObserverId) (pa : Nat) : (s.markDiffering o pa).mem = s.mem := by
  unfold State.markDiffering; split <;> rfl
@[simp] theorem State.markDiffering_cache (s : State) (o : ObserverId) (pa : Nat) : (s.markDiffering o pa).cache = s.cache := by
  unfold State.markDiffering; split <;> rfl
@[simp] theorem State.markDiffering_gmo (s : State) (o : ObserverId) (pa : Nat) : (s.markDiffering o pa).gmo = s.gmo := by
  unfold State.markDiffering; split <;> rfl
@[simp] theorem State.markDiffering_reservations (s : State) (o : ObserverId) (pa : Nat) : (s.markDiffering o pa).reservations = s.reservations := by
  unfold State.markDiffering; split <;> rfl
@[simp] theorem State.markDiffering_lastLoad (s : State) (o : ObserverId) (pa : Nat) : (s.markDiffering o pa).lastLoad = s.lastLoad := by
  unfold State.markDiffering; split <;> rfl
@[simp] theorem State.markDiffering_schedule (s : State) (o : ObserverId) (pa : Nat) : (s.markDiffering o pa).schedule = s.schedule := by
  unfold State.markDiffering; split <;> rfl
@[simp] theorem State.markDiffering_zeroPlan (s : State) (o : ObserverId) (pa : Nat) : (s.markDiffering o pa).zeroPlan = s.zeroPlan := by
  unfold State.markDiffering; split <;> rfl
@[simp] theorem State.markDiffering_hintFills (s : State) (o : ObserverId) (pa : Nat) : (s.markDiffering o pa).hintFills = s.hintFills := by
  unfold State.markDiffering; split <;> rfl
@[simp] theorem State.markDiffering_free (s : State) (o : ObserverId) (pa : Nat) : (s.markDiffering o pa).free = s.free := by
  unfold State.markDiffering; split <;> rfl

/-! ### The global memory order -/

@[simp] theorem State.record_cfg (s : State) (o : ObserverId) (k : MemKind) (b n : Nat) : (s.record o k b n).cfg = s.cfg := rfl
@[simp] theorem State.record_self (s : State) (o : ObserverId) (k : MemKind) (b n : Nat) : (s.record o k b n).self = s.self := rfl
@[simp] theorem State.record_hart (s : State) (o : ObserverId) (k : MemKind) (b n : Nat) : (s.record o k b n).hart = s.hart := rfl
@[simp] theorem State.record_others (s : State) (o : ObserverId) (k : MemKind) (b n : Nat) : (s.record o k b n).others = s.others := rfl
@[simp] theorem State.record_regions (s : State) (o : ObserverId) (k : MemKind) (b n : Nat) : (s.record o k b n).regions = s.regions := rfl
@[simp] theorem State.record_mem (s : State) (o : ObserverId) (k : MemKind) (b n : Nat) : (s.record o k b n).mem = s.mem := rfl
@[simp] theorem State.record_cache (s : State) (o : ObserverId) (k : MemKind) (b n : Nat) : (s.record o k b n).cache = s.cache := rfl
@[simp] theorem State.record_reservations (s : State) (o : ObserverId) (k : MemKind) (b n : Nat) : (s.record o k b n).reservations = s.reservations := rfl
@[simp] theorem State.record_fetchLog (s : State) (o : ObserverId) (k : MemKind) (b n : Nat) : (s.record o k b n).fetchLog = s.fetchLog := rfl
@[simp] theorem State.record_lastLoad (s : State) (o : ObserverId) (k : MemKind) (b n : Nat) : (s.record o k b n).lastLoad = s.lastLoad := rfl
@[simp] theorem State.record_schedule (s : State) (o : ObserverId) (k : MemKind) (b n : Nat) : (s.record o k b n).schedule = s.schedule := rfl
@[simp] theorem State.record_zeroPlan (s : State) (o : ObserverId) (k : MemKind) (b n : Nat) : (s.record o k b n).zeroPlan = s.zeroPlan := rfl
@[simp] theorem State.record_hintFills (s : State) (o : ObserverId) (k : MemKind) (b n : Nat) : (s.record o k b n).hintFills = s.hintFills := rfl
@[simp] theorem State.record_free (s : State) (o : ObserverId) (k : MemKind) (b n : Nat) : (s.record o k b n).free = s.free := rfl

@[simp] theorem State.record_gmo (s : State) (o : ObserverId) (k : MemKind) (b n : Nat) :
    (s.record o k b n).gmo = { observer := o, kind := k, base := b, size := n } :: s.gmo := rfl

/-! ### A management operation -/

@[simp] theorem State.recordBlock_cfg (s : State) (k : MemKind) (pa : Nat) : (s.recordBlock k pa).cfg = s.cfg := rfl
@[simp] theorem State.recordBlock_self (s : State) (k : MemKind) (pa : Nat) : (s.recordBlock k pa).self = s.self := rfl
@[simp] theorem State.recordBlock_hart (s : State) (k : MemKind) (pa : Nat) : (s.recordBlock k pa).hart = s.hart := rfl
@[simp] theorem State.recordBlock_others (s : State) (k : MemKind) (pa : Nat) : (s.recordBlock k pa).others = s.others := rfl
@[simp] theorem State.recordBlock_regions (s : State) (k : MemKind) (pa : Nat) : (s.recordBlock k pa).regions = s.regions := rfl
@[simp] theorem State.recordBlock_mem (s : State) (k : MemKind) (pa : Nat) : (s.recordBlock k pa).mem = s.mem := rfl
@[simp] theorem State.recordBlock_cache (s : State) (k : MemKind) (pa : Nat) : (s.recordBlock k pa).cache = s.cache := rfl
@[simp] theorem State.recordBlock_reservations (s : State) (k : MemKind) (pa : Nat) : (s.recordBlock k pa).reservations = s.reservations := rfl
@[simp] theorem State.recordBlock_fetchLog (s : State) (k : MemKind) (pa : Nat) : (s.recordBlock k pa).fetchLog = s.fetchLog := rfl
@[simp] theorem State.recordBlock_lastLoad (s : State) (k : MemKind) (pa : Nat) : (s.recordBlock k pa).lastLoad = s.lastLoad := rfl
@[simp] theorem State.recordBlock_schedule (s : State) (k : MemKind) (pa : Nat) : (s.recordBlock k pa).schedule = s.schedule := rfl
@[simp] theorem State.recordBlock_zeroPlan (s : State) (k : MemKind) (pa : Nat) : (s.recordBlock k pa).zeroPlan = s.zeroPlan := rfl
@[simp] theorem State.recordBlock_hintFills (s : State) (k : MemKind) (pa : Nat) : (s.recordBlock k pa).hintFills = s.hintFills := rfl
@[simp] theorem State.recordBlock_free (s : State) (k : MemKind) (pa : Nat) : (s.recordBlock k pa).free = s.free := rfl

@[simp] theorem State.recordBlock_gmo (s : State) (k : MemKind) (pa : Nat) :
    (s.recordBlock k pa).gmo = { observer := s.self, kind := k, base := s.blockBase pa, size := s.cfg.cbs } :: s.gmo := rfl

/-! ### Completing an instruction -/

@[simp] theorem State.retire_cfg (s : State)  : (s.retire ).cfg = s.cfg := rfl
@[simp] theorem State.retire_self (s : State)  : (s.retire ).self = s.self := rfl
@[simp] theorem State.retire_others (s : State)  : (s.retire ).others = s.others := rfl
@[simp] theorem State.retire_regions (s : State)  : (s.retire ).regions = s.regions := rfl
@[simp] theorem State.retire_mem (s : State)  : (s.retire ).mem = s.mem := rfl
@[simp] theorem State.retire_cache (s : State)  : (s.retire ).cache = s.cache := rfl
@[simp] theorem State.retire_gmo (s : State)  : (s.retire ).gmo = s.gmo := rfl
@[simp] theorem State.retire_fetchLog (s : State)  : (s.retire ).fetchLog = s.fetchLog := rfl
@[simp] theorem State.retire_lastLoad (s : State)  : (s.retire ).lastLoad = s.lastLoad := rfl
@[simp] theorem State.retire_schedule (s : State)  : (s.retire ).schedule = s.schedule := rfl
@[simp] theorem State.retire_zeroPlan (s : State)  : (s.retire ).zeroPlan = s.zeroPlan := rfl
@[simp] theorem State.retire_hintFills (s : State)  : (s.retire ).hintFills = s.hintFills := rfl

@[simp] theorem State.retire_hart (s : State) :
    s.retire.hart = { s.hart with pc := s.cfg.trunc (s.hart.pc + 4#64), pending := none } := rfl
@[simp] theorem State.retire_free (s : State) : s.retire.free = s.free + 1 := rfl

/-- No reservation is new after an instruction has completed. -/
theorem State.mem_retire_reservations {s : State} {r : Reservation} (h : r ∈ s.retire.reservations) :
    r ∈ s.reservations := (List.mem_filter.mp h).1

/-! ### An instruction not yet complete -/

@[simp] theorem State.suspend_cfg (s : State) (p : Pending) : (s.suspend p).cfg = s.cfg := rfl
@[simp] theorem State.suspend_self (s : State) (p : Pending) : (s.suspend p).self = s.self := rfl
@[simp] theorem State.suspend_others (s : State) (p : Pending) : (s.suspend p).others = s.others := rfl
@[simp] theorem State.suspend_regions (s : State) (p : Pending) : (s.suspend p).regions = s.regions := rfl
@[simp] theorem State.suspend_mem (s : State) (p : Pending) : (s.suspend p).mem = s.mem := rfl
@[simp] theorem State.suspend_cache (s : State) (p : Pending) : (s.suspend p).cache = s.cache := rfl
@[simp] theorem State.suspend_gmo (s : State) (p : Pending) : (s.suspend p).gmo = s.gmo := rfl
@[simp] theorem State.suspend_fetchLog (s : State) (p : Pending) : (s.suspend p).fetchLog = s.fetchLog := rfl
@[simp] theorem State.suspend_lastLoad (s : State) (p : Pending) : (s.suspend p).lastLoad = s.lastLoad := rfl
@[simp] theorem State.suspend_schedule (s : State) (p : Pending) : (s.suspend p).schedule = s.schedule := rfl
@[simp] theorem State.suspend_zeroPlan (s : State) (p : Pending) : (s.suspend p).zeroPlan = s.zeroPlan := rfl
@[simp] theorem State.suspend_hintFills (s : State) (p : Pending) : (s.suspend p).hintFills = s.hintFills := rfl

@[simp] theorem State.suspend_hart (s : State) (p : Pending) : (s.suspend p).hart = { s.hart with pending := some p } := rfl
@[simp] theorem State.suspend_free (s : State) (p : Pending) : (s.suspend p).free = s.free + 1 := rfl

/-- No reservation is new after a step that leaves an instruction in progress. -/
theorem State.mem_suspend_reservations {s : State} {p : Pending} {r : Reservation} (h : r ∈ (s.suspend p).reservations) :
    r ∈ s.reservations := (List.mem_filter.mp h).1

/-! ### Taking an exception -/

@[simp] theorem State.trap_cfg (s : State) (e : Exc) : (s.trap e).cfg = s.cfg := rfl
@[simp] theorem State.trap_self (s : State) (e : Exc) : (s.trap e).self = s.self := rfl
@[simp] theorem State.trap_others (s : State) (e : Exc) : (s.trap e).others = s.others := rfl
@[simp] theorem State.trap_regions (s : State) (e : Exc) : (s.trap e).regions = s.regions := rfl
@[simp] theorem State.trap_mem (s : State) (e : Exc) : (s.trap e).mem = s.mem := rfl
@[simp] theorem State.trap_cache (s : State) (e : Exc) : (s.trap e).cache = s.cache := rfl
@[simp] theorem State.trap_gmo (s : State) (e : Exc) : (s.trap e).gmo = s.gmo := rfl
/-- No reservation is new after an exception. -/
theorem State.mem_trap_reservations {s : State} {e : Exc} {r : Reservation} (h : r ∈ (s.trap e).reservations) :
    r ∈ s.reservations := (List.mem_filter.mp h).1
@[simp] theorem State.trap_fetchLog (s : State) (e : Exc) : (s.trap e).fetchLog = s.fetchLog := rfl
@[simp] theorem State.trap_lastLoad (s : State) (e : Exc) : (s.trap e).lastLoad = s.lastLoad := rfl
@[simp] theorem State.trap_schedule (s : State) (e : Exc) : (s.trap e).schedule = s.schedule := rfl
@[simp] theorem State.trap_zeroPlan (s : State) (e : Exc) : (s.trap e).zeroPlan = s.zeroPlan := rfl
@[simp] theorem State.trap_hintFills (s : State) (e : Exc) : (s.trap e).hintFills = s.hintFills := rfl

@[simp] theorem State.trap_hart (s : State) (e : Exc) : (s.trap e).hart = trapHart s.cfg s.free s.hart e := rfl
@[simp] theorem State.trap_free (s : State) (e : Exc) : (s.trap e).free = s.free + 1 := rfl

/-! ### A store -/

@[simp] theorem State.store_cfg (s : State) (o : ObserverId) (pa : Nat) (v : List Byte) : (s.store o pa v).cfg = s.cfg := by
  unfold State.store; split <;> rfl
@[simp] theorem State.store_self (s : State) (o : ObserverId) (pa : Nat) (v : List Byte) : (s.store o pa v).self = s.self := by
  unfold State.store; split <;> rfl
@[simp] theorem State.store_hart (s : State) (o : ObserverId) (pa : Nat) (v : List Byte) : (s.store o pa v).hart = s.hart := by
  unfold State.store; split <;> rfl
@[simp] theorem State.store_others (s : State) (o : ObserverId) (pa : Nat) (v : List Byte) : (s.store o pa v).others = s.others := by
  unfold State.store; split <;> rfl
@[simp] theorem State.store_regions (s : State) (o : ObserverId) (pa : Nat) (v : List Byte) : (s.store o pa v).regions = s.regions := by
  unfold State.store; split <;> rfl
@[simp] theorem State.store_gmo (s : State) (o : ObserverId) (pa : Nat) (v : List Byte) : (s.store o pa v).gmo = s.gmo := by
  unfold State.store; split <;> rfl
@[simp] theorem State.store_reservations (s : State) (o : ObserverId) (pa : Nat) (v : List Byte) : (s.store o pa v).reservations = s.reservations := by
  unfold State.store; split <;> rfl
@[simp] theorem State.store_fetchLog (s : State) (o : ObserverId) (pa : Nat) (v : List Byte) : (s.store o pa v).fetchLog = s.fetchLog := by
  unfold State.store; split <;> rfl
@[simp] theorem State.store_lastLoad (s : State) (o : ObserverId) (pa : Nat) (v : List Byte) : (s.store o pa v).lastLoad = s.lastLoad := by
  unfold State.store; split <;> rfl
@[simp] theorem State.store_schedule (s : State) (o : ObserverId) (pa : Nat) (v : List Byte) : (s.store o pa v).schedule = s.schedule := by
  unfold State.store; split <;> rfl
@[simp] theorem State.store_zeroPlan (s : State) (o : ObserverId) (pa : Nat) (v : List Byte) : (s.store o pa v).zeroPlan = s.zeroPlan := by
  unfold State.store; split <;> rfl
@[simp] theorem State.store_hintFills (s : State) (o : ObserverId) (pa : Nat) (v : List Byte) : (s.store o pa v).hintFills = s.hintFills := by
  unfold State.store; split <;> rfl
@[simp] theorem State.store_free (s : State) (o : ObserverId) (pa : Nat) (v : List Byte) : (s.store o pa v).free = s.free := by
  unfold State.store; split <;> rfl

/-! ### A store in the global memory order -/

@[simp] theorem State.observerStore_cfg (s : State) (o : ObserverId) (pa : Nat) (v : List Byte) : (s.observerStore o pa v).cfg = s.cfg := by
  simp [State.observerStore]
@[simp] theorem State.observerStore_self (s : State) (o : ObserverId) (pa : Nat) (v : List Byte) : (s.observerStore o pa v).self = s.self := by
  simp [State.observerStore]
@[simp] theorem State.observerStore_hart (s : State) (o : ObserverId) (pa : Nat) (v : List Byte) : (s.observerStore o pa v).hart = s.hart := by
  simp [State.observerStore]
@[simp] theorem State.observerStore_others (s : State) (o : ObserverId) (pa : Nat) (v : List Byte) : (s.observerStore o pa v).others = s.others := by
  simp [State.observerStore]
@[simp] theorem State.observerStore_regions (s : State) (o : ObserverId) (pa : Nat) (v : List Byte) : (s.observerStore o pa v).regions = s.regions := by
  simp [State.observerStore]
@[simp] theorem State.observerStore_lastLoad (s : State) (o : ObserverId) (pa : Nat) (v : List Byte) : (s.observerStore o pa v).lastLoad = s.lastLoad := by
  simp [State.observerStore]
@[simp] theorem State.observerStore_schedule (s : State) (o : ObserverId) (pa : Nat) (v : List Byte) : (s.observerStore o pa v).schedule = s.schedule := by
  simp [State.observerStore]
@[simp] theorem State.observerStore_zeroPlan (s : State) (o : ObserverId) (pa : Nat) (v : List Byte) : (s.observerStore o pa v).zeroPlan = s.zeroPlan := by
  simp [State.observerStore]
@[simp] theorem State.observerStore_hintFills (s : State) (o : ObserverId) (pa : Nat) (v : List Byte) : (s.observerStore o pa v).hintFills = s.hintFills := by
  simp [State.observerStore]
@[simp] theorem State.observerStore_free (s : State) (o : ObserverId) (pa : Nat) (v : List Byte) : (s.observerStore o pa v).free = s.free := by
  simp [State.observerStore]

@[simp] theorem State.observerStore_mem (s : State) (o : ObserverId) (pa : Nat) (v : List Byte) :
    (s.observerStore o pa v).mem = (s.store o pa v).mem := rfl
@[simp] theorem State.observerStore_cache (s : State) (o : ObserverId) (pa : Nat) (v : List Byte) :
    (s.observerStore o pa v).cache = (s.store o pa v).cache := rfl
@[simp] theorem State.observerStore_gmo (s : State) (o : ObserverId) (pa : Nat) (v : List Byte) :
    (s.observerStore o pa v).gmo = { observer := o, kind := .store, base := pa, size := v.length } :: s.gmo := by
  simp [State.observerStore]
@[simp] theorem State.observerStore_fetchLog (s : State) (o : ObserverId) (pa : Nat) (v : List Byte) :
    (s.observerStore o pa v).fetchLog = .changed pa v.length :: s.fetchLog := by simp [State.observerStore]

/-- No reservation is new after a store. -/
theorem State.mem_observerStore_reservations {s : State} {o : ObserverId} {pa : Nat} {v : List Byte} {r : Reservation}
    (h : r ∈ (s.observerStore o pa v).reservations) : r ∈ s.reservations := (List.mem_filter.mp h).1

/-! ### A dirty block written to memory -/

@[simp] theorem State.writeDirty_cfg (s : State) (o : ObserverId) (pa : Nat) : (s.writeDirty o pa).cfg = s.cfg := by
  unfold State.writeDirty; split <;> [rfl; (split <;> simp)]
@[simp] theorem State.writeDirty_self (s : State) (o : ObserverId) (pa : Nat) : (s.writeDirty o pa).self = s.self := by
  unfold State.writeDirty; split <;> [rfl; (split <;> simp)]
@[simp] theorem State.writeDirty_hart (s : State) (o : ObserverId) (pa : Nat) : (s.writeDirty o pa).hart = s.hart := by
  unfold State.writeDirty; split <;> [rfl; (split <;> simp)]
@[simp] theorem State.writeDirty_others (s : State) (o : ObserverId) (pa : Nat) : (s.writeDirty o pa).others = s.others := by
  unfold State.writeDirty; split <;> [rfl; (split <;> simp)]
@[simp] theorem State.writeDirty_regions (s : State) (o : ObserverId) (pa : Nat) : (s.writeDirty o pa).regions = s.regions := by
  unfold State.writeDirty; split <;> [rfl; (split <;> simp)]
@[simp] theorem State.writeDirty_gmo (s : State) (o : ObserverId) (pa : Nat) : (s.writeDirty o pa).gmo = s.gmo := by
  unfold State.writeDirty; split <;> [rfl; (split <;> simp)]
@[simp] theorem State.writeDirty_reservations (s : State) (o : ObserverId) (pa : Nat) : (s.writeDirty o pa).reservations = s.reservations := by
  unfold State.writeDirty; split <;> [rfl; (split <;> simp)]
@[simp] theorem State.writeDirty_lastLoad (s : State) (o : ObserverId) (pa : Nat) : (s.writeDirty o pa).lastLoad = s.lastLoad := by
  unfold State.writeDirty; split <;> [rfl; (split <;> simp)]
@[simp] theorem State.writeDirty_schedule (s : State) (o : ObserverId) (pa : Nat) : (s.writeDirty o pa).schedule = s.schedule := by
  unfold State.writeDirty; split <;> [rfl; (split <;> simp)]
@[simp] theorem State.writeDirty_zeroPlan (s : State) (o : ObserverId) (pa : Nat) : (s.writeDirty o pa).zeroPlan = s.zeroPlan := by
  unfold State.writeDirty; split <;> [rfl; (split <;> simp)]
@[simp] theorem State.writeDirty_hintFills (s : State) (o : ObserverId) (pa : Nat) : (s.writeDirty o pa).hintFills = s.hintFills := by
  unfold State.writeDirty; split <;> [rfl; (split <;> simp)]
@[simp] theorem State.writeDirty_free (s : State) (o : ObserverId) (pa : Nat) : (s.writeDirty o pa).free = s.free := by
  unfold State.writeDirty; split <;> [rfl; (split <;> simp)]

/-! ### WriteBack -/

@[simp] theorem State.writeBack_cfg (s : State) (o : ObserverId) (pa : Nat) : (s.writeBack o pa).cfg = s.cfg := by
  simp [State.writeBack]
@[simp] theorem State.writeBack_self (s : State) (o : ObserverId) (pa : Nat) : (s.writeBack o pa).self = s.self := by
  simp [State.writeBack]
@[simp] theorem State.writeBack_hart (s : State) (o : ObserverId) (pa : Nat) : (s.writeBack o pa).hart = s.hart := by
  simp [State.writeBack]
@[simp] theorem State.writeBack_others (s : State) (o : ObserverId) (pa : Nat) : (s.writeBack o pa).others = s.others := by
  simp [State.writeBack]
@[simp] theorem State.writeBack_regions (s : State) (o : ObserverId) (pa : Nat) : (s.writeBack o pa).regions = s.regions := by
  simp [State.writeBack]
@[simp] theorem State.writeBack_gmo (s : State) (o : ObserverId) (pa : Nat) : (s.writeBack o pa).gmo = s.gmo := by
  simp [State.writeBack]
@[simp] theorem State.writeBack_reservations (s : State) (o : ObserverId) (pa : Nat) : (s.writeBack o pa).reservations = s.reservations := by
  simp [State.writeBack]
@[simp] theorem State.writeBack_lastLoad (s : State) (o : ObserverId) (pa : Nat) : (s.writeBack o pa).lastLoad = s.lastLoad := by
  simp [State.writeBack]
@[simp] theorem State.writeBack_schedule (s : State) (o : ObserverId) (pa : Nat) : (s.writeBack o pa).schedule = s.schedule := by
  simp [State.writeBack]
@[simp] theorem State.writeBack_zeroPlan (s : State) (o : ObserverId) (pa : Nat) : (s.writeBack o pa).zeroPlan = s.zeroPlan := by
  simp [State.writeBack]
@[simp] theorem State.writeBack_hintFills (s : State) (o : ObserverId) (pa : Nat) : (s.writeBack o pa).hintFills = s.hintFills := by
  simp [State.writeBack]
@[simp] theorem State.writeBack_free (s : State) (o : ObserverId) (pa : Nat) : (s.writeBack o pa).free = s.free := by
  simp [State.writeBack]

/-! ### Clean -/

@[simp] theorem State.clean_cfg (s : State) (o : ObserverId) (pa : Nat) : (s.clean o pa).cfg = s.cfg := by
  simp [State.clean]
@[simp] theorem State.clean_self (s : State) (o : ObserverId) (pa : Nat) : (s.clean o pa).self = s.self := by
  simp [State.clean]
@[simp] theorem State.clean_hart (s : State) (o : ObserverId) (pa : Nat) : (s.clean o pa).hart = s.hart := by
  simp [State.clean]
@[simp] theorem State.clean_others (s : State) (o : ObserverId) (pa : Nat) : (s.clean o pa).others = s.others := by
  simp [State.clean]
@[simp] theorem State.clean_regions (s : State) (o : ObserverId) (pa : Nat) : (s.clean o pa).regions = s.regions := by
  simp [State.clean]
@[simp] theorem State.clean_gmo (s : State) (o : ObserverId) (pa : Nat) : (s.clean o pa).gmo = s.gmo := by
  simp [State.clean]
@[simp] theorem State.clean_reservations (s : State) (o : ObserverId) (pa : Nat) : (s.clean o pa).reservations = s.reservations := by
  simp [State.clean]
@[simp] theorem State.clean_lastLoad (s : State) (o : ObserverId) (pa : Nat) : (s.clean o pa).lastLoad = s.lastLoad := by
  simp [State.clean]
@[simp] theorem State.clean_schedule (s : State) (o : ObserverId) (pa : Nat) : (s.clean o pa).schedule = s.schedule := by
  simp [State.clean]
@[simp] theorem State.clean_zeroPlan (s : State) (o : ObserverId) (pa : Nat) : (s.clean o pa).zeroPlan = s.zeroPlan := by
  simp [State.clean]
@[simp] theorem State.clean_hintFills (s : State) (o : ObserverId) (pa : Nat) : (s.clean o pa).hintFills = s.hintFills := by
  simp [State.clean]
@[simp] theorem State.clean_free (s : State) (o : ObserverId) (pa : Nat) : (s.clean o pa).free = s.free := by
  simp [State.clean]

/-! ### Invalidate -/

@[simp] theorem State.invalidate_cfg (s : State) (o : ObserverId) (pa : Nat) : (s.invalidate o pa).cfg = s.cfg := by
  simp [State.invalidate]
@[simp] theorem State.invalidate_self (s : State) (o : ObserverId) (pa : Nat) : (s.invalidate o pa).self = s.self := by
  simp [State.invalidate]
@[simp] theorem State.invalidate_hart (s : State) (o : ObserverId) (pa : Nat) : (s.invalidate o pa).hart = s.hart := by
  simp [State.invalidate]
@[simp] theorem State.invalidate_others (s : State) (o : ObserverId) (pa : Nat) : (s.invalidate o pa).others = s.others := by
  simp [State.invalidate]
@[simp] theorem State.invalidate_regions (s : State) (o : ObserverId) (pa : Nat) : (s.invalidate o pa).regions = s.regions := by
  simp [State.invalidate]
@[simp] theorem State.invalidate_mem (s : State) (o : ObserverId) (pa : Nat) : (s.invalidate o pa).mem = s.mem := by
  simp [State.invalidate]
@[simp] theorem State.invalidate_gmo (s : State) (o : ObserverId) (pa : Nat) : (s.invalidate o pa).gmo = s.gmo := by
  simp [State.invalidate]
@[simp] theorem State.invalidate_reservations (s : State) (o : ObserverId) (pa : Nat) : (s.invalidate o pa).reservations = s.reservations := by
  simp [State.invalidate]
@[simp] theorem State.invalidate_lastLoad (s : State) (o : ObserverId) (pa : Nat) : (s.invalidate o pa).lastLoad = s.lastLoad := by
  simp [State.invalidate]
@[simp] theorem State.invalidate_schedule (s : State) (o : ObserverId) (pa : Nat) : (s.invalidate o pa).schedule = s.schedule := by
  simp [State.invalidate]
@[simp] theorem State.invalidate_zeroPlan (s : State) (o : ObserverId) (pa : Nat) : (s.invalidate o pa).zeroPlan = s.zeroPlan := by
  simp [State.invalidate]
@[simp] theorem State.invalidate_hintFills (s : State) (o : ObserverId) (pa : Nat) : (s.invalidate o pa).hintFills = s.hintFills := by
  simp [State.invalidate]
@[simp] theorem State.invalidate_free (s : State) (o : ObserverId) (pa : Nat) : (s.invalidate o pa).free = s.free := by
  simp [State.invalidate]

/-! ### Flush -/

@[simp] theorem State.flush_cfg (s : State) (o : ObserverId) (pa : Nat) : (s.flush o pa).cfg = s.cfg := by
  simp [State.flush]
@[simp] theorem State.flush_self (s : State) (o : ObserverId) (pa : Nat) : (s.flush o pa).self = s.self := by
  simp [State.flush]
@[simp] theorem State.flush_hart (s : State) (o : ObserverId) (pa : Nat) : (s.flush o pa).hart = s.hart := by
  simp [State.flush]
@[simp] theorem State.flush_others (s : State) (o : ObserverId) (pa : Nat) : (s.flush o pa).others = s.others := by
  simp [State.flush]
@[simp] theorem State.flush_regions (s : State) (o : ObserverId) (pa : Nat) : (s.flush o pa).regions = s.regions := by
  simp [State.flush]
@[simp] theorem State.flush_gmo (s : State) (o : ObserverId) (pa : Nat) : (s.flush o pa).gmo = s.gmo := by
  simp [State.flush]
@[simp] theorem State.flush_reservations (s : State) (o : ObserverId) (pa : Nat) : (s.flush o pa).reservations = s.reservations := by
  simp [State.flush]
@[simp] theorem State.flush_lastLoad (s : State) (o : ObserverId) (pa : Nat) : (s.flush o pa).lastLoad = s.lastLoad := by
  simp [State.flush]
@[simp] theorem State.flush_schedule (s : State) (o : ObserverId) (pa : Nat) : (s.flush o pa).schedule = s.schedule := by
  simp [State.flush]
@[simp] theorem State.flush_zeroPlan (s : State) (o : ObserverId) (pa : Nat) : (s.flush o pa).zeroPlan = s.zeroPlan := by
  simp [State.flush]
@[simp] theorem State.flush_hintFills (s : State) (o : ObserverId) (pa : Nat) : (s.flush o pa).hintFills = s.hintFills := by
  simp [State.flush]
@[simp] theorem State.flush_free (s : State) (o : ObserverId) (pa : Nat) : (s.flush o pa).free = s.free := by
  simp [State.flush]

/-! ### Fill -/

@[simp] theorem State.fill_cfg (s : State) (o : ObserverId) (pa : Nat) : (s.fill o pa).cfg = s.cfg := by
  unfold State.fill; split <;> simp
@[simp] theorem State.fill_self (s : State) (o : ObserverId) (pa : Nat) : (s.fill o pa).self = s.self := by
  unfold State.fill; split <;> simp
@[simp] theorem State.fill_hart (s : State) (o : ObserverId) (pa : Nat) : (s.fill o pa).hart = s.hart := by
  unfold State.fill; split <;> simp
@[simp] theorem State.fill_others (s : State) (o : ObserverId) (pa : Nat) : (s.fill o pa).others = s.others := by
  unfold State.fill; split <;> simp
@[simp] theorem State.fill_regions (s : State) (o : ObserverId) (pa : Nat) : (s.fill o pa).regions = s.regions := by
  unfold State.fill; split <;> simp
@[simp] theorem State.fill_mem (s : State) (o : ObserverId) (pa : Nat) : (s.fill o pa).mem = s.mem := by
  unfold State.fill; split <;> simp
@[simp] theorem State.fill_gmo (s : State) (o : ObserverId) (pa : Nat) : (s.fill o pa).gmo = s.gmo := by
  unfold State.fill; split <;> simp
@[simp] theorem State.fill_reservations (s : State) (o : ObserverId) (pa : Nat) : (s.fill o pa).reservations = s.reservations := by
  unfold State.fill; split <;> simp
@[simp] theorem State.fill_lastLoad (s : State) (o : ObserverId) (pa : Nat) : (s.fill o pa).lastLoad = s.lastLoad := by
  unfold State.fill; split <;> simp
@[simp] theorem State.fill_schedule (s : State) (o : ObserverId) (pa : Nat) : (s.fill o pa).schedule = s.schedule := by
  unfold State.fill; split <;> simp
@[simp] theorem State.fill_zeroPlan (s : State) (o : ObserverId) (pa : Nat) : (s.fill o pa).zeroPlan = s.zeroPlan := by
  unfold State.fill; split <;> simp
@[simp] theorem State.fill_hintFills (s : State) (o : ObserverId) (pa : Nat) : (s.fill o pa).hintFills = s.hintFills := by
  unfold State.fill; split <;> simp
@[simp] theorem State.fill_free (s : State) (o : ObserverId) (pa : Nat) : (s.fill o pa).free = s.free := by
  unfold State.fill; split <;> simp

/-! ### Drop -/

@[simp] theorem State.drop_cfg (s : State) (o : ObserverId) (pa : Nat) : (s.drop o pa).cfg = s.cfg := by
  unfold State.drop; split <;> [rfl; (split <;> simp)]
@[simp] theorem State.drop_self (s : State) (o : ObserverId) (pa : Nat) : (s.drop o pa).self = s.self := by
  unfold State.drop; split <;> [rfl; (split <;> simp)]
@[simp] theorem State.drop_hart (s : State) (o : ObserverId) (pa : Nat) : (s.drop o pa).hart = s.hart := by
  unfold State.drop; split <;> [rfl; (split <;> simp)]
@[simp] theorem State.drop_others (s : State) (o : ObserverId) (pa : Nat) : (s.drop o pa).others = s.others := by
  unfold State.drop; split <;> [rfl; (split <;> simp)]
@[simp] theorem State.drop_regions (s : State) (o : ObserverId) (pa : Nat) : (s.drop o pa).regions = s.regions := by
  unfold State.drop; split <;> [rfl; (split <;> simp)]
@[simp] theorem State.drop_mem (s : State) (o : ObserverId) (pa : Nat) : (s.drop o pa).mem = s.mem := by
  unfold State.drop; split <;> [rfl; (split <;> simp)]
@[simp] theorem State.drop_gmo (s : State) (o : ObserverId) (pa : Nat) : (s.drop o pa).gmo = s.gmo := by
  unfold State.drop; split <;> [rfl; (split <;> simp)]
@[simp] theorem State.drop_reservations (s : State) (o : ObserverId) (pa : Nat) : (s.drop o pa).reservations = s.reservations := by
  unfold State.drop; split <;> [rfl; (split <;> simp)]
@[simp] theorem State.drop_lastLoad (s : State) (o : ObserverId) (pa : Nat) : (s.drop o pa).lastLoad = s.lastLoad := by
  unfold State.drop; split <;> [rfl; (split <;> simp)]
@[simp] theorem State.drop_schedule (s : State) (o : ObserverId) (pa : Nat) : (s.drop o pa).schedule = s.schedule := by
  unfold State.drop; split <;> [rfl; (split <;> simp)]
@[simp] theorem State.drop_zeroPlan (s : State) (o : ObserverId) (pa : Nat) : (s.drop o pa).zeroPlan = s.zeroPlan := by
  unfold State.drop; split <;> [rfl; (split <;> simp)]
@[simp] theorem State.drop_hintFills (s : State) (o : ObserverId) (pa : Nat) : (s.drop o pa).hintFills = s.hintFills := by
  unfold State.drop; split <;> [rfl; (split <;> simp)]
@[simp] theorem State.drop_free (s : State) (o : ObserverId) (pa : Nat) : (s.drop o pa).free = s.free := by
  unfold State.drop; split <;> [rfl; (split <;> simp)]

/-! ### A load of an observer -/

@[simp] theorem State.observerLoad_cfg (s : State) (o : ObserverId) (pa n : Nat) : (s.observerLoad o pa n).cfg = s.cfg := rfl
@[simp] theorem State.observerLoad_self (s : State) (o : ObserverId) (pa n : Nat) : (s.observerLoad o pa n).self = s.self := rfl
@[simp] theorem State.observerLoad_hart (s : State) (o : ObserverId) (pa n : Nat) : (s.observerLoad o pa n).hart = s.hart := rfl
@[simp] theorem State.observerLoad_others (s : State) (o : ObserverId) (pa n : Nat) : (s.observerLoad o pa n).others = s.others := rfl
@[simp] theorem State.observerLoad_regions (s : State) (o : ObserverId) (pa n : Nat) : (s.observerLoad o pa n).regions = s.regions := rfl
@[simp] theorem State.observerLoad_mem (s : State) (o : ObserverId) (pa n : Nat) : (s.observerLoad o pa n).mem = s.mem := rfl
@[simp] theorem State.observerLoad_cache (s : State) (o : ObserverId) (pa n : Nat) : (s.observerLoad o pa n).cache = s.cache := rfl
@[simp] theorem State.observerLoad_reservations (s : State) (o : ObserverId) (pa n : Nat) : (s.observerLoad o pa n).reservations = s.reservations := rfl
@[simp] theorem State.observerLoad_fetchLog (s : State) (o : ObserverId) (pa n : Nat) : (s.observerLoad o pa n).fetchLog = s.fetchLog := rfl
@[simp] theorem State.observerLoad_schedule (s : State) (o : ObserverId) (pa n : Nat) : (s.observerLoad o pa n).schedule = s.schedule := rfl
@[simp] theorem State.observerLoad_zeroPlan (s : State) (o : ObserverId) (pa n : Nat) : (s.observerLoad o pa n).zeroPlan = s.zeroPlan := rfl
@[simp] theorem State.observerLoad_hintFills (s : State) (o : ObserverId) (pa n : Nat) : (s.observerLoad o pa n).hintFills = s.hintFills := rfl

@[simp] theorem State.goOn_cfg (s : State) (left : Nat) (e : Event) : (s.goOn left e).cfg = s.cfg := by
  unfold State.goOn; split <;> rfl
@[simp] theorem State.goOn_self (s : State) (left : Nat) (e : Event) : (s.goOn left e).self = s.self := by
  unfold State.goOn; split <;> rfl
@[simp] theorem State.goOn_hart (s : State) (left : Nat) (e : Event) : (s.goOn left e).hart = s.hart := by
  unfold State.goOn; split <;> rfl
@[simp] theorem State.goOn_others (s : State) (left : Nat) (e : Event) : (s.goOn left e).others = s.others := by
  unfold State.goOn; split <;> rfl
@[simp] theorem State.goOn_regions (s : State) (left : Nat) (e : Event) : (s.goOn left e).regions = s.regions := by
  unfold State.goOn; split <;> rfl
@[simp] theorem State.goOn_mem (s : State) (left : Nat) (e : Event) : (s.goOn left e).mem = s.mem := by
  unfold State.goOn; split <;> rfl
@[simp] theorem State.goOn_cache (s : State) (left : Nat) (e : Event) : (s.goOn left e).cache = s.cache := by
  unfold State.goOn; split <;> rfl
@[simp] theorem State.goOn_gmo (s : State) (left : Nat) (e : Event) : (s.goOn left e).gmo = s.gmo := by
  unfold State.goOn; split <;> rfl
@[simp] theorem State.goOn_reservations (s : State) (left : Nat) (e : Event) : (s.goOn left e).reservations = s.reservations := by
  unfold State.goOn; split <;> rfl
@[simp] theorem State.goOn_fetchLog (s : State) (left : Nat) (e : Event) : (s.goOn left e).fetchLog = s.fetchLog := by
  unfold State.goOn; split <;> rfl
@[simp] theorem State.goOn_lastLoad (s : State) (left : Nat) (e : Event) : (s.goOn left e).lastLoad = s.lastLoad := by
  unfold State.goOn; split <;> rfl
@[simp] theorem State.goOn_zeroPlan (s : State) (left : Nat) (e : Event) : (s.goOn left e).zeroPlan = s.zeroPlan := by
  unfold State.goOn; split <;> rfl
@[simp] theorem State.goOn_hintFills (s : State) (left : Nat) (e : Event) : (s.goOn left e).hintFills = s.hintFills := by
  unfold State.goOn; split <;> rfl
@[simp] theorem State.goOn_free (s : State) (left : Nat) (e : Event) : (s.goOn left e).free = s.free := by
  unfold State.goOn; split <;> rfl
@[simp] theorem State.goOn_zero (s : State) (e : Event) : s.goOn 0 e = s := rfl

/-! ### The byte stores of `CBO.ZERO` -/

@[simp] theorem State.zeroBytes_cfg (s : State) (base : Nat) (ks : List Nat) : (s.zeroBytes base ks).cfg = s.cfg := by
  induction ks generalizing s with
  | nil => rfl
  | cons k ks ih => simp [State.zeroBytes, ih]
@[simp] theorem State.zeroBytes_self (s : State) (base : Nat) (ks : List Nat) : (s.zeroBytes base ks).self = s.self := by
  induction ks generalizing s with
  | nil => rfl
  | cons k ks ih => simp [State.zeroBytes, ih]
@[simp] theorem State.zeroBytes_hart (s : State) (base : Nat) (ks : List Nat) : (s.zeroBytes base ks).hart = s.hart := by
  induction ks generalizing s with
  | nil => rfl
  | cons k ks ih => simp [State.zeroBytes, ih]
@[simp] theorem State.zeroBytes_others (s : State) (base : Nat) (ks : List Nat) : (s.zeroBytes base ks).others = s.others := by
  induction ks generalizing s with
  | nil => rfl
  | cons k ks ih => simp [State.zeroBytes, ih]
@[simp] theorem State.zeroBytes_regions (s : State) (base : Nat) (ks : List Nat) : (s.zeroBytes base ks).regions = s.regions := by
  induction ks generalizing s with
  | nil => rfl
  | cons k ks ih => simp [State.zeroBytes, ih]
@[simp] theorem State.zeroBytes_lastLoad (s : State) (base : Nat) (ks : List Nat) : (s.zeroBytes base ks).lastLoad = s.lastLoad := by
  induction ks generalizing s with
  | nil => rfl
  | cons k ks ih => simp [State.zeroBytes, ih]
@[simp] theorem State.zeroBytes_schedule (s : State) (base : Nat) (ks : List Nat) : (s.zeroBytes base ks).schedule = s.schedule := by
  induction ks generalizing s with
  | nil => rfl
  | cons k ks ih => simp [State.zeroBytes, ih]
@[simp] theorem State.zeroBytes_zeroPlan (s : State) (base : Nat) (ks : List Nat) : (s.zeroBytes base ks).zeroPlan = s.zeroPlan := by
  induction ks generalizing s with
  | nil => rfl
  | cons k ks ih => simp [State.zeroBytes, ih]
@[simp] theorem State.zeroBytes_hintFills (s : State) (base : Nat) (ks : List Nat) : (s.zeroBytes base ks).hintFills = s.hintFills := by
  induction ks generalizing s with
  | nil => rfl
  | cons k ks ih => simp [State.zeroBytes, ih]
@[simp] theorem State.zeroBytes_free (s : State) (base : Nat) (ks : List Nat) : (s.zeroBytes base ks).free = s.free := by
  induction ks generalizing s with
  | nil => rfl
  | cons k ks ih => simp [State.zeroBytes, ih]

/-- No reservation is new after the byte stores. -/
theorem State.mem_zeroBytes_reservations {s : State} {base : Nat} {ks : List Nat} {r : Reservation}
    (h : r ∈ (s.zeroBytes base ks).reservations) : r ∈ s.reservations := by
  induction ks generalizing s with
  | nil => exact h
  | cons k ks ih => exact State.mem_observerStore_reservations (ih h)

end Sys2Proof.Machine
end

