-- ==== Sys2Proof/Laws/Address.lean ====
section
/-!
SUPPORT. Blocks, attributes, sets of coherent observers and cache keys depend on the configuration and the regions
alone: no operation changes them.
-/

namespace Sys2Proof.Machine

/-! ### Blocks (rules R10, R64) -/

theorem Config.cbs_pos (c : Config) : 0 < c.cbs := Nat.two_pow_pos _

theorem State.blockBase_le (s : State) (a : Nat) : s.blockBase a ≤ a := Nat.sub_le _ _

theorem State.lt_blockBase_add (s : State) (a : Nat) : a < s.blockBase a + s.cfg.cbs := by
  have := Nat.mod_lt a (Config.cbs_pos s.cfg); have := Nat.mod_le a s.cfg.cbs
  unfold State.blockBase; omega

theorem State.blockBase_mod (s : State) (a : Nat) : s.blockBase a % s.cfg.cbs = 0 := by
  unfold State.blockBase
  rw [show a - a % s.cfg.cbs = s.cfg.cbs * (a / s.cfg.cbs) by have := Nat.mod_add_div a s.cfg.cbs; omega]
  exact Nat.mul_mod_right _ _

/-- Offsets below the block size stay in the block. -/
theorem State.blockBase_add (s : State) (a : Nat) {k : Nat} (h : k < s.cfg.cbs) :
    s.blockBase (s.blockBase a + k) = s.blockBase a := by
  have hm : (s.blockBase a + k) % s.cfg.cbs = k := by
    rw [Nat.add_mod, s.blockBase_mod a, Nat.zero_add, Nat.mod_mod, Nat.mod_eq_of_lt h]
  have := s.blockBase_le a
  show s.blockBase a + k - (s.blockBase a + k) % s.cfg.cbs = s.blockBase a
  omega

@[simp] theorem State.blockBase_blockBase (s : State) (a : Nat) : s.blockBase (s.blockBase a) = s.blockBase a := by
  simpa using s.blockBase_add a (k := 0) (Config.cbs_pos s.cfg)

/-- The addresses of a block: from its base, `CBS` of them. -/
theorem State.mem_block {s : State} {pa a : Nat} :
    a ∈ s.block pa ↔ s.blockBase pa ≤ a ∧ a < s.blockBase pa + s.cfg.cbs := by
  simp only [State.block, List.mem_map, List.mem_range]
  constructor
  · rintro ⟨k, hk, rfl⟩; omega
  · rintro ⟨h1, h2⟩; exact ⟨a - s.blockBase pa, by omega, by omega⟩

/-- Two addresses are in one block exactly when they have one base. -/
theorem State.mem_block_iff_base {s : State} {pa a : Nat} : a ∈ s.block pa ↔ s.blockBase a = s.blockBase pa := by
  rw [State.mem_block]
  constructor
  · rintro ⟨h1, h2⟩
    have := s.blockBase_add pa (k := a - s.blockBase pa) (by omega)
    rwa [show s.blockBase pa + (a - s.blockBase pa) = a by omega] at this
  · intro h
    have h1 := s.blockBase_le a; have h2 := s.lt_blockBase_add a
    omega

theorem State.self_mem_block (s : State) (pa : Nat) : pa ∈ s.block pa := State.mem_block_iff_base.mpr rfl

/-! ### What depends on the configuration and the regions alone -/

variable {s t : State}

theorem State.attrs_congr (hc : t.cfg = s.cfg) (hr : t.regions = s.regions) : t.attrs = s.attrs := by
  funext pa; simp [State.attrs, hc, hr]

theorem State.exist_congr (hc : t.cfg = s.cfg) (hr : t.regions = s.regions) : t.exist = s.exist := by
  funext pa; simp [State.exist, State.attrs_congr hc hr]

theorem State.blockBase_congr (hc : t.cfg = s.cfg) : t.blockBase = s.blockBase := by
  funext a; simp [State.blockBase, hc]

theorem State.cset_congr (hc : t.cfg = s.cfg) (hr : t.regions = s.regions) : t.cset = s.cset := by
  funext o pa; simp [State.cset, State.attrs_congr hc hr, State.blockBase_congr hc, hc]

theorem State.block_congr (hc : t.cfg = s.cfg) : t.block = s.block := by
  funext a; simp [State.block, State.blockBase_congr hc, hc]

theorem State.keyOf_congr (hc : t.cfg = s.cfg) (hr : t.regions = s.regions) : t.keyOf = s.keyOf := by
  funext o pa; simp [State.keyOf, State.cset_congr hc hr, State.blockBase_congr hc]

theorem State.setCached_congr (hc : t.cfg = s.cfg) : t.setCached = s.setCached := by
  funext set; simp [State.setCached, hc]

/-! ### withHart -/

@[simp] theorem State.attrs_withHart (s : State) (h : Hart) : (s.withHart h).attrs = s.attrs :=
  State.attrs_congr (by simp) (by simp)
@[simp] theorem State.cset_withHart (s : State) (h : Hart) : (s.withHart h).cset = s.cset :=
  State.cset_congr (by simp) (by simp)
@[simp] theorem State.keyOf_withHart (s : State) (h : Hart) : (s.withHart h).keyOf = s.keyOf :=
  State.keyOf_congr (by simp) (by simp)
@[simp] theorem State.blockBase_withHart (s : State) (h : Hart) : (s.withHart h).blockBase = s.blockBase :=
  State.blockBase_congr (by simp)
@[simp] theorem State.block_withHart (s : State) (h : Hart) : (s.withHart h).block = s.block :=
  State.block_congr (by simp)
@[simp] theorem State.setCached_withHart (s : State) (h : Hart) : (s.withHart h).setCached = s.setCached :=
  State.setCached_congr (by simp)

/-! ### writeX -/

@[simp] theorem State.attrs_writeX (s : State) (i : RegNum) (v : Word) : (s.writeX i v).attrs = s.attrs :=
  State.attrs_congr (by simp) (by simp)
@[simp] theorem State.cset_writeX (s : State) (i : RegNum) (v : Word) : (s.writeX i v).cset = s.cset :=
  State.cset_congr (by simp) (by simp)
@[simp] theorem State.keyOf_writeX (s : State) (i : RegNum) (v : Word) : (s.writeX i v).keyOf = s.keyOf :=
  State.keyOf_congr (by simp) (by simp)
@[simp] theorem State.blockBase_writeX (s : State) (i : RegNum) (v : Word) : (s.writeX i v).blockBase = s.blockBase :=
  State.blockBase_congr (by simp)
@[simp] theorem State.block_writeX (s : State) (i : RegNum) (v : Word) : (s.writeX i v).block = s.block :=
  State.block_congr (by simp)
@[simp] theorem State.setCached_writeX (s : State) (i : RegNum) (v : Word) : (s.writeX i v).setCached = s.setCached :=
  State.setCached_congr (by simp)

/-! ### setLine -/

@[simp] theorem State.attrs_setLine (s : State) (o : ObserverId) (pa : Nat) (l : Line) : (s.setLine o pa l).attrs = s.attrs :=
  State.attrs_congr (by simp) (by simp)
@[simp] theorem State.cset_setLine (s : State) (o : ObserverId) (pa : Nat) (l : Line) : (s.setLine o pa l).cset = s.cset :=
  State.cset_congr (by simp) (by simp)
@[simp] theorem State.keyOf_setLine (s : State) (o : ObserverId) (pa : Nat) (l : Line) : (s.setLine o pa l).keyOf = s.keyOf :=
  State.keyOf_congr (by simp) (by simp)
@[simp] theorem State.blockBase_setLine (s : State) (o : ObserverId) (pa : Nat) (l : Line) : (s.setLine o pa l).blockBase = s.blockBase :=
  State.blockBase_congr (by simp)
@[simp] theorem State.block_setLine (s : State) (o : ObserverId) (pa : Nat) (l : Line) : (s.setLine o pa l).block = s.block :=
  State.block_congr (by simp)
@[simp] theorem State.setCached_setLine (s : State) (o : ObserverId) (pa : Nat) (l : Line) : (s.setLine o pa l).setCached = s.setCached :=
  State.setCached_congr (by simp)

/-! ### dropLine -/

@[simp] theorem State.attrs_dropLine (s : State) (o : ObserverId) (pa : Nat) : (s.dropLine o pa).attrs = s.attrs :=
  State.attrs_congr (by simp) (by simp)
@[simp] theorem State.cset_dropLine (s : State) (o : ObserverId) (pa : Nat) : (s.dropLine o pa).cset = s.cset :=
  State.cset_congr (by simp) (by simp)
@[simp] theorem State.keyOf_dropLine (s : State) (o : ObserverId) (pa : Nat) : (s.dropLine o pa).keyOf = s.keyOf :=
  State.keyOf_congr (by simp) (by simp)
@[simp] theorem State.blockBase_dropLine (s : State) (o : ObserverId) (pa : Nat) : (s.dropLine o pa).blockBase = s.blockBase :=
  State.blockBase_congr (by simp)
@[simp] theorem State.block_dropLine (s : State) (o : ObserverId) (pa : Nat) : (s.dropLine o pa).block = s.block :=
  State.block_congr (by simp)
@[simp] theorem State.setCached_dropLine (s : State) (o : ObserverId) (pa : Nat) : (s.dropLine o pa).setCached = s.setCached :=
  State.setCached_congr (by simp)

/-! ### markChanged -/

@[simp] theorem State.attrs_markChanged (s : State) (b n : Nat) : (s.markChanged b n).attrs = s.attrs :=
  State.attrs_congr (by simp) (by simp)
@[simp] theorem State.cset_markChanged (s : State) (b n : Nat) : (s.markChanged b n).cset = s.cset :=
  State.cset_congr (by simp) (by simp)
@[simp] theorem State.keyOf_markChanged (s : State) (b n : Nat) : (s.markChanged b n).keyOf = s.keyOf :=
  State.keyOf_congr (by simp) (by simp)
@[simp] theorem State.blockBase_markChanged (s : State) (b n : Nat) : (s.markChanged b n).blockBase = s.blockBase :=
  State.blockBase_congr (by simp)
@[simp] theorem State.block_markChanged (s : State) (b n : Nat) : (s.markChanged b n).block = s.block :=
  State.block_congr (by simp)
@[simp] theorem State.setCached_markChanged (s : State) (b n : Nat) : (s.markChanged b n).setCached = s.setCached :=
  State.setCached_congr (by simp)

/-! ### markDiffering -/

@[simp] theorem State.attrs_markDiffering (s : State) (o : ObserverId) (pa : Nat) : (s.markDiffering o pa).attrs = s.attrs :=
  State.attrs_congr (by simp) (by simp)
@[simp] theorem State.cset_markDiffering (s : State) (o : ObserverId) (pa : Nat) : (s.markDiffering o pa).cset = s.cset :=
  State.cset_congr (by simp) (by simp)
@[simp] theorem State.keyOf_markDiffering (s : State) (o : ObserverId) (pa : Nat) : (s.markDiffering o pa).keyOf = s.keyOf :=
  State.keyOf_congr (by simp) (by simp)
@[simp] theorem State.blockBase_markDiffering (s : State) (o : ObserverId) (pa : Nat) : (s.markDiffering o pa).blockBase = s.blockBase :=
  State.blockBase_congr (by simp)
@[simp] theorem State.block_markDiffering (s : State) (o : ObserverId) (pa : Nat) : (s.markDiffering o pa).block = s.block :=
  State.block_congr (by simp)
@[simp] theorem State.setCached_markDiffering (s : State) (o : ObserverId) (pa : Nat) : (s.markDiffering o pa).setCached = s.setCached :=
  State.setCached_congr (by simp)

/-! ### record -/

@[simp] theorem State.attrs_record (s : State) (o : ObserverId) (k : MemKind) (b n : Nat) : (s.record o k b n).attrs = s.attrs :=
  State.attrs_congr (by simp) (by simp)
@[simp] theorem State.cset_record (s : State) (o : ObserverId) (k : MemKind) (b n : Nat) : (s.record o k b n).cset = s.cset :=
  State.cset_congr (by simp) (by simp)
@[simp] theorem State.keyOf_record (s : State) (o : ObserverId) (k : MemKind) (b n : Nat) : (s.record o k b n).keyOf = s.keyOf :=
  State.keyOf_congr (by simp) (by simp)
@[simp] theorem State.blockBase_record (s : State) (o : ObserverId) (k : MemKind) (b n : Nat) : (s.record o k b n).blockBase = s.blockBase :=
  State.blockBase_congr (by simp)
@[simp] theorem State.block_record (s : State) (o : ObserverId) (k : MemKind) (b n : Nat) : (s.record o k b n).block = s.block :=
  State.block_congr (by simp)
@[simp] theorem State.setCached_record (s : State) (o : ObserverId) (k : MemKind) (b n : Nat) : (s.record o k b n).setCached = s.setCached :=
  State.setCached_congr (by simp)

/-! ### recordBlock -/

@[simp] theorem State.attrs_recordBlock (s : State) (k : MemKind) (pa : Nat) : (s.recordBlock k pa).attrs = s.attrs :=
  State.attrs_congr (by simp) (by simp)
@[simp] theorem State.cset_recordBlock (s : State) (k : MemKind) (pa : Nat) : (s.recordBlock k pa).cset = s.cset :=
  State.cset_congr (by simp) (by simp)
@[simp] theorem State.keyOf_recordBlock (s : State) (k : MemKind) (pa : Nat) : (s.recordBlock k pa).keyOf = s.keyOf :=
  State.keyOf_congr (by simp) (by simp)
@[simp] theorem State.blockBase_recordBlock (s : State) (k : MemKind) (pa : Nat) : (s.recordBlock k pa).blockBase = s.blockBase :=
  State.blockBase_congr (by simp)
@[simp] theorem State.block_recordBlock (s : State) (k : MemKind) (pa : Nat) : (s.recordBlock k pa).block = s.block :=
  State.block_congr (by simp)
@[simp] theorem State.setCached_recordBlock (s : State) (k : MemKind) (pa : Nat) : (s.recordBlock k pa).setCached = s.setCached :=
  State.setCached_congr (by simp)

/-! ### retire -/

@[simp] theorem State.attrs_retire (s : State)  : (s.retire ).attrs = s.attrs :=
  State.attrs_congr (by simp) (by simp)
@[simp] theorem State.cset_retire (s : State)  : (s.retire ).cset = s.cset :=
  State.cset_congr (by simp) (by simp)
@[simp] theorem State.keyOf_retire (s : State)  : (s.retire ).keyOf = s.keyOf :=
  State.keyOf_congr (by simp) (by simp)
@[simp] theorem State.blockBase_retire (s : State)  : (s.retire ).blockBase = s.blockBase :=
  State.blockBase_congr (by simp)
@[simp] theorem State.block_retire (s : State)  : (s.retire ).block = s.block :=
  State.block_congr (by simp)
@[simp] theorem State.setCached_retire (s : State)  : (s.retire ).setCached = s.setCached :=
  State.setCached_congr (by simp)

/-! ### suspend -/

@[simp] theorem State.attrs_suspend (s : State) (p : Pending) : (s.suspend p).attrs = s.attrs :=
  State.attrs_congr (by simp) (by simp)
@[simp] theorem State.cset_suspend (s : State) (p : Pending) : (s.suspend p).cset = s.cset :=
  State.cset_congr (by simp) (by simp)
@[simp] theorem State.keyOf_suspend (s : State) (p : Pending) : (s.suspend p).keyOf = s.keyOf :=
  State.keyOf_congr (by simp) (by simp)
@[simp] theorem State.blockBase_suspend (s : State) (p : Pending) : (s.suspend p).blockBase = s.blockBase :=
  State.blockBase_congr (by simp)
@[simp] theorem State.block_suspend (s : State) (p : Pending) : (s.suspend p).block = s.block :=
  State.block_congr (by simp)
@[simp] theorem State.setCached_suspend (s : State) (p : Pending) : (s.suspend p).setCached = s.setCached :=
  State.setCached_congr (by simp)

/-! ### trap -/

@[simp] theorem State.attrs_trap (s : State) (e : Exc) : (s.trap e).attrs = s.attrs :=
  State.attrs_congr (by simp) (by simp)
@[simp] theorem State.cset_trap (s : State) (e : Exc) : (s.trap e).cset = s.cset :=
  State.cset_congr (by simp) (by simp)
@[simp] theorem State.keyOf_trap (s : State) (e : Exc) : (s.trap e).keyOf = s.keyOf :=
  State.keyOf_congr (by simp) (by simp)
@[simp] theorem State.blockBase_trap (s : State) (e : Exc) : (s.trap e).blockBase = s.blockBase :=
  State.blockBase_congr (by simp)
@[simp] theorem State.block_trap (s : State) (e : Exc) : (s.trap e).block = s.block :=
  State.block_congr (by simp)
@[simp] theorem State.setCached_trap (s : State) (e : Exc) : (s.trap e).setCached = s.setCached :=
  State.setCached_congr (by simp)

/-! ### store -/

@[simp] theorem State.attrs_store (s : State) (o : ObserverId) (pa : Nat) (v : List Byte) : (s.store o pa v).attrs = s.attrs :=
  State.attrs_congr (by simp) (by simp)
@[simp] theorem State.cset_store (s : State) (o : ObserverId) (pa : Nat) (v : List Byte) : (s.store o pa v).cset = s.cset :=
  State.cset_congr (by simp) (by simp)
@[simp] theorem State.keyOf_store (s : State) (o : ObserverId) (pa : Nat) (v : List Byte) : (s.store o pa v).keyOf = s.keyOf :=
  State.keyOf_congr (by simp) (by simp)
@[simp] theorem State.blockBase_store (s : State) (o : ObserverId) (pa : Nat) (v : List Byte) : (s.store o pa v).blockBase = s.blockBase :=
  State.blockBase_congr (by simp)
@[simp] theorem State.block_store (s : State) (o : ObserverId) (pa : Nat) (v : List Byte) : (s.store o pa v).block = s.block :=
  State.block_congr (by simp)
@[simp] theorem State.setCached_store (s : State) (o : ObserverId) (pa : Nat) (v : List Byte) : (s.store o pa v).setCached = s.setCached :=
  State.setCached_congr (by simp)

/-! ### observerStore -/

@[simp] theorem State.attrs_observerStore (s : State) (o : ObserverId) (pa : Nat) (v : List Byte) : (s.observerStore o pa v).attrs = s.attrs :=
  State.attrs_congr (by simp) (by simp)
@[simp] theorem State.cset_observerStore (s : State) (o : ObserverId) (pa : Nat) (v : List Byte) : (s.observerStore o pa v).cset = s.cset :=
  State.cset_congr (by simp) (by simp)
@[simp] theorem State.keyOf_observerStore (s : State) (o : ObserverId) (pa : Nat) (v : List Byte) : (s.observerStore o pa v).keyOf = s.keyOf :=
  State.keyOf_congr (by simp) (by simp)
@[simp] theorem State.blockBase_observerStore (s : State) (o : ObserverId) (pa : Nat) (v : List Byte) : (s.observerStore o pa v).blockBase = s.blockBase :=
  State.blockBase_congr (by simp)
@[simp] theorem State.block_observerStore (s : State) (o : ObserverId) (pa : Nat) (v : List Byte) : (s.observerStore o pa v).block = s.block :=
  State.block_congr (by simp)
@[simp] theorem State.setCached_observerStore (s : State) (o : ObserverId) (pa : Nat) (v : List Byte) : (s.observerStore o pa v).setCached = s.setCached :=
  State.setCached_congr (by simp)

/-! ### writeDirty -/

@[simp] theorem State.attrs_writeDirty (s : State) (o : ObserverId) (pa : Nat) : (s.writeDirty o pa).attrs = s.attrs :=
  State.attrs_congr (by simp) (by simp)
@[simp] theorem State.cset_writeDirty (s : State) (o : ObserverId) (pa : Nat) : (s.writeDirty o pa).cset = s.cset :=
  State.cset_congr (by simp) (by simp)
@[simp] theorem State.keyOf_writeDirty (s : State) (o : ObserverId) (pa : Nat) : (s.writeDirty o pa).keyOf = s.keyOf :=
  State.keyOf_congr (by simp) (by simp)
@[simp] theorem State.blockBase_writeDirty (s : State) (o : ObserverId) (pa : Nat) : (s.writeDirty o pa).blockBase = s.blockBase :=
  State.blockBase_congr (by simp)
@[simp] theorem State.block_writeDirty (s : State) (o : ObserverId) (pa : Nat) : (s.writeDirty o pa).block = s.block :=
  State.block_congr (by simp)
@[simp] theorem State.setCached_writeDirty (s : State) (o : ObserverId) (pa : Nat) : (s.writeDirty o pa).setCached = s.setCached :=
  State.setCached_congr (by simp)

/-! ### writeBack -/

@[simp] theorem State.attrs_writeBack (s : State) (o : ObserverId) (pa : Nat) : (s.writeBack o pa).attrs = s.attrs :=
  State.attrs_congr (by simp) (by simp)
@[simp] theorem State.cset_writeBack (s : State) (o : ObserverId) (pa : Nat) : (s.writeBack o pa).cset = s.cset :=
  State.cset_congr (by simp) (by simp)
@[simp] theorem State.keyOf_writeBack (s : State) (o : ObserverId) (pa : Nat) : (s.writeBack o pa).keyOf = s.keyOf :=
  State.keyOf_congr (by simp) (by simp)
@[simp] theorem State.blockBase_writeBack (s : State) (o : ObserverId) (pa : Nat) : (s.writeBack o pa).blockBase = s.blockBase :=
  State.blockBase_congr (by simp)
@[simp] theorem State.block_writeBack (s : State) (o : ObserverId) (pa : Nat) : (s.writeBack o pa).block = s.block :=
  State.block_congr (by simp)
@[simp] theorem State.setCached_writeBack (s : State) (o : ObserverId) (pa : Nat) : (s.writeBack o pa).setCached = s.setCached :=
  State.setCached_congr (by simp)

/-! ### clean -/

@[simp] theorem State.attrs_clean (s : State) (o : ObserverId) (pa : Nat) : (s.clean o pa).attrs = s.attrs :=
  State.attrs_congr (by simp) (by simp)
@[simp] theorem State.cset_clean (s : State) (o : ObserverId) (pa : Nat) : (s.clean o pa).cset = s.cset :=
  State.cset_congr (by simp) (by simp)
@[simp] theorem State.keyOf_clean (s : State) (o : ObserverId) (pa : Nat) : (s.clean o pa).keyOf = s.keyOf :=
  State.keyOf_congr (by simp) (by simp)
@[simp] theorem State.blockBase_clean (s : State) (o : ObserverId) (pa : Nat) : (s.clean o pa).blockBase = s.blockBase :=
  State.blockBase_congr (by simp)
@[simp] theorem State.block_clean (s : State) (o : ObserverId) (pa : Nat) : (s.clean o pa).block = s.block :=
  State.block_congr (by simp)
@[simp] theorem State.setCached_clean (s : State) (o : ObserverId) (pa : Nat) : (s.clean o pa).setCached = s.setCached :=
  State.setCached_congr (by simp)

/-! ### invalidate -/

@[simp] theorem State.attrs_invalidate (s : State) (o : ObserverId) (pa : Nat) : (s.invalidate o pa).attrs = s.attrs :=
  State.attrs_congr (by simp) (by simp)
@[simp] theorem State.cset_invalidate (s : State) (o : ObserverId) (pa : Nat) : (s.invalidate o pa).cset = s.cset :=
  State.cset_congr (by simp) (by simp)
@[simp] theorem State.keyOf_invalidate (s : State) (o : ObserverId) (pa : Nat) : (s.invalidate o pa).keyOf = s.keyOf :=
  State.keyOf_congr (by simp) (by simp)
@[simp] theorem State.blockBase_invalidate (s : State) (o : ObserverId) (pa : Nat) : (s.invalidate o pa).blockBase = s.blockBase :=
  State.blockBase_congr (by simp)
@[simp] theorem State.block_invalidate (s : State) (o : ObserverId) (pa : Nat) : (s.invalidate o pa).block = s.block :=
  State.block_congr (by simp)
@[simp] theorem State.setCached_invalidate (s : State) (o : ObserverId) (pa : Nat) : (s.invalidate o pa).setCached = s.setCached :=
  State.setCached_congr (by simp)

/-! ### flush -/

@[simp] theorem State.attrs_flush (s : State) (o : ObserverId) (pa : Nat) : (s.flush o pa).attrs = s.attrs :=
  State.attrs_congr (by simp) (by simp)
@[simp] theorem State.cset_flush (s : State) (o : ObserverId) (pa : Nat) : (s.flush o pa).cset = s.cset :=
  State.cset_congr (by simp) (by simp)
@[simp] theorem State.keyOf_flush (s : State) (o : ObserverId) (pa : Nat) : (s.flush o pa).keyOf = s.keyOf :=
  State.keyOf_congr (by simp) (by simp)
@[simp] theorem State.blockBase_flush (s : State) (o : ObserverId) (pa : Nat) : (s.flush o pa).blockBase = s.blockBase :=
  State.blockBase_congr (by simp)
@[simp] theorem State.block_flush (s : State) (o : ObserverId) (pa : Nat) : (s.flush o pa).block = s.block :=
  State.block_congr (by simp)
@[simp] theorem State.setCached_flush (s : State) (o : ObserverId) (pa : Nat) : (s.flush o pa).setCached = s.setCached :=
  State.setCached_congr (by simp)

/-! ### fill -/

@[simp] theorem State.attrs_fill (s : State) (o : ObserverId) (pa : Nat) : (s.fill o pa).attrs = s.attrs :=
  State.attrs_congr (by simp) (by simp)
@[simp] theorem State.cset_fill (s : State) (o : ObserverId) (pa : Nat) : (s.fill o pa).cset = s.cset :=
  State.cset_congr (by simp) (by simp)
@[simp] theorem State.keyOf_fill (s : State) (o : ObserverId) (pa : Nat) : (s.fill o pa).keyOf = s.keyOf :=
  State.keyOf_congr (by simp) (by simp)
@[simp] theorem State.blockBase_fill (s : State) (o : ObserverId) (pa : Nat) : (s.fill o pa).blockBase = s.blockBase :=
  State.blockBase_congr (by simp)
@[simp] theorem State.block_fill (s : State) (o : ObserverId) (pa : Nat) : (s.fill o pa).block = s.block :=
  State.block_congr (by simp)
@[simp] theorem State.setCached_fill (s : State) (o : ObserverId) (pa : Nat) : (s.fill o pa).setCached = s.setCached :=
  State.setCached_congr (by simp)

/-! ### drop -/

@[simp] theorem State.attrs_drop (s : State) (o : ObserverId) (pa : Nat) : (s.drop o pa).attrs = s.attrs :=
  State.attrs_congr (by simp) (by simp)
@[simp] theorem State.cset_drop (s : State) (o : ObserverId) (pa : Nat) : (s.drop o pa).cset = s.cset :=
  State.cset_congr (by simp) (by simp)
@[simp] theorem State.keyOf_drop (s : State) (o : ObserverId) (pa : Nat) : (s.drop o pa).keyOf = s.keyOf :=
  State.keyOf_congr (by simp) (by simp)
@[simp] theorem State.blockBase_drop (s : State) (o : ObserverId) (pa : Nat) : (s.drop o pa).blockBase = s.blockBase :=
  State.blockBase_congr (by simp)
@[simp] theorem State.block_drop (s : State) (o : ObserverId) (pa : Nat) : (s.drop o pa).block = s.block :=
  State.block_congr (by simp)
@[simp] theorem State.setCached_drop (s : State) (o : ObserverId) (pa : Nat) : (s.drop o pa).setCached = s.setCached :=
  State.setCached_congr (by simp)

/-! ### zeroBytes -/

@[simp] theorem State.attrs_zeroBytes (s : State) (base : Nat) (ks : List Nat) : (s.zeroBytes base ks).attrs = s.attrs :=
  State.attrs_congr (by simp) (by simp)
@[simp] theorem State.cset_zeroBytes (s : State) (base : Nat) (ks : List Nat) : (s.zeroBytes base ks).cset = s.cset :=
  State.cset_congr (by simp) (by simp)
@[simp] theorem State.keyOf_zeroBytes (s : State) (base : Nat) (ks : List Nat) : (s.zeroBytes base ks).keyOf = s.keyOf :=
  State.keyOf_congr (by simp) (by simp)
@[simp] theorem State.blockBase_zeroBytes (s : State) (base : Nat) (ks : List Nat) : (s.zeroBytes base ks).blockBase = s.blockBase :=
  State.blockBase_congr (by simp)
@[simp] theorem State.block_zeroBytes (s : State) (base : Nat) (ks : List Nat) : (s.zeroBytes base ks).block = s.block :=
  State.block_congr (by simp)
@[simp] theorem State.setCached_zeroBytes (s : State) (base : Nat) (ks : List Nat) : (s.zeroBytes base ks).setCached = s.setCached :=
  State.setCached_congr (by simp)

end Sys2Proof.Machine
end

