-- ==== Sys2Proof/Laws/Cache.lean ====
section
/-!
SUPPORT. The laws of the cache machine (spec rules R102 to R112): what each operation does to the line of its block,
to the other lines, and to memory; and that each keeps the canonical form.
-/

namespace Sys2Proof.Machine

variable (s : State) (o : ObserverId) (pa : Nat)

/-! ### Lines -/

@[simp] theorem State.line_setLine (l : Line) : (s.setLine o pa l).line o pa = some l := by
  simp [State.line]

@[simp] theorem State.line_dropLine : (s.dropLine o pa).line o pa = none := by
  simp [State.line]

theorem State.get_setLine_of_ne (l : Line) {k : CacheKey} (h : k ≠ s.keyOf o pa) :
    mapGet k (s.setLine o pa l).cache = mapGet k s.cache := mapGet_mapSet_of_ne _ h _ _

theorem State.get_dropLine_of_ne {k : CacheKey} (h : k ≠ s.keyOf o pa) :
    mapGet k (s.dropLine o pa).cache = mapGet k s.cache := mapGet_mapDel_of_ne h _

/-- A line depends on the configuration, the regions and the caches alone. -/
theorem State.line_congr {s t : State} (hc : t.cfg = s.cfg) (hr : t.regions = s.regions) (hk : t.cache = s.cache) :
    t.line = s.line := by
  funext o pa; simp [State.line, State.keyOf_congr hc hr, hk]

@[simp] theorem State.line_record (p : ObserverId) (k : MemKind) (b n : Nat) : (s.record p k b n).line = s.line := by
  funext o pa; simp [State.line]

@[simp] theorem State.line_recordBlock (k : MemKind) (a : Nat) : (s.recordBlock k a).line = s.line := by
  funext o pa; simp [State.line]

@[simp] theorem State.line_markChanged (b n : Nat) : (s.markChanged b n).line = s.line := by
  funext o pa; simp [State.line]

@[simp] theorem State.line_markDiffering (p : ObserverId) (a : Nat) : (s.markDiffering p a).line = s.line := by
  funext o pa; simp [State.line]

@[simp] theorem State.line_retire : s.retire.line = s.line := by
  funext o pa; simp [State.line]

@[simp] theorem State.line_suspend (p : Pending) : (s.suspend p).line = s.line := by
  funext o pa; simp [State.line]

@[simp] theorem State.line_trap (e : Exc) : (s.trap e).line = s.line := by
  funext o pa; simp [State.line]

/-- The view depends on the configuration, the regions, memory and the caches alone. -/
theorem State.view_congr {s t : State} (hc : t.cfg = s.cfg) (hr : t.regions = s.regions) (hm : t.mem = s.mem)
    (hk : t.cache = s.cache) : t.view = s.view := by
  funext o pa
  simp [State.view, State.line, State.keyOf_congr hc hr, State.blockBase_congr hc, hm, hk]

@[simp] theorem State.view_record (p : ObserverId) (k : MemKind) (b n : Nat) : (s.record p k b n).view = s.view :=
  State.view_congr rfl rfl rfl rfl

@[simp] theorem State.view_recordBlock (k : MemKind) (a : Nat) : (s.recordBlock k a).view = s.view :=
  State.view_congr rfl rfl rfl rfl

@[simp] theorem State.view_markChanged (b n : Nat) : (s.markChanged b n).view = s.view :=
  State.view_congr rfl rfl rfl rfl

@[simp] theorem State.view_retire : s.retire.view = s.view := State.view_congr rfl rfl rfl rfl

@[simp] theorem State.view_suspend (p : Pending) : (s.suspend p).view = s.view := State.view_congr rfl rfl rfl rfl

@[simp] theorem State.view_trap (e : Exc) : (s.trap e).view = s.view := State.view_congr rfl rfl rfl rfl

/-! ### A dirty block written to memory (rules R71, R106, R111) -/

theorem State.writeDirty_of_absent (h : s.line o pa = none) : s.writeDirty o pa = s := by
  simp [State.writeDirty, h]

theorem State.writeDirty_of_clean {l : Line} (h : s.line o pa = some l) (hd : l.dirty = false) :
    s.writeDirty o pa = s := by
  simp [State.writeDirty, h, hd]

theorem State.writeDirty_of_dirty {l : Line} (h : s.line o pa = some l) (hd : l.dirty = true) :
    s.writeDirty o pa =
      { (s.markDiffering o pa).setLine o pa { l with dirty := false } with
        mem := s.mem.writeBytes (s.blockBase pa) l.data } := by
  simp [State.writeDirty, h, hd]

/-- Everything `writeDirty` can do. -/
theorem State.writeDirty_cases :
    (s.writeDirty o pa = s ∧ ∀ l, s.line o pa = some l → l.dirty = false) ∨
    ∃ l, s.line o pa = some l ∧ l.dirty = true ∧
      s.writeDirty o pa =
        { (s.markDiffering o pa).setLine o pa { l with dirty := false } with
          mem := s.mem.writeBytes (s.blockBase pa) l.data } := by
  cases h : s.line o pa with
  | none => exact .inl ⟨s.writeDirty_of_absent o pa h, by simp⟩
  | some l =>
    cases hd : l.dirty with
    | false => exact .inl ⟨s.writeDirty_of_clean o pa h hd, by simpa using hd⟩
    | true => exact .inr ⟨l, rfl, hd, s.writeDirty_of_dirty o pa h hd⟩

/-- The line of the block after it: the same copy, held clean. -/
theorem State.line_writeDirty :
    (s.writeDirty o pa).line o pa = (s.line o pa).map (fun l => { l with dirty := false }) := by
  rcases s.writeDirty_cases o pa with ⟨h, hc⟩ | ⟨l, hl, hd, h⟩
  · rw [h]
    cases hl : s.line o pa with
    | none => rfl
    | some l => have := hc l hl; cases l; simp_all
  · rw [h, hl]
    rw [State.line_congr (s := s.setLine o pa { l with dirty := false }) (by simp) (by simp) (by simp)]
    exact s.line_setLine o pa _

theorem State.get_writeDirty_of_ne {k : CacheKey} (hk : k ≠ s.keyOf o pa) :
    mapGet k (s.writeDirty o pa).cache = mapGet k s.cache := by
  rcases s.writeDirty_cases o pa with ⟨h, -⟩ | ⟨l, -, -, h⟩
  · rw [h]
  · rw [h]
    have := (s.markDiffering o pa).get_setLine_of_ne o pa { l with dirty := false } (by simpa using hk)
    simpa using this

/-- Memory after it, when the copy holds `CBS` bytes: the view of `o` in the block if the copy was dirty, else as before. -/
theorem State.read_writeDirty_outside (hlen : ∀ l, s.line o pa = some l → l.data.length = s.cfg.cbs) {a : Nat}
    (ha : a ∉ s.block pa) : (s.writeDirty o pa).mem.read a = s.mem.read a := by
  rcases s.writeDirty_cases o pa with ⟨h, -⟩ | ⟨l, hl, -, h⟩
  · rw [h]
  · rw [h]
    rw [State.mem_block] at ha
    exact Memory.read_writeBytes_outside _ (by have := hlen l hl; omega)

/-- Where it changes a byte of memory, the byte is one of the block, the copy was held dirty, and memory now holds the copy's
byte (rule R71). -/
theorem State.read_writeDirty_changed (hlen : ∀ l, s.line o pa = some l → l.data.length = s.cfg.cbs) {a : Nat}
    (h : (s.writeDirty o pa).mem.read a ≠ s.mem.read a) :
    a ∈ s.block pa ∧ ∃ l, s.line o pa = some l ∧ l.dirty = true ∧
      (s.writeDirty o pa).mem.read a = l.data.getD (a - s.blockBase pa) 0#8 := by
  rcases s.writeDirty_cases o pa with ⟨he, -⟩ | ⟨l, hl, hd, he⟩
  · exact absurd (by rw [he]) h
  · rw [he] at h ⊢
    simp only [Memory.read_writeBytes] at h ⊢
    have := hlen l hl
    split at h
    · rename_i hk
      exact ⟨by rw [State.mem_block]; omega, l, hl, hd, by rw [if_pos hk]⟩
    · exact absurd rfl h

/-! ### Stores (rule R108) -/

theorem State.store_of_absent {v : List Byte} (h : s.line o pa = none) :
    s.store o pa v = { s with mem := s.mem.writeBytes pa v } := by
  simp [State.store, h]

theorem State.store_of_present {l : Line} {v : List Byte} (h : s.line o pa = some l) :
    s.store o pa v = s.setLine o pa { data := patch l.data (pa - s.blockBase pa) v, dirty := true } := by
  simp [State.store, h]

@[simp] theorem patch_length (d : List Byte) (k : Nat) (v : List Byte) : (patch d k v).length = d.length := by
  simp [patch]

theorem patch_getD (d : List Byte) (k : Nat) (v : List Byte) {i : Nat} (h : i < d.length) :
    (patch d k v).getD i 0#8 = if k ≤ i ∧ i < k + v.length then v.getD (i - k) 0#8 else d.getD i 0#8 := by
  simp [patch, List.getD_eq_getElem?_getD, h]

theorem State.get_store_of_ne {v : List Byte} {k : CacheKey} (hk : k ≠ s.keyOf o pa) :
    mapGet k (s.store o pa v).cache = mapGet k s.cache := by
  cases h : s.line o pa with
  | none => rw [s.store_of_absent o pa h]
  | some l => rw [s.store_of_present o pa h]; exact s.get_setLine_of_ne o pa _ hk

/-! ### Invalidate (rule R110) -/

@[simp] theorem State.invalidate_cache : (s.invalidate o pa).cache = mapDel (s.keyOf o pa) s.cache := by
  simp [State.invalidate]

@[simp] theorem State.line_invalidate : (s.invalidate o pa).line o pa = none := by simp [State.line]

theorem State.get_invalidate_of_ne {k : CacheKey} (hk : k ≠ s.keyOf o pa) :
    mapGet k (s.invalidate o pa).cache = mapGet k s.cache := by
  rw [State.invalidate_cache]; exact mapGet_mapDel_of_ne hk _

/-! ### Fill and Drop (rules R104, R105) -/

theorem State.fill_of_offered (h : s.fillOffered o pa = true) :
    s.fill o pa = (s.markDiffering o pa).setLine o pa { data := s.memBlock pa, dirty := false } := by
  simp [State.fill, h]

theorem State.fill_of_not_offered (h : s.fillOffered o pa = false) : s.fill o pa = s := by
  simp [State.fill, h]

theorem State.setCached_of_fillOffered {s : State} {o : ObserverId} {pa : Nat} (h : s.fillOffered o pa = true) :
    s.setCached (s.cset o pa) = true := by
  simp only [State.fillOffered, Bool.and_eq_true] at h
  exact h.1.1.1

theorem State.drop_cases : s.drop o pa = s ∨ s.drop o pa = (s.markDiffering o pa).dropLine o pa := by
  unfold State.drop
  split
  · exact .inl rfl
  · split
    · exact .inl rfl
    · exact .inr rfl

/-! ### Sets of coherent observers (rule R77) -/

/-- An observer is in its own set. -/
theorem State.self_mem_cset : o ∈ s.cset o pa := by
  unfold State.cset
  cases s.attrs pa with
  | none => simp
  | some a =>
    cases hc : a.coherent with
    | false => simp [hc]
    | true =>
      simp only [hc, if_true]
      cases hf : (s.cfg.coherentSets (s.blockBase pa) a.cacheable).find? (fun d => d.contains o) with
      | none => simp
      | some d => simpa using List.find?_some hf

/-- A line is one for every member of a set at once. -/
theorem State.line_eq_of_cset_eq {o p : ObserverId} {pa qa : Nat} (hc : s.cset o pa = s.cset p qa)
    (hb : s.blockBase pa = s.blockBase qa) : s.line o pa = s.line p qa := by
  simp [State.line, State.keyOf, hc, hb]

end Sys2Proof.Machine
end

