-- ==== Sys2Proof/Laws/Exec.lean ====
section
/-!
SUPPORT. What an instruction can do, said once: the inversion lemmas of the shared operations, and the frames of
completing and of taking an exception.
-/

namespace Sys2Proof.Machine

variable {s t : State}

/-! ### Checks -/

theorem checked_next {α : Type} {c : Check α} {k : α → Out} (h : s.checked c k = .next t) :
    (∃ a, c = .pass a ∧ k a = .next t) ∨ ∃ e, c = .raise e ∧ t = s.trap e := by
  cases c with
  | pass a => exact .inl ⟨a, rfl, h⟩
  | raise e => exact .inr ⟨e, rfl, by simpa [State.checked] using h.symm⟩
  | refuse r => simp [State.checked] at h

@[simp] theorem checked_pass {α : Type} (a : α) (k : α → Out) : s.checked (.pass a) k = k a := rfl
@[simp] theorem checked_raise {α : Type} (e : Exc) (k : α → Out) : s.checked (.raise e) k = .next (s.trap e) := rfl
@[simp] theorem checked_refuse {α : Type} (r : Refusal) (k : α → Out) : s.checked (.refuse r) k = .refused r := rfl

theorem fire_raise {l : List Trigger} {e : Exc} (h : s.fire l = .raise e) : e.cause = .breakpoint := by
  unfold State.fire at h
  split at h
  · simp at h
  · split at h
    · simp at h
    · simp only [Check.raise.injEq] at h; rw [← h]

theorem accessTriggers_raise {k : AccessClass} {va : Word} {e : Exc} (h : s.accessTriggers k va = .raise e) :
    e.cause = .breakpoint ∧ (k.load = true ∨ k.store = true) := by
  unfold State.accessTriggers at h
  split at h
  · simp at h
  · refine ⟨fire_raise h, ?_⟩
    unfold State.fire at h
    split at h
    · simp at h
    · split at h
      · simp at h
      · rename_i hne
        simp only [List.isEmpty_iff, List.filter_eq_nil_iff, not_forall] at hne
        obtain ⟨tr, -, htr⟩ := hne
        simp only [Trigger.firesOnAccess, not_not, Bool.and_eq_true, Bool.or_eq_true] at htr
        tauto

/-- The exceptions `CheckAddr` raises, all with the effective address as trap value (rules R199, R201). -/
theorem checkAddr_raise {k : OpClass} {va : Word} {e : Exc} (h : s.checkAddr k va = .raise e) :
    e.tval = va ∧ (e.cause = .storeAmoPageFault ∨ e.cause = .storeAmoGuestPageFault ∨ e.cause = .storeAmoAccessFault) := by
  unfold State.checkAddr at h
  dsimp only at h
  split at h
  · simp only [Check.raise.injEq] at h; subst h; exact ⟨rfl, .inr (.inr rfl)⟩
  · simp only [Check.raise.injEq] at h; subst h; exact ⟨rfl, .inr (.inl rfl)⟩
  · split at h
    · simp only [Check.raise.injEq] at h; subst h; exact ⟨rfl, .inl rfl⟩
    · split at h
      · simp only [Check.raise.injEq] at h; subst h; exact ⟨rfl, .inr (.inl rfl)⟩
      · split at h
        · simp at h
        · split at h
          · simp only [Check.raise.injEq] at h; subst h; exact ⟨rfl, .inr (.inr rfl)⟩
          · simp at h

/-- What is known when `CheckAddr` returns (rule R199). -/
theorem checkAddr_pass {k : OpClass} {va : Word} {r : Checked} (h : s.checkAddr k va = .pass r) :
    ∃ gpa, translateVa s.hart.csr va.toNat s.effMode = .mapped r.s1 r.g gpa r.pa ∧
      s.firstStageOk k s.effMode r.s1 = true ∧ s.gStageOk k r.g = true ∧ s.pmaConstraintsMet r.pa = true ∧
      s.jointOk k s.effMode r.pa = true ∧ r.wm = s.anyJointW s.effMode r.pa := by
  unfold State.checkAddr at h
  dsimp only at h
  split at h
  · simp at h
  · simp at h
  · rename_i s1 g gpa pa htr
    split at h
    · simp at h
    · split at h
      · simp at h
      · split at h
        · simp at h
        · split at h
          · simp at h
          · simp only [Check.pass.injEq] at h
            subst h
            simp_all

/-- The attributes are the same throughout a block that `CheckAddr` returns (rule R90). -/
theorem attrs_eq_of_pmaConstraintsMet {pa a : Nat} (h : s.pmaConstraintsMet pa = true) (ha : a ∈ s.block pa) :
    s.attrs a = s.attrs pa := by
  simp only [State.pmaConstraintsMet, Bool.and_eq_true, List.all_eq_true, beq_iff_eq] at h
  exact h.1 a ha

theorem cset_eq_of_pmaConstraintsMet {pa a : Nat} (h : s.pmaConstraintsMet pa = true) (ha : a ∈ s.block pa)
    (o : ObserverId) : s.cset o a = s.cset o pa := by
  simp [State.cset, attrs_eq_of_pmaConstraintsMet h ha, State.mem_block_iff_base.mp ha]

theorem keyOf_eq_of_pmaConstraintsMet {pa a : Nat} (h : s.pmaConstraintsMet pa = true) (ha : a ∈ s.block pa)
    (o : ObserverId) : s.keyOf o a = s.keyOf o pa := by
  simp [State.keyOf, cset_eq_of_pmaConstraintsMet h ha, State.mem_block_iff_base.mp ha]

/-! ### Frames -/

theorem trapHart_x (c : Config) (n : Nat) (h : Hart) (e : Exc) : (trapHart c n h e).x = h.x := by
  unfold trapHart; split <;> rfl

theorem trapHart_cmo (c : Config) (n : Nat) (h : Hart) (e : Exc) : (trapHart c n h e).cmo = h.cmo := by
  unfold trapHart; split <;> rfl

theorem trapHart_pending (c : Config) (n : Nat) (h : Hart) (e : Exc) : (trapHart c n h e).pending = h.pending := by
  unfold trapHart; split <;> rfl

theorem untouched_trap (s : State) (e : Exc) : Untouched s (s.trap e) where
  cfg := rfl
  self := rfl
  others := rfl
  regions := rfl
  lastLoad := rfl
  schedule := rfl
  x := trapHart_x _ _ _ _
  cmo := trapHart_cmo _ _ _ _

theorem sameMemory_trap (s : State) (e : Exc) : SameMemory s (s.trap e) := ⟨rfl, rfl, rfl, rfl, rfl, rfl⟩

theorem Untouched.trans {u : State} (h : Untouched s t) (k : Untouched t u) : Untouched s u where
  cfg := k.cfg.trans h.cfg
  self := k.self.trans h.self
  others := k.others.trans h.others
  regions := k.regions.trans h.regions
  lastLoad := k.lastLoad.trans h.lastLoad
  schedule := k.schedule.trans h.schedule
  x := k.x.trans h.x
  cmo := k.cmo.trans h.cmo

/-- An instruction that was in progress and has now completed has completed, as a whole. -/
theorem InProgress.completed {u : State} (h : InProgress s t) (k : Completed t u) : Completed s u where
  frame := h.frame.trans k.frame
  hart := by obtain ⟨p, hp⟩ := h.hart; rw [k.hart, hp, h.frame.cfg]
  reservations := fun r hr => h.reservations r (k.reservations r hr)

/-- A state in which only memory, caches, the global order, reservations and the model's own fields differ. -/
structure Quiet (s t : State) : Prop where
  cfg          : t.cfg = s.cfg
  self         : t.self = s.self
  others       : t.others = s.others
  regions      : t.regions = s.regions
  lastLoad     : t.lastLoad = s.lastLoad
  schedule     : t.schedule = s.schedule
  hart         : t.hart = s.hart
  reservations : ∀ r ∈ t.reservations, r ∈ s.reservations

theorem Quiet.completed (h : Quiet s t) : Completed s t.retire where
  frame :=
    { cfg := h.cfg, self := h.self, others := h.others, regions := h.regions, lastLoad := h.lastLoad,
      schedule := h.schedule, x := by simp [h.hart], cmo := by simp [h.hart] }
  hart := by simp [h.hart, h.cfg]
  reservations := fun r hr => h.reservations r (State.mem_retire_reservations hr)

theorem Quiet.inProgress (h : Quiet s t) (p : Pending) :
    InProgress s (t.suspend p) where
  frame :=
    { cfg := h.cfg, self := h.self, others := h.others, regions := h.regions, lastLoad := h.lastLoad,
      schedule := h.schedule, x := by simp [h.hart], cmo := by simp [h.hart] }
  hart := ⟨p, by simp [h.hart]⟩
  reservations := fun r hr => h.reservations r (State.mem_suspend_reservations hr)

theorem quiet_invalidate (s : State) (pa : Nat) (k : MemKind) :
    Quiet s ((s.invalidate s.self pa).recordBlock k pa) := by
  constructor <;> simp

theorem quiet_clean (s : State) (pa : Nat) (k : MemKind) : Quiet s ((s.clean s.self pa).recordBlock k pa) := by
  constructor <;> simp

theorem quiet_flush (s : State) (pa : Nat) :
    Quiet s (((s.clean s.self pa).recordBlock .flush pa).invalidate s.self pa) := by
  constructor <;> simp

theorem quiet_zeroBytes (s : State) (plan : List (List Nat)) (base : Nat) (ks : List Nat) :
    Quiet s ({ s with zeroPlan := plan }.zeroBytes base ks) := by
  constructor <;> try simp
  intro r hr
  exact State.mem_zeroBytes_reservations (s := { s with zeroPlan := plan }) hr

theorem quiet_hintAllocate (s : State) (target : Option Nat) : Quiet s (s.hintAllocate target) := by
  unfold State.hintAllocate
  split
  · constructor <;> simp
  · split <;> constructor <;> simp

theorem completed_doInvalidate (s : State) (pa : Nat) : Completed s (s.doInvalidate pa) :=
  (quiet_invalidate s pa .invalidate).completed

/-- An invalidate that ends an instruction touches no other block than its own (rule R110). -/
theorem otherBlocksSame_doInvalidate (s : State) (pa : Nat) : OtherBlocksSame s (s.doInvalidate pa) pa :=
  ⟨fun _ hk => s.get_invalidate_of_ne s.self pa hk, fun _ _ => by simp [State.doInvalidate, State.invalidate]⟩

theorem completed_doClean (s : State) (pa : Nat) : Completed s (s.doClean pa) := (quiet_clean s pa .clean).completed

theorem doFlush_atomic {pa : Nat} (h : s.cfg.flushAtomic = true) :
    s.doFlush pa = (((s.clean s.self pa).recordBlock .flush pa).invalidate s.self pa).retire := by
  simp [State.doFlush, h]

theorem doFlush_split {pa : Nat} (h : s.cfg.flushAtomic = false) :
    s.doFlush pa = ((s.clean s.self pa).recordBlock .clean pa).suspend (.flushInvalidate (s.blockBase pa)) := by
  simp [State.doFlush, h]

/-- In one step or in two, the first step does to memory what a clean does. -/
theorem doFlush_mem (s : State) (pa : Nat) : (s.doFlush pa).mem = (s.clean s.self pa).mem := by
  cases h : s.cfg.flushAtomic with
  | true => rw [doFlush_atomic h]; simp [State.invalidate]
  | false => rw [doFlush_split h]; rfl

theorem doFlush_cases (s : State) (pa : Nat) : Completed s (s.doFlush pa) ∨ InProgress s (s.doFlush pa) := by
  cases h : s.cfg.flushAtomic with
  | true => rw [doFlush_atomic h]; exact .inl (quiet_flush s pa).completed
  | false =>
    rw [doFlush_split h]
    exact .inr ((quiet_clean s pa .clean).inProgress _)

theorem zeroGroup_cases (s : State) (base : Nat) (offsets : List Nat) :
    Completed s (s.zeroGroup base offsets) ∨ InProgress s (s.zeroGroup base offsets) := by
  unfold State.zeroGroup
  dsimp only
  split
  · exact .inl (quiet_zeroBytes s _ base _).completed
  · exact .inr ((quiet_zeroBytes s _ base _).inProgress _)

/-- Everything a further step of an instruction in progress can do to the hart. -/
theorem resume_cases (s : State) (p : Pending) : Completed s (s.resume p) ∨ InProgress s (s.resume p) := by
  cases p with
  | zero base offsets => exact zeroGroup_cases s base offsets
  | flushInvalidate pa => exact .inl (completed_doInvalidate s pa)

/-! ### Instructions -/

theorem manage_next {i : Instr} {k : OpClass} {op : Checked → State} (h : s.manage i k op = .next t) :
    (∃ r, MayManage s i k r ∧ t = op r) ∨
    ∃ e, t = s.trap e ∧
      (e.cause = .illegalInstruction ∨ e.cause = .breakpoint ∨ e.cause = .storeAmoPageFault ∨
        e.cause = .storeAmoGuestPageFault ∨ e.cause = .storeAmoAccessFault) := by
  unfold State.manage at h
  dsimp only at h
  split at h
  · simp only [Host.Outcome.next.injEq] at h
    exact .inr ⟨_, h.symm, .inl rfl⟩
  · rename_i hill
    rcases checked_next h with ⟨_, htr, h⟩ | ⟨e, he, ht⟩
    · rcases checked_next h with ⟨r, hr, h⟩ | ⟨e, he, ht⟩
      · simp only [Host.Outcome.next.injEq] at h
        exact .inl ⟨r, ⟨by simpa using hill, htr, hr⟩, h.symm⟩
      · exact .inr ⟨e, ht, by have := (checkAddr_raise he).2; tauto⟩
    · exact .inr ⟨e, ht, .inr (.inl (accessTriggers_raise he).1)⟩

/-- A management instruction that passes every test performs its operation. -/
theorem manage_of_may {i : Instr} {k : OpClass} {r : Checked} (op : Checked → State) (h : MayManage s i k r) :
    s.manage i k op = .next (op r) := by
  simp [State.manage, h.legal, h.triggers, h.address]

theorem cboZero_next {rs1 : RegNum} (h : execCboZero rs1 s = .next t) :
    (∃ r, MayZero s rs1 r ∧ t = s.zeroGroup (s.blockBase r.pa) (List.range s.cfg.cbs)) ∨
    ∃ e, t = s.trap e ∧
      (e.cause = .illegalInstruction ∨ e.cause = .breakpoint ∨ e.cause = .storeAmoPageFault ∨
        e.cause = .storeAmoGuestPageFault ∨ e.cause = .storeAmoAccessFault) := by
  unfold execCboZero at h
  dsimp only at h
  split at h
  · simp only [Host.Outcome.next.injEq] at h
    exact .inr ⟨_, h.symm, .inl rfl⟩
  · rename_i hill
    rcases checked_next h with ⟨_, htr, h⟩ | ⟨e, he, ht⟩
    · rcases checked_next h with ⟨r, hr, h⟩ | ⟨e, he, ht⟩
      · simp only [Host.Outcome.next.injEq] at h
        exact .inl ⟨r, ⟨by simpa using hill, htr, hr⟩, h.symm⟩
      · exact .inr ⟨e, ht, by have := (checkAddr_raise he).2; tauto⟩
    · exact .inr ⟨e, ht, .inr (.inl (accessTriggers_raise he).1)⟩

/-- `CBO.ZERO` that passes every test starts its byte stores. -/
theorem cboZero_of_may {rs1 : RegNum} {r : Checked} (h : MayZero s rs1 r) :
    execCboZero rs1 s = .next (s.zeroGroup (s.blockBase r.pa) (List.range s.cfg.cbs)) := by
  simp [execCboZero, h.legal, h.triggers, h.address]

/-- `HintOk` never raises (rule R199). -/
theorem hintTarget_raise {va : Word} {e : Exc} : s.hintTarget va ≠ .raise e := by
  unfold State.hintTarget
  dsimp only
  split
  · simp
  · simp
  · split_ifs <;> simp

/-- What is known when `HintOk` gives an address (rule R199). -/
theorem hintTarget_some {va : Word} {pa : Nat} (h : s.hintTarget va = .pass (some pa)) :
    ∃ s1 g gpa, translateVa s.hart.csr va.toNat s.effMode = .mapped s1 g gpa pa ∧
      s.firstStageOk .mgmt s.effMode s1 = true ∧ s.gStageOk .mgmt g = true ∧ s.pmaConstraintsMet pa = true ∧
      s.allJointRX s.effMode pa = true := by
  unfold State.hintTarget at h
  dsimp only at h
  split at h
  · simp at h
  · simp at h
  · split_ifs at h <;> simp_all

/-- The stages' part of `HintOk`, spelled out (rules R84 to R87, R180). -/
theorem stagesPass_iff {va : Word} {pa : Nat} : StagesPass s va pa ↔
    ∃ s1 g gpa, translateVa s.hart.csr va.toNat s.effMode = .mapped s1 g gpa pa ∧
      s.firstStageOk .mgmt s.effMode s1 = true ∧ s.gStageOk .mgmt g = true := by
  unfold StagesPass
  refine exists_congr fun s1 => exists_congr fun g => exists_congr fun gpa => and_congr_right fun _ => and_congr ?_ ?_
  · cases s1 with
    | none => simp [State.firstStageOk]
    | some p => cases s.effMode <;> simp [State.firstStageOk, s1OkRX, uOk, sumOf, and_assoc]
  · cases g with
    | none => simp [State.gStageOk]
    | some p => simp [State.gStageOk, gOkRX, and_assoc]

/-- The bytes' part of `HintOk`, spelled out (rule R193). -/
theorem blockPermitted_iff {pa : Nat} : BlockPermitted s pa ↔ s.allJointRX s.effMode pa = true := by
  simp [BlockPermitted, State.allJointRX]

theorem hintTarget_of_permitted {va : Word} {pa : Nat} (h : StagesPass s va pa) (hp : s.pmaConstraintsMet pa = true)
    (hb : BlockPermitted s pa) : s.hintTarget va = .pass (some pa) := by
  obtain ⟨s1, g, gpa, hm, h1, h2⟩ := stagesPass_iff.mp h
  simp [State.hintTarget, hm, h1, h2, hp, blockPermitted_iff.mp hb]

theorem hintTarget_of_not_permitted {va : Word}
    (h : ∀ pa, StagesPass s va pa → s.pmaConstraintsMet pa = true ∧ ¬BlockPermitted s pa) : s.hintTarget va = .pass none := by
  unfold State.hintTarget
  dsimp only
  split
  · rfl
  · rfl
  · rename_i s1 g gpa pa hm
    split
    · rfl
    · rename_i hh
      have := h pa (stagesPass_iff.mpr ⟨s1, g, gpa, hm, by simpa using hh⟩)
      rw [blockPermitted_iff] at this
      simp [this]

/-- The three hint instructions have one meaning (rules R162 to R165). -/
theorem exec_hint {i : Instr} (h : i.isHint = true) : exec i s = s.hint i.rs1 := by
  cases i <;> simp [Instr.isHint] at h <;> rfl

theorem hint_of_no_trigger {rs1 : RegNum} (h : s.accessTriggers (.hint s.cfg) (s.effAddr rs1) = .pass ()) :
    s.hint rs1 = s.checked (s.hintTarget (s.effAddr rs1)) fun target => .next (s.hintAllocate target).retire := by
  unfold State.hint; rw [h]; rfl

theorem hint_next {rs1 : RegNum} (h : s.hint rs1 = .next t) :
    (∃ target, s.hintTarget (s.effAddr rs1) = .pass target ∧ t = (s.hintAllocate target).retire) ∨
    ∃ e, t = s.trap e ∧ e.cause = .breakpoint ∧ s.cfg.hintIsLoadStore = true := by
  rcases checked_next h with ⟨-, -, h⟩ | ⟨e, he, ht⟩
  · rcases checked_next h with ⟨target, htgt, h⟩ | ⟨e, he, -⟩
    · simp only [Host.Outcome.next.injEq] at h; exact .inl ⟨target, htgt, h.symm⟩
    · exact absurd he hintTarget_raise
  · have := accessTriggers_raise he
    exact .inr ⟨e, ht, this.1, by simpa [AccessClass.hint] using this.2⟩

end Sys2Proof.Machine
end

