-- ==== Sys2Proof/Laws/Zero.lean ====
section
/-!
SUPPORT. What a byte store and a series of byte stores of zero do (spec rules R108, R152): to the view of the observer that makes
them, to the line of their block, to memory, and to everything else.
-/

namespace Sys2Proof.Machine

/-- Every cached block holds `CBS` bytes. -/
def State.LinesFull (s : State) : Prop := ∀ key l, mapGet key s.cache = some l → l.data.length = s.cfg.cbs

theorem State.Inv.linesFull {s : State} (h : s.Inv) : s.LinesFull := by
  intro key l hl
  have := List.all_eq_true.mp h.lines _ (mem_of_mapGet hl)
  simp only [State.lineOk, Bool.and_eq_true, beq_iff_eq] at this
  exact this.1.2

theorem State.LinesFull.line {s : State} (h : s.LinesFull) {o : ObserverId} {pa : Nat} {l : Line}
    (hl : s.line o pa = some l) : l.data.length = s.cfg.cbs := h _ l hl

theorem State.LinesFull.congr {s t : State} (h : s.LinesFull) (hc : t.cfg = s.cfg) (hk : t.cache = s.cache) :
    t.LinesFull := by
  intro key l hl; rw [hc]; exact h key l (hk ▸ hl)

theorem State.LinesFull.setLine {s : State} (h : s.LinesFull) (o : ObserverId) (pa : Nat) {l : Line}
    (hl : l.data.length = s.cfg.cbs) : (s.setLine o pa l).LinesFull := by
  intro key m hm
  by_cases hk : key = s.keyOf o pa
  · subst hk
    rw [show mapGet (s.keyOf o pa) (s.setLine o pa l).cache = some l from s.line_setLine o pa l] at hm
    cases hm; exact hl
  · rw [s.get_setLine_of_ne o pa l hk] at hm
    exact h key m hm

theorem State.LinesFull.store {s : State} (h : s.LinesFull) (o : ObserverId) (pa : Nat) (v : List Byte) :
    (s.store o pa v).LinesFull := by
  cases hl : s.line o pa with
  | none => rw [s.store_of_absent o pa hl]; exact h.congr rfl rfl
  | some l => rw [s.store_of_present o pa hl]; exact h.setLine o pa (by simp [h.line hl])

theorem State.LinesFull.observerStore {s : State} (h : s.LinesFull) (o : ObserverId) (pa : Nat) (v : List Byte) :
    (s.observerStore o pa v).LinesFull := (h.store o pa v).congr rfl rfl

/-! ### One byte -/

theorem State.view_store_byte {s : State} (h : s.LinesFull) (o : ObserverId) (b a : Nat) (v : Byte) :
    (s.store o b [v]).view o a = if a = b then v else s.view o a := by
  cases hl : s.line o b with
  | none =>
    rw [s.store_of_absent o b hl]
    simp only [State.view]
    rw [show State.line { s with mem := s.mem.writeBytes b [v] } o a = s.line o a from rfl]
    by_cases hab : a = b
    · subst hab; simp [hl, Memory.writeBytes]
    · rw [if_neg hab]
      simp only [Memory.writeBytes, Memory.read_write_of_ne _ hab]
      rfl
  | some l =>
    rw [s.store_of_present o b hl]
    have hlen := h.line hl
    have hb : b - s.blockBase b < s.cfg.cbs := by have := s.lt_blockBase_add b; have := s.blockBase_le b; omega
    by_cases hk : s.keyOf o a = s.keyOf o b
    · have hbase : s.blockBase a = s.blockBase b := congrArg CacheKey.block hk
      have ha : a - s.blockBase a < s.cfg.cbs := by have := s.lt_blockBase_add a; have := s.blockBase_le a; omega
      have hla : s.line o a = some l := by rw [State.line, hk]; exact hl
      simp only [State.view, State.line, State.keyOf_setLine, State.blockBase_setLine, hk]
      rw [show mapGet (s.keyOf o b) (s.setLine o b _).cache = some _ from s.line_setLine o b _,
        show mapGet (s.keyOf o b) s.cache = some l from hl]
      dsimp only
      rw [patch_getD _ _ _ (by omega)]
      by_cases hab : a = b
      · subst hab; simp
      · have := s.blockBase_le a
        have := s.blockBase_le b
        rw [if_neg (by simp only [List.length_singleton]; omega), if_neg hab]
    · have hab : a ≠ b := fun e => hk (by rw [e])
      rw [if_neg hab]
      simp only [State.view, State.line, State.keyOf_setLine, State.blockBase_setLine]
      rw [s.get_setLine_of_ne o b _ hk]
      rfl

theorem State.view_observerStore_byte {s : State} (h : s.LinesFull) (o : ObserverId) (b a : Nat) (v : Byte) :
    (s.observerStore o b [v]).view o a = if a = b then v else s.view o a := by
  rw [← State.view_store_byte h]
  exact congrFun (congrFun (State.view_congr (s := s.store o b [v]) rfl rfl rfl rfl) o) a

/-! ### A series of bytes -/

theorem State.LinesFull.zeroBytes {s : State} (h : s.LinesFull) (base : Nat) (ks : List Nat) :
    (s.zeroBytes base ks).LinesFull := by
  induction ks generalizing s with
  | nil => exact h
  | cons k ks ih => exact ih (h.observerStore _ _ _)

/-- The view of the executing hart after the byte stores: zero at the offsets stored to, and elsewhere as it was. -/
theorem State.view_zeroBytes {s : State} (h : s.LinesFull) (base : Nat) (ks : List Nat) (a : Nat) :
    (s.zeroBytes base ks).view s.self a = if ∃ k ∈ ks, a = base + k then 0#8 else s.view s.self a := by
  induction ks generalizing s with
  | nil => simp [State.zeroBytes]
  | cons k ks ih =>
    simp only [State.zeroBytes]
    have := ih (h.observerStore s.self (base + k) [0#8])
    rw [State.observerStore_self] at this
    rw [this, State.view_observerStore_byte h]
    by_cases h1 : ∃ j ∈ ks, a = base + j
    · rw [if_pos h1, if_pos (by obtain ⟨j, hj, e⟩ := h1; exact ⟨j, List.mem_cons_of_mem _ hj, e⟩)]
    · rw [if_neg h1]
      by_cases h2 : a = base + k
      · rw [if_pos h2, if_pos ⟨k, List.mem_cons_self .., h2⟩]
      · rw [if_neg h2, if_neg]
        rintro ⟨j, hj, e⟩
        rcases List.mem_cons.mp hj with rfl | hj
        · exact h2 e
        · exact h1 ⟨j, hj, e⟩

/-- The byte stores touch no line but the one of their block. -/
theorem State.get_zeroBytes_of_ne {s : State} {base : Nat} {ks : List Nat} {key : CacheKey}
    (h : ∀ k ∈ ks, key ≠ s.keyOf s.self (base + k)) : mapGet key (s.zeroBytes base ks).cache = mapGet key s.cache := by
  induction ks generalizing s with
  | nil => rfl
  | cons k ks ih =>
    simp only [State.zeroBytes]
    rw [ih (fun j hj => by simpa using h j (List.mem_cons_of_mem _ hj))]
    exact s.get_store_of_ne s.self (base + k) (h k (List.mem_cons_self ..))

/-- The byte stores change no byte of memory but those stored to. -/
theorem State.read_zeroBytes_of_ne {s : State} {base a : Nat} {ks : List Nat} (h : ∀ k ∈ ks, a ≠ base + k) :
    (s.zeroBytes base ks).mem.read a = s.mem.read a := by
  induction ks generalizing s with
  | nil => rfl
  | cons k ks ih =>
    simp only [State.zeroBytes]
    rw [ih (fun j hj => h j (List.mem_cons_of_mem _ hj))]
    have hk := h k (List.mem_cons_self ..)
    show (s.store s.self (base + k) [0#8]).mem.read a = _
    cases hl : s.line s.self (base + k) with
    | none => rw [s.store_of_absent _ _ hl]; exact Memory.read_writeBytes_outside _ (by simp only [List.length_singleton]; omega)
    | some l => rw [s.store_of_present _ _ hl]; rfl

/-- Where the block is absent they go to memory. -/
theorem State.zeroBytes_of_absent {s : State} {base : Nat} {ks : List Nat}
    (h : ∀ k ∈ ks, s.line s.self (base + k) = none) :
    (s.zeroBytes base ks).cache = s.cache ∧
      ∀ a, (s.zeroBytes base ks).mem.read a = if ∃ k ∈ ks, a = base + k then 0#8 else s.mem.read a := by
  induction ks generalizing s with
  | nil => simp [State.zeroBytes]
  | cons k ks ih =>
    have hk := h k (List.mem_cons_self ..)
    have hstep : s.observerStore s.self (base + k) [0#8] =
        { (({ s with mem := s.mem.writeBytes (base + k) [0#8] } : State).record s.self .store (base + k) 1).markChanged
            (base + k) 1 with
          reservations := keptByStore s.self (base + k) 1 s.reservations } := by
      rw [State.observerStore, s.store_of_absent _ _ hk]; rfl
    simp only [State.zeroBytes]
    have hline : ∀ p, (s.observerStore s.self (base + k) [0#8]).line s.self p = s.line s.self p := by
      intro p; rw [hstep]; rfl
    obtain ⟨hc, hm⟩ := ih (s := s.observerStore s.self (base + k) [0#8])
      (fun j hj => by rw [State.observerStore_self, hline]; exact h j (List.mem_cons_of_mem _ hj))
    refine ⟨by rw [hc, hstep]; rfl, fun a => ?_⟩
    have hmem : (s.observerStore s.self (base + k) [0#8]).mem.read a = if a = base + k then 0#8 else s.mem.read a := by
      rw [hstep]
      show (s.mem.writeBytes (base + k) [0#8]).read a = _
      by_cases h2 : a = base + k
      · subst h2; simp [Memory.writeBytes]
      · simp [Memory.writeBytes, Memory.read_write_of_ne _ h2, h2]
    rw [hm, hmem]
    by_cases h1 : ∃ j ∈ ks, a = base + j
    · rw [if_pos h1, if_pos (by obtain ⟨j, hj, e⟩ := h1; exact ⟨j, List.mem_cons_of_mem _ hj, e⟩)]
    · rw [if_neg h1]
      by_cases h2 : a = base + k
      · rw [if_pos h2, if_pos ⟨k, List.mem_cons_self .., h2⟩]
      · rw [if_neg h2, if_neg]
        rintro ⟨j, hj, e⟩
        rcases List.mem_cons.mp hj with rfl | hj
        · exact h2 e
        · exact h1 ⟨j, hj, e⟩

/-- Where the block is present, under one key, they go to the copy and memory is as it was. -/
theorem State.zeroBytes_of_present {s : State} {base : Nat} {ks : List Nat} {key : CacheKey} {l : Line}
    (hkey : ∀ k ∈ ks, s.keyOf s.self (base + k) = key) (hl : mapGet key s.cache = some l) :
    (s.zeroBytes base ks).mem = s.mem ∧
      ∃ l', mapGet key (s.zeroBytes base ks).cache = some l' ∧ l'.data.length = l.data.length ∧
        (ks ≠ [] → l'.dirty = true) ∧ (l.dirty = true → l'.dirty = true) := by
  induction ks generalizing s l with
  | nil => exact ⟨rfl, l, hl, rfl, by simp, id⟩
  | cons k ks ih =>
    have hk := hkey k (List.mem_cons_self ..)
    have hline : s.line s.self (base + k) = some l := by rw [State.line, hk]; exact hl
    simp only [State.zeroBytes]
    have hget : mapGet key (s.observerStore s.self (base + k) [0#8]).cache =
        some { data := patch l.data (base + k - s.blockBase (base + k)) [0#8], dirty := true } := by
      show mapGet key (s.store s.self (base + k) [0#8]).cache = _
      rw [s.store_of_present _ _ hline, ← hk]
      exact s.line_setLine s.self (base + k) _
    obtain ⟨hm, l', h1, h2, -, h4⟩ := ih (s := s.observerStore s.self (base + k) [0#8])
      (fun j hj => by simpa using hkey j (List.mem_cons_of_mem _ hj)) hget
    refine ⟨by rw [hm]; show (s.store s.self (base + k) [0#8]).mem = _; rw [s.store_of_present _ _ hline]; rfl,
      l', h1, by simpa using h2, fun _ => h4 rfl, fun _ => h4 rfl⟩

/-! ### One group (rules R75, R152) -/

theorem mem_of_mem_zeroNow {plan : List (List Nat)} {offsets : List Nat} {k : Nat} (h : k ∈ zeroNow plan offsets) :
    k ∈ offsets := by
  cases plan with
  | nil => exact h
  | cons g gs => exact (List.mem_filter.mp h).1

theorem mem_zeroLater {plan : List (List Nat)} {offsets : List Nat} {k : Nat} :
    k ∈ zeroLater plan offsets ↔ k ∈ offsets ∧ k ∉ zeroNow plan offsets := by
  simp [zeroLater]

/-- Where no group is left there is nothing after this one. -/
@[simp] theorem zeroLater_nil (offsets : List Nat) : zeroLater [] offsets = [] := by
  simp [zeroLater, zeroNow]

/-- One group is its byte stores, as far as memory and the caches go. -/
theorem State.zeroGroup_stores (s : State) (base : Nat) (offsets : List Nat) :
    let stored := { s with zeroPlan := s.zeroPlan.tail }.zeroBytes base (zeroNow s.zeroPlan offsets)
    (s.zeroGroup base offsets).mem = stored.mem ∧ (s.zeroGroup base offsets).cache = stored.cache ∧
      (s.zeroGroup base offsets).zeroPlan = s.zeroPlan.tail := by
  unfold State.zeroGroup
  dsimp only
  split <;> exact ⟨rfl, rfl, by simp⟩

/-- With nothing left after it, one group completes the instruction. -/
theorem State.zeroGroup_completes {s : State} {base : Nat} {offsets : List Nat}
    (h : ∀ k ∈ offsets, k ∈ zeroNow s.zeroPlan offsets) : Completed s (s.zeroGroup base offsets) := by
  unfold State.zeroGroup
  rw [if_pos (by rw [List.isEmpty_iff, List.eq_nil_iff_forall_not_mem]; intro k hk; exact (mem_zeroLater.mp hk).2 (h k (mem_zeroLater.mp hk).1))]
  exact (quiet_zeroBytes s _ base _).completed

/-- With something left after it, the instruction is in progress with exactly that. -/
theorem State.zeroGroup_goes_on {s : State} {base k : Nat} {offsets : List Nat} (hk : k ∈ offsets)
    (h : k ∉ zeroNow s.zeroPlan offsets) :
    InProgress s (s.zeroGroup base offsets) ∧
      (s.zeroGroup base offsets).hart.pending = some (.zero base (zeroLater s.zeroPlan offsets)) := by
  unfold State.zeroGroup
  rw [if_neg (by rw [List.isEmpty_iff]; intro he; exact List.not_mem_nil (he ▸ mem_zeroLater.mpr ⟨hk, h⟩))]
  exact ⟨(quiet_zeroBytes s _ base _).inProgress _, rfl⟩

/-- One group touches no line but those of the bytes that were left. -/
theorem State.get_zeroGroup_of_ne {s : State} {base : Nat} {offsets : List Nat} {key : CacheKey}
    (h : ∀ k ∈ offsets, key ≠ s.keyOf s.self (base + k)) :
    mapGet key (s.zeroGroup base offsets).cache = mapGet key s.cache := by
  rw [(s.zeroGroup_stores base offsets).2.1]
  exact State.get_zeroBytes_of_ne (s := { s with zeroPlan := s.zeroPlan.tail }) fun k hk => h k (mem_of_mem_zeroNow hk)

/-- It changes no byte of memory but those that were left. -/
theorem State.read_zeroGroup_of_ne {s : State} {base a : Nat} {offsets : List Nat} (h : ∀ k ∈ offsets, a ≠ base + k) :
    (s.zeroGroup base offsets).mem.read a = s.mem.read a := by
  rw [(s.zeroGroup_stores base offsets).1]
  exact State.read_zeroBytes_of_ne (s := { s with zeroPlan := s.zeroPlan.tail }) fun k hk => h k (mem_of_mem_zeroNow hk)

/-- The view of the executing hart after it: zero at the bytes of the group, and elsewhere as it was. -/
theorem State.view_zeroGroup {s : State} (h : s.LinesFull) (base : Nat) (offsets : List Nat) (a : Nat) :
    (s.zeroGroup base offsets).view s.self a =
      if ∃ k ∈ zeroNow s.zeroPlan offsets, a = base + k then 0#8 else s.view s.self a := by
  obtain ⟨hm, hc, -⟩ := s.zeroGroup_stores base offsets
  have hf : Untouched s (s.zeroGroup base offsets) := (zeroGroup_cases s base offsets).elim (·.frame) (·.frame)
  have hq := quiet_zeroBytes s s.zeroPlan.tail base (zeroNow s.zeroPlan offsets)
  rw [State.view_congr (hf.cfg.trans hq.cfg.symm) (hf.regions.trans hq.regions.symm) hm hc]
  exact State.view_zeroBytes (s := { s with zeroPlan := s.zeroPlan.tail }) (h.congr rfl rfl) base _ a

/-- One group touches no other block than the one whose bytes were left (rules R109, R152). -/
theorem otherBlocksSame_zeroGroup {s : State} {pa : Nat} {offsets : List Nat} (h : s.pmaConstraintsMet pa = true)
    (hk : ∀ k ∈ offsets, k < s.cfg.cbs) : OtherBlocksSame s (s.zeroGroup (s.blockBase pa) offsets) pa := by
  have hb : ∀ k ∈ offsets, s.blockBase pa + k ∈ s.block pa := fun k h => by
    have := hk k h; rw [State.mem_block]; omega
  refine ⟨fun key hne => State.get_zeroGroup_of_ne fun k hk' => ?_, fun a ha => State.read_zeroGroup_of_ne fun k hk' e => ha (e ▸ hb k hk')⟩
  rw [keyOf_eq_of_pmaConstraintsMet h (hb k hk')]; exact hne

/-! ### The global memory order (rule R100) -/

/-- Each byte store is an element of its own. -/
theorem State.zeroBytes_gmo (s : State) (base : Nat) (ks : List Nat) :
    (s.zeroBytes base ks).gmo =
      (ks.map fun k => ({ observer := s.self, kind := .store, base := base + k, size := 1 } : MemOp)).reverse ++ s.gmo := by
  induction ks generalizing s with
  | nil => rfl
  | cons k ks ih => simp [State.zeroBytes, ih, State.observerStore]

end Sys2Proof.Machine
end

