-- ==== Sys2Proof/Laws/Invariant.lean ====
section
/-!
SUPPORT. What each shared operation does to the parts of the invariant `State.Inv`: the values a register can hold, the
canonical forms of memory and caches, and the harts.
-/

namespace Sys2Proof.Machine

variable {c : Config} {s t : State}

/-! ### Values a register can hold (rules R21, R22) -/

theorem Config.trunc_toNat (c : Config) (w : Word) : (c.trunc w).toNat = w.toNat % 2 ^ c.xlen.bits := by
  unfold Config.trunc Xlen.bits
  cases c.xlen with
  | rv32 => simp [BitVec.toNat_and, Nat.and_two_pow_sub_one_eq_mod w.toNat 32]
  | rv64 => exact (Nat.mod_eq_of_lt w.isLt).symm

@[simp] theorem Config.trunc_trunc (c : Config) (w : Word) : c.trunc (c.trunc w) = c.trunc w := by
  apply BitVec.eq_of_toNat_eq; simp [Config.trunc_toNat]

@[simp] theorem Config.trunc_zero (c : Config) : c.trunc 0#64 = 0#64 := by
  apply BitVec.eq_of_toNat_eq; simp [Config.trunc_toNat]

/-- A number below `2 ^ 32` is one a register can hold. -/
theorem Config.trunc_of_lt (c : Config) {w : Word} (h : w.toNat < 2 ^ 32) : c.trunc w = w := by
  apply BitVec.eq_of_toNat_eq
  rw [Config.trunc_toNat]
  unfold Xlen.bits
  cases c.xlen
  · exact Nat.mod_eq_of_lt h
  · exact Nat.mod_eq_of_lt w.isLt

theorem Config.trunc_code (c : Config) (e : Cause) : c.trunc (BitVec.ofNat 64 e.code) = BitVec.ofNat 64 e.code :=
  Config.trunc_of_lt c (by cases e <;> decide)

theorem Config.aligned_iff {c : Config} {a : Word} : Config.aligned c a = true ↔ a.toNat % c.ialign = 0 ∧ c.trunc a = a := by
  simp [Config.aligned]

theorem Config.ialign_cases (c : Config) : c.ialign = 2 ∨ c.ialign = 4 := by
  unfold Config.ialign; split
  · exact .inl rfl
  · exact .inr rfl

/-- A multiple of 4 truncated is an address an instruction can lie at. -/
theorem Config.aligned_trunc {a : Word} (h : a.toNat % c.ialign = 0) : Config.aligned c (c.trunc a) = true := by
  rw [Config.aligned_iff]
  refine ⟨?_, Config.trunc_trunc c a⟩
  rw [Config.trunc_toNat]
  unfold Xlen.bits
  rcases Config.ialign_cases c with h2 | h4
  · rw [h2] at h ⊢; cases c.xlen <;> simp only <;> omega
  · rw [h4] at h ⊢; cases c.xlen <;> simp only <;> omega

theorem Config.aligned_add_four {a : Word} (h : Config.aligned c a = true) :
    Config.aligned c (c.trunc (a + 4#64)) = true := by
  apply Config.aligned_trunc
  have := (Config.aligned_iff.mp h).1
  rw [BitVec.toNat_add]
  rcases Config.ialign_cases c with h2 | h4
  · rw [h2] at this ⊢; simp only [BitVec.toNat_ofNat]; omega
  · rw [h4] at this ⊢; simp only [BitVec.toNat_ofNat]; omega

theorem TrapRegs.base_mod (r : TrapRegs) : r.base.toNat % 4 = 0 := by
  unfold TrapRegs.base
  have h : ∀ i < 2, (r.tvec &&& ~~~3#64).getLsbD i = false := by
    intro i hi; interval_cases i <;> simp
  have h0 := h 0 (by omega)
  have h1 := h 1 (by omega)
  simp only [BitVec.getLsbD, Nat.testBit, Nat.shiftRight_eq_div_pow, Nat.one_and_eq_mod_two, bne_eq_false_iff_eq] at h0 h1
  omega

theorem Config.aligned_base (c : Config) (r : TrapRegs) : Config.aligned c (c.trunc r.base) = true := by
  apply Config.aligned_trunc
  have := r.base_mod
  rcases Config.ialign_cases c with h2 | h4
  · rw [h2]; omega
  · rw [h4]; exact this

/-! ### Modes -/

theorem modeOf_m (c : Config) (v : Bool) : modeOf c .m v = .M := rfl

/-- The mode of a hart, read back from its level and its virtualisation bit, is that mode. -/
theorem modeOf_level_virt {m : Mode} (h : m.present c = true) : modeOf c m.level m.virt = m := by
  cases m <;> simp_all [modeOf, Mode.level, Mode.virt, Mode.present]

theorem hasS_of_hasH (h : c.hasH = true) : c.hasS = true := by
  revert h; unfold Config.hasH Config.hasS; cases c.modes <;> simp

theorem modeOf_present {l : PrivLevel} {v : Bool} (h : l ≠ .m → c.hasS = true) : (modeOf c l v).present c = true := by
  cases l with
  | m => rfl
  | s => simp only [modeOf]; split_ifs <;> simp_all [Mode.present]
  | u => simp only [modeOf]; split_ifs <;> simp_all [Mode.present, Config.hasU]

theorem hasS_of_present {m : Mode} (h : m.present c = true) (hm : m ≠ .M) : c.hasS = true := by
  cases m <;> simp_all [Mode.present, Config.hasU] <;> exact hasS_of_hasH h

/-! ### A hart after a trap, a return, and completing (rules R206, R207) -/

/-- Every exception the machine raises has a trap value that a register can hold. -/
def Exc.Fits (c : Config) (e : Exc) : Prop := c.trunc e.tval = e.tval

theorem gpaReg_fits {old : Word} (h : c.trunc old = old) (e : Exc) : c.trunc (gpaReg c e old) = gpaReg c e old := by
  unfold gpaReg; split <;> simp [h]

theorem tinstReg_fits {old : Word} (h : c.trunc old = old) (e : Exc) (n : Nat) :
    c.trunc (tinstReg c e n old) = tinstReg c e n old := by
  unfold tinstReg; split <;> simp [h]

theorem Hart.Ok.trapHart {h : Hart} (hok : Hart.Ok c h) (n : Nat) {e : Exc} (he : e.Fits c) :
    Hart.Ok c (trapHart c n h e) := by
  have hcsr := hok.csr
  have hpc := (Config.aligned_iff.mp hok.pc)
  have hback := modeOf_level_virt hok.mode
  have hmode := hok.mode
  simp only [HostCsrs.legal, TrapRegs.legal, Bool.and_eq_true, beq_iff_eq] at hcsr
  have hS : ∀ k, trapTarget c h.mode h.csr e.cause = k → k ≠ .m → c.hasS = true := by
    intro k hk hne
    unfold trapTarget at hk
    split_ifs at hk with h1 h2
    · exact absurd hk.symm hne
    all_goals (simp only [Bool.or_eq_true, not_or] at h1; simpa using h1.1.2)
  have hVS : trapTarget c h.mode h.csr e.cause = .vs → c.hasH = true := by
    intro hk
    unfold trapTarget at hk
    split_ifs at hk with h1 h2
    simp only [Bool.and_eq_true] at h2
    have hv := h2.1.1
    revert hv hmode
    cases h.mode <;> simp [Mode.virt, Mode.present]
  unfold Sys2Proof.Machine.trapHart
  split
  · refine ⟨rfl, Config.aligned_base c _, hok.x, hok.cmo, ?_, hok.pending⟩
    simp_all [trapToM, HostCsrs.legal, TrapRegs.legal, TrapRegs.save, Config.trunc_code, Exc.Fits, Config.aligned_iff,
      gpaReg_fits, tinstReg_fits]
  · rename_i hk
    have := hS _ hk (by decide)
    refine ⟨this, Config.aligned_base c _, hok.x, hok.cmo, ?_, hok.pending⟩
    simp_all [trapToS, HostCsrs.legal, TrapRegs.legal, TrapRegs.save, Config.trunc_code, Exc.Fits, Config.aligned_iff,
      gpaReg_fits, tinstReg_fits]
  · rename_i hk
    refine ⟨hVS hk, Config.aligned_base c _, hok.x, hok.cmo, ?_, hok.pending⟩
    simp_all [trapToVS, HostCsrs.legal, TrapRegs.legal, TrapRegs.save, Config.trunc_code, Exc.Fits, Config.aligned_iff]

theorem Hart.Ok.mretHart {h : Hart} (hok : Hart.Ok c h) : Hart.Ok c (mretHart c h) := by
  have hcsr := hok.csr
  simp only [HostCsrs.legal, TrapRegs.legal, Bool.and_eq_true, beq_iff_eq] at hcsr
  have hb : (modeOf c h.csr.mstatus.mpp h.csr.mstatus.mpv).present c = true := by tauto
  refine ⟨hb, ?_, hok.x, hok.cmo, ?_, hok.pending⟩
  · have : Config.aligned c h.csr.mtrap.epc = true := by tauto
    simp only [Sys2Proof.Machine.mretHart]
    rw [(Config.aligned_iff.mp this).2]; exact this
  · have hu : (modeOf c (if c.hasU then .u else .m) h.csr.mstatus.mpv).present c = true := by
      apply modeOf_present; split_ifs with hu <;> simp_all [Config.hasU]
    simp only [Sys2Proof.Machine.mretHart, HostCsrs.legal, TrapRegs.legal, Bool.and_eq_true, beq_iff_eq]
    tauto

theorem Hart.Ok.sretResult {h g : Hart} (hok : Hart.Ok c h) (hg : sretResult c h = some g) : Hart.Ok c g := by
  have hcsr := hok.csr
  have hmode := hok.mode
  simp only [HostCsrs.legal, TrapRegs.legal, Bool.and_eq_true, beq_iff_eq] at hcsr
  have hsret : c.hasS = true → Hart.Ok c (sretHart c h) := by
    intro hS
    refine ⟨modeOf_present fun _ => hS, ?_, hok.x, hok.cmo, ?_, hok.pending⟩
    · have : Config.aligned c h.csr.strap.epc = true := by tauto
      simp only [sretHart]
      rw [(Config.aligned_iff.mp this).2]; exact this
    · simp only [sretHart, HostCsrs.legal, TrapRegs.legal, Bool.and_eq_true, beq_iff_eq]; tauto
  revert hg
  unfold Sys2Proof.Machine.sretResult
  cases hm : h.mode with
  | M => intro hg; simp only at hg; split_ifs at hg with hS; cases hg; exact hsret hS
  | S => intro hg; cases hg; rw [hm] at hmode; exact hsret hmode
  | VS =>
    intro hg; cases hg
    rw [hm] at hmode
    refine ⟨by simp only [vsretHart]; split_ifs <;> exact hmode, ?_, hok.x, hok.cmo, ?_, hok.pending⟩
    · have : Config.aligned c h.csr.vstrap.epc = true := by tauto
      simp only [vsretHart]
      rw [(Config.aligned_iff.mp this).2]; exact this
    · simp only [vsretHart, HostCsrs.legal, TrapRegs.legal, Bool.and_eq_true, beq_iff_eq]; tauto
  | U => intro hg; cases hg
  | VU => intro hg; cases hg

theorem Hart.Ok.completed {h : Hart} (hok : Hart.Ok c h) :
    Hart.Ok c { h with pc := c.trunc (h.pc + 4#64), pending := none } :=
  ⟨hok.mode, Config.aligned_add_four hok.pc, hok.x, hok.cmo, hok.csr, rfl⟩

theorem Hart.Ok.withPending {h : Hart} (hok : Hart.Ok c h) {p : Pending} (hp : pendingOk c (some p) = true) :
    Hart.Ok c { h with pending := some p } :=
  ⟨hok.mode, hok.pc, hok.x, hok.cmo, hok.csr, hp⟩

theorem Hart.Ok.setX {h : Hart} (hok : Hart.Ok c h) (i : RegNum) (v : Word) :
    Hart.Ok c { h with x := h.x.set i (c.trunc v) } := by
  refine ⟨hok.mode, hok.pc, fun j => ?_, hok.cmo, hok.csr, hok.pending⟩
  simp only [Fin.getElem_fin, Vector.getElem_set]
  split_ifs
  · exact Config.trunc_trunc c v
  · exact hok.x j

/-! ### Exceptions (rule R201) -/

theorem readX_fits (s : State) (i : RegNum) : s.cfg.trunc (s.readX i) = s.readX i := by
  unfold State.readX; split <;> simp

theorem illegal_fits (s : State) (i : Instr) : (s.illegal i).Fits s.cfg := by
  refine Config.trunc_of_lt s.cfg ?_
  simp only [State.illegal]
  split
  · rw [BitVec.toNat_setWidth]
    have := ((encode s.cfg.prefetchDecode i).getD 0#32).isLt
    omega
  · decide

theorem fire_fits {l : List Trigger} {e : Exc} (h : s.fire l = .raise e) : e.Fits s.cfg := by
  unfold State.fire at h
  split at h
  · simp at h
  · split at h
    · simp at h
    · simp only [Check.raise.injEq] at h; rw [← h]; exact Config.trunc_trunc _ _

theorem accessTriggers_fits {k : AccessClass} {va : Word} {e : Exc} (h : s.accessTriggers k va = .raise e) :
    e.Fits s.cfg := by
  unfold State.accessTriggers at h
  split at h
  · simp at h
  · exact fire_fits h

theorem checkAddr_fits {k : OpClass} {r : RegNum} {e : Exc} (h : s.checkAddr k (s.effAddr r) = .raise e) :
    e.Fits s.cfg := by
  rw [Exc.Fits, (checkAddr_raise h).1]; exact readX_fits s r

theorem fetchAddr_fits {a : Word} (ha : s.cfg.trunc a = a) {e : Exc} (h : s.fetchAddr a = .raise e) : e.Fits s.cfg := by
  unfold State.fetchAddr at h
  dsimp only at h
  split at h
  · cases h; exact ha
  · cases h; exact ha
  · split_ifs at h <;> (cases h; exact ha)

theorem fetchAt_fits {k : Nat} {e : Exc} (h : s.fetchAt k = .raise e) : e.Fits s.cfg := by
  unfold State.fetchAt at h
  cases hf : s.fetchAddr (s.cfg.trunc (s.hart.pc + BitVec.ofNat 64 k)) with
  | pass pa => simp [hf, Check.andThen] at h
  | raise e' =>
    simp only [hf, Check.andThen, Check.raise.injEq] at h
    subst h
    exact fetchAddr_fits (Config.trunc_trunc _ _) hf
  | refuse r => simp [hf, Check.andThen] at h

theorem andThen_raise {α β : Type} {x : Check α} {k : α → Check β} {e : Exc} (h : x.andThen k = .raise e) :
    x = .raise e ∨ ∃ a, x = .pass a ∧ k a = .raise e := by
  cases x with
  | pass a => exact .inr ⟨a, rfl, h⟩
  | raise e' => exact .inl (by simpa [Check.andThen] using h)
  | refuse r => simp [Check.andThen] at h

theorem fetch_fits (hpc : s.cfg.trunc s.hart.pc = s.hart.pc) {e : Exc} (h : s.fetch = .raise e) : e.Fits s.cfg := by
  unfold State.fetch at h
  split at h
  · simp only [Check.raise.injEq] at h; rw [← h]; exact hpc
  · rcases andThen_raise h with h | ⟨b0, -, h⟩
    · exact fetchAt_fits h
    rcases andThen_raise h with h | ⟨b1, -, h⟩
    · exact fetchAt_fits h
    split at h
    · rcases andThen_raise h with h | ⟨b2, -, h⟩
      · exact fetchAt_fits h
      rcases andThen_raise h with h | ⟨b3, -, h⟩
      · exact fetchAt_fits h
      simp at h
    · simp at h

/-! ### Values of the control registers (rules R37, R38) -/

theorem legalise_legalise (w : WarlShape) (v : Word) : legalise w (legalise w v) = legalise w v := by
  unfold legalise
  apply BitVec.eq_of_getLsbD_eq
  intro i hi
  simp only [BitVec.getLsbD_setWidth, BitVec.getLsbD_and, BitVec.getLsbD_or]
  by_cases h12 : i < 12
  · cases hw : w.wmask.getLsbD i <;> cases hf : w.fixed.getLsbD i <;> cases hc : cmoFieldMask.getLsbD i <;> simp_all
  · have : ∀ x : BitVec 12, x.getLsbD i = false := fun x => BitVec.getLsbD_of_ge x i (by omega)
    simp [this]

theorem CmoCsrs.legal_set {r : CmoCsrs} (h : r.legal c = true) (k : CmoReg) (v : Word) :
    (r.set k (legalise (k.shape c) v)).legal c = true := by
  simp only [CmoCsrs.legal, Bool.and_eq_true, beq_iff_eq] at h ⊢
  cases k <;> simp only [CmoCsrs.set, CmoReg.shape, legalise_legalise] <;> tauto

/-! ### Memory and caches (rules R44, R61, R64, R109) -/

/-- Memory and the caches are in their canonical forms, and every cached block is one that can be. -/
structure State.MemOk (s : State) : Prop where
  mem    : s.mem.wf = true
  sorted : cacheSorted s.cache = true
  lines  : s.cache.all s.lineOk = true

theorem State.Inv.memOk (h : s.Inv) : s.MemOk := ⟨h.mem, h.sorted, h.lines⟩

theorem State.MemOk.congr (h : s.MemOk) (hc : t.cfg = s.cfg) (hm : t.mem = s.mem) (hk : t.cache = s.cache) : t.MemOk := by
  refine ⟨hm ▸ h.mem, hk ▸ h.sorted, ?_⟩
  have : t.lineOk = s.lineOk := by funext p; simp [State.lineOk, hc, State.setCached_congr hc]
  rw [hk, this]; exact h.lines

theorem State.MemOk.withMem (h : s.MemOk) {m : Memory} (hm : m.wf = true) : State.MemOk { s with mem := m } :=
  ⟨hm, h.sorted, h.lines⟩

theorem State.MemOk.setLine (h : s.MemOk) {o : ObserverId} {pa : Nat} {l : Line} (hl : l.data.length = s.cfg.cbs)
    (hs : s.setCached (s.cset o pa) = true) : (s.setLine o pa l).MemOk := by
  refine ⟨h.mem, mapSorted_mapSet cacheKeyLt_strictOrder h.sorted, ?_⟩
  rw [List.all_eq_true]
  intro p hp
  rcases mem_mapSet hp with rfl | hp
  · simp only [State.lineOk, State.keyOf, s.blockBase_mod, State.setLine_cfg, State.setCached_setLine, hl, hs]
    simp
  · exact List.all_eq_true.mp h.lines p hp

theorem State.MemOk.dropLine (h : s.MemOk) (o : ObserverId) (pa : Nat) : (s.dropLine o pa).MemOk :=
  ⟨h.mem, mapSorted_mapDel h.sorted,
    List.all_eq_true.mpr fun p hp => List.all_eq_true.mp h.lines p (mem_of_mem_mapDel hp)⟩

/-- A line that is held is one of `CBS` bytes in a set that has a cache. -/
theorem State.MemOk.line (h : s.MemOk) {o : ObserverId} {pa : Nat} {l : Line} (hl : s.line o pa = some l) :
    l.data.length = s.cfg.cbs ∧ s.setCached (s.cset o pa) = true := by
  have := List.all_eq_true.mp h.lines _ (mem_of_mapGet hl)
  simp only [State.lineOk, Bool.and_eq_true, beq_iff_eq] at this
  exact ⟨this.1.2, this.2⟩

theorem State.MemOk.markDiffering (h : s.MemOk) (o : ObserverId) (pa : Nat) : (s.markDiffering o pa).MemOk :=
  h.congr (by simp) (by simp) (by simp)

theorem State.MemOk.writeDirty (h : s.MemOk) (o : ObserverId) (pa : Nat) : (s.writeDirty o pa).MemOk := by
  rcases s.writeDirty_cases o pa with ⟨e, -⟩ | ⟨l, hl, -, e⟩
  · rw [e]; exact h
  · rw [e]
    obtain ⟨h1, h2⟩ := h.line hl
    exact ((h.markDiffering o pa).setLine (l := { l with dirty := false }) (by simpa using h1) (by simpa using h2)).withMem
      (Memory.writeBytes_wf h.mem _ _)

theorem State.MemOk.store (h : s.MemOk) (o : ObserverId) (pa : Nat) (v : List Byte) : (s.store o pa v).MemOk := by
  cases hl : s.line o pa with
  | none => rw [s.store_of_absent o pa hl]; exact h.withMem (Memory.writeBytes_wf h.mem _ _)
  | some l =>
    rw [s.store_of_present o pa hl]
    obtain ⟨h1, h2⟩ := h.line hl
    exact h.setLine (by simpa using h1) h2

theorem State.MemOk.observerStore (h : s.MemOk) (o : ObserverId) (pa : Nat) (v : List Byte) :
    (s.observerStore o pa v).MemOk := (h.store o pa v).congr rfl rfl rfl

theorem State.MemOk.zeroBytes (h : s.MemOk) (base : Nat) (ks : List Nat) : (s.zeroBytes base ks).MemOk := by
  induction ks generalizing s with
  | nil => exact h
  | cons k ks ih => exact ih (h.observerStore _ _ _)

theorem State.MemOk.fill (h : s.MemOk) (o : ObserverId) (pa : Nat) : (s.fill o pa).MemOk := by
  cases hf : s.fillOffered o pa with
  | false => rw [s.fill_of_not_offered o pa hf]; exact h
  | true =>
    rw [s.fill_of_offered o pa hf]
    exact (h.markDiffering o pa).setLine (by simp [State.memBlock]) (by simpa using State.setCached_of_fillOffered hf)

theorem State.MemOk.drop (h : s.MemOk) (o : ObserverId) (pa : Nat) : (s.drop o pa).MemOk := by
  rcases s.drop_cases o pa with e | e <;> rw [e]
  · exact h
  · exact (h.markDiffering o pa).dropLine o pa

theorem State.MemOk.invalidate (h : s.MemOk) (o : ObserverId) (pa : Nat) : (s.invalidate o pa).MemOk :=
  (h.markDiffering o pa).dropLine o pa

theorem State.MemOk.doInvalidate (h : s.MemOk) (pa : Nat) : (s.doInvalidate pa).MemOk :=
  (h.invalidate s.self pa).congr rfl rfl rfl

theorem State.MemOk.doClean (h : s.MemOk) (pa : Nat) : (s.doClean pa).MemOk :=
  (h.writeDirty s.self pa).congr rfl rfl rfl

theorem State.MemOk.doFlush (h : s.MemOk) (pa : Nat) : (s.doFlush pa).MemOk := by
  cases hf : s.cfg.flushAtomic with
  | true =>
    rw [doFlush_atomic hf]
    exact (State.MemOk.invalidate (s := (s.clean s.self pa).recordBlock .flush pa)
      ((h.writeDirty s.self pa).congr rfl rfl rfl) s.self pa).congr rfl rfl rfl
  | false =>
    rw [doFlush_split hf]
    exact (h.writeDirty s.self pa).congr rfl rfl rfl

theorem State.MemOk.zeroGroup (h : s.MemOk) (base : Nat) (offsets : List Nat) : (s.zeroGroup base offsets).MemOk := by
  have h' : State.MemOk { s with zeroPlan := s.zeroPlan.tail } := h.congr rfl rfl rfl
  unfold State.zeroGroup
  dsimp only
  split <;> exact (h'.zeroBytes base _).congr rfl rfl rfl

theorem State.MemOk.hintAllocate (h : s.MemOk) (target : Option Nat) : (s.hintAllocate target).MemOk := by
  unfold State.hintAllocate
  split
  · exact h
  · split
    · exact h
    · rename_i rest _
      exact (h.congr (t := { s with hintFills := rest }) rfl rfl rfl).fill _ _
    · exact h.congr rfl rfl rfl

end Sys2Proof.Machine
end

