-- ==== Sys2Proof/Laws/Access.lean ====
section
/-!
SUPPORT. What a load or a store can answer (spec rules R10, R62, R107, R108), said once for each kind of access, and the
invariant's parts after one; the harts after the executing one has changed.
-/

namespace Sys2Proof.Machine

variable {s t u : State}

/-! ### What they set -/

@[simp] theorem State.observerLoad_gmo (s : State) (o : ObserverId) (pa n : Nat) :
    (s.observerLoad o pa n).gmo = { observer := o, kind := .load, base := pa, size := n } :: s.gmo := rfl
@[simp] theorem State.observerLoad_lastLoad (s : State) (o : ObserverId) (pa n : Nat) :
    (s.observerLoad o pa n).lastLoad = some { observer := o, base := pa, bytes := s.load o pa n } := rfl
@[simp] theorem State.observerLoad_free (s : State) (o : ObserverId) (pa n : Nat) :
    (s.observerLoad o pa n).free = s.free + 1 := rfl
theorem State.goOn_of_ne_zero (s : State) {k : Nat} (e : Event) (h : k ≠ 0) :
    s.goOn k e = { s with schedule := e :: s.schedule } := by simp [State.goOn, h]

/-! ### Bytes whose load value is open (rule R101) -/

/-- A byte was invalidated by an observer with no store to it since exactly if some element of the order is that invalidate or flush
and none newer is a store to the byte. -/
theorem invalidatedSinceStore_iff {o : ObserverId} {a : Nat} {l : List MemOp} : invalidatedSinceStore o a l = true ↔
    ∃ newer op older, l = newer ++ op :: older ∧ op.covers a = true ∧ op.observer = o ∧
      (op.kind = .invalidate ∨ op.kind = .flush) ∧ ∀ st ∈ newer, ¬(st.kind = .store ∧ st.covers a = true) := by
  induction l with
  | nil => simp [invalidatedSinceStore]
  | cons x xs ih =>
    unfold invalidatedSinceStore
    split
    · rename_i hx
      simp only [Bool.and_eq_true, beq_iff_eq] at hx
      refine ⟨by simp, ?_⟩
      rintro ⟨newer, op, older, he, hc, ho, hk, hn⟩
      cases newer with
      | nil => cases he; rcases hk with hk | hk <;> simp [hk] at hx
      | cons y ys => cases he; exact absurd ⟨hx.2, hx.1⟩ (hn x (List.mem_cons_self ..))
    · rename_i hx
      simp only [Bool.and_eq_true, beq_iff_eq] at hx
      split
      · rename_i hy
        simp only [Bool.and_eq_true, Bool.or_eq_true, beq_iff_eq] at hy
        exact ⟨fun _ => ⟨[], x, xs, rfl, hy.1.1, hy.2, hy.1.2, by simp⟩, fun _ => rfl⟩
      · rename_i hy
        simp only [Bool.and_eq_true, Bool.or_eq_true, beq_iff_eq] at hy
        rw [ih]
        constructor
        · rintro ⟨newer, op, older, rfl, hc, ho, hk, hn⟩
          refine ⟨x :: newer, op, older, rfl, hc, ho, hk, fun st hst => ?_⟩
          rcases List.mem_cons.mp hst with rfl | hst
          · exact fun h => hx ⟨h.2, h.1⟩
          · exact hn st hst
        · rintro ⟨newer, op, older, he, hc, ho, hk, hn⟩
          cases newer with
          | nil => cases he; exact absurd ⟨⟨hc, hk⟩, ho⟩ hy
          | cons y ys => cases he; exact ⟨ys, op, older, rfl, hc, ho, hk, fun st hst => hn st (List.mem_cons_of_mem _ hst)⟩

/-- With `InvalLoadValue` memory, and at every byte that was not so invalidated, a load returns the view. -/
theorem State.loadByte_eq_view {o : ObserverId} {pa k : Nat}
    (h : s.cfg.invalLoadValue = .memory ∨ invalidatedSinceStore o (pa + k) s.gmo = false) :
    s.loadByte o pa k = s.view o (pa + k) := by
  rcases h with h | h <;> simp [State.loadByte, h]

/-! ### What an access can answer -/

/-- An access that can be made now. -/
theorem State.accessOffered_iff {o : ObserverId} {pa n : Nat} :
    s.accessOffered o pa n = true ↔ n ≠ 0 ∧ s.between o = true ∧ ∀ k < n, s.cfg.observes o (pa + k) = true := by
  simp [State.accessOffered, and_assoc]

theorem State.access_of_not_offered {o : ObserverId} {pa n : Nat} (h : s.accessOffered o pa n = false) (t : State) :
    s.access o pa n t = .next s := by simp [State.access, h]

/-- Everything an access can do that leads on: nothing where it is not offered, or itself, on bytes that exist and are no device's. -/
theorem State.access_next {o : ObserverId} {pa n : Nat} (h : s.access o pa n t = .next u) :
    (s.accessOffered o pa n = false ∧ u = s) ∨
    (s.accessOffered o pa n = true ∧ (∀ k < n, s.exist (pa + k) = true) ∧ s.onDevice pa n = false ∧ u = t) := by
  unfold State.access at h
  split_ifs at h with h1 h2 h3
  · exact .inl ⟨by simpa using h1, by simpa using h.symm⟩
  · exact .inr ⟨by simpa using h1, by simpa using h2, by simpa using h3, by simpa using h.symm⟩

/-- Everything a load by an observer can do that leads on. -/
theorem State.loadEvent_next {o : ObserverId} {pa n : Nat} (h : s.loadEvent o pa n = .next u) :
    u = s ∨ ∃ k left e, u = (s.observerLoad o pa k).goOn left e :=
  (State.access_next h).elim (fun h => .inl h.2) fun h => .inr ⟨_, _, _, h.2.2.2⟩

/-- Everything a store by an observer can do that leads on. -/
theorem State.storeEvent_next {o : ObserverId} {pa : Nat} {v : List Byte} (h : s.storeEvent o pa v = .next u) :
    u = s ∨ u = s.observerStore o pa v := by
  unfold State.storeEvent at h
  split at h
  · exact (State.access_next h).imp And.right fun h => h.2.2.2
  · exact .inl (by simpa using h.symm)

/-- The exceptions of the executing hart's accesses all have the effective address as trap value (rule R170). -/
theorem State.hostTarget_raise {k : AccessKind} {va : Word} {n : Nat} {e : Exc} (h : s.hostTarget k va n = .raise e) :
    e.tval = va ∧ (e.cause = k.accessFault ∨ e.cause = k.pageFault ∨ e.cause = k.guestPageFault) := by
  unfold State.hostTarget at h
  dsimp only at h
  split at h
  · cases h; exact ⟨rfl, .inl rfl⟩
  · cases h; exact ⟨rfl, .inr (.inr rfl)⟩
  · split_ifs at h
    · cases h; exact ⟨rfl, .inr (.inl rfl)⟩
    · cases h; exact ⟨rfl, .inr (.inr rfl)⟩
    · cases h; exact ⟨rfl, .inl rfl⟩

theorem State.hostTarget_fits {k : AccessKind} {a : Word} {n : Nat} {e : Exc}
    (h : s.hostTarget k (s.cfg.trunc a) n = .raise e) : e.Fits s.cfg := by
  rw [Exc.Fits, (State.hostTarget_raise h).1]; exact Config.trunc_trunc _ _

/-- Everything that an access of the executing hart can do that leads on. -/
theorem State.hostAccess_next {kind : AccessKind} {addr : Word} {n : Nat} {go : Nat → Nat → State}
    (h : s.hostAccess kind (s.cfg.trunc addr) n go = .next u) :
    u = s ∨ (∃ pa, u = go pa (s.inBlock (s.cfg.trunc addr).toNat n)) ∨ ∃ x, u = s.trap x ∧ x.Fits s.cfg := by
  unfold State.hostAccess at h
  dsimp only at h
  split at h
  · exact .inl (by simpa using h.symm)
  · rcases checked_next h with ⟨pa, -, h⟩ | ⟨x, hx, hu⟩
    · exact (State.access_next h).elim (fun h => .inl h.2) fun h => .inr (.inl ⟨pa, h.2.2.2⟩)
    · exact .inr (.inr ⟨x, hu, State.hostTarget_fits hx⟩)

/-- Everything `MemRead` can do that leads on. -/
theorem State.memRead_next {addr : Word} {n : Nat} (h : s.memRead addr n = .next u) :
    u = s ∨ (∃ pa k left e, u = (s.observerLoad s.self pa k).goOn left e) ∨
    ∃ x, u = s.trap x ∧ x.Fits s.cfg := by
  unfold State.memRead at h
  exact (State.hostAccess_next h).imp_right (Or.imp_left fun ⟨pa, h⟩ => ⟨pa, _, _, _, h⟩)

/-- Everything `MemWrite` can do that leads on. -/
theorem State.memWrite_next {addr : Word} {v : List Byte} (h : s.memWrite addr v = .next u) :
    u = s ∨ (∃ pa k left e, u = (s.observerStore s.self pa (v.take k)).goOn left e) ∨
    ∃ x, u = s.trap x ∧ x.Fits s.cfg := by
  unfold State.memWrite at h
  exact (State.hostAccess_next h).imp_right (Or.imp_left fun ⟨pa, h⟩ => ⟨pa, _, _, _, h⟩)

/-! ### Between instructions (rule R209) -/

/-- A host instruction of the executing hart does nothing, or what it does between instructions. -/
theorem State.byHost_cases (s t : State) : s.byHost t = s ∨ (s.hart.pending = none ∧ s.byHost t = t) := by
  unfold State.byHost
  cases h : s.hart.pending <;> simp

theorem State.byHostOut_next {o : Out} (h : s.byHostOut o = .next u) : u = s ∨ (s.hart.pending = none ∧ o = .next u) := by
  unfold State.byHostOut at h
  cases hp : s.hart.pending with
  | none => exact .inr ⟨rfl, by simpa [hp] using h⟩
  | some p => exact .inl (by simpa [hp] using h.symm)

/-! ### The parts of the invariant -/

theorem State.MemOk.loaded (h : s.MemOk) (o : ObserverId) (pa n left : Nat) (e : Event) :
    ((s.observerLoad o pa n).goOn left e).MemOk := h.congr (by simp) (by simp) (by simp)

theorem State.MemOk.stored (h : s.MemOk) (o : ObserverId) (pa : Nat) (v : List Byte) (left : Nat) (e : Event) :
    ((s.observerStore o pa v).goOn left e).MemOk := (h.observerStore o pa v).congr (by simp) (by simp) (by simp)

/-- The invariant of a state that differs in its executing hart, memory and caches, and in fields the invariant does not name. -/
theorem State.Inv.congr (h : s.Inv) (hc : t.cfg = s.cfg) (hs : t.self = s.self) (ho : t.others = s.others)
    (hh : Hart.Ok s.cfg t.hart) (hm : t.MemOk) : t.Inv where
  cfg := hc ▸ h.cfg
  mem := hm.mem
  sorted := hm.sorted
  lines := hm.lines
  hart := hc ▸ hh
  others := by rw [ho, hc]; exact h.others
  harts := by simpa [State.hartIds, hs, ho, hc] using h.harts

/-- No two harts of a well-formed configuration have one number. -/
theorem Config.hartIds_nodup {c : Config} (h : observersDistinct c.observers = true) : c.hartIds.Nodup := by
  unfold Config.hartIds
  revert h
  generalize c.observers = l
  intro h
  induction l with
  | nil => exact .nil
  | cons o os ih =>
    simp only [observersDistinct, Bool.and_eq_true, List.all_eq_true, bne_iff_ne] at h
    rw [List.filter_cons]
    split
    · rw [List.map_cons, List.nodup_cons]
      refine ⟨fun hm => ?_, ih h.2⟩
      obtain ⟨p, hp, he⟩ := List.mem_map.mp hm
      exact h.1 p (List.mem_filter.mp hp).1 he
    · exact ih h.2

theorem State.Inv.hartIds_nodup (h : s.Inv) : s.hartIds.Nodup := by
  refine h.harts.nodup_iff.mpr (Config.hartIds_nodup ?_)
  have := h.cfg
  simp only [Config.wellFormed, Bool.and_eq_true] at this
  exact this.1.1.1.1.1.2

/-- The harts are the same, each once, whichever of them is the executing one (rule R20). -/
theorem State.hartIds_switchTo (hd : s.hartIds.Nodup) (h : ObserverId) : (s.switchTo h).hartIds.Perm s.hartIds := by
  unfold State.switchTo
  cases hf : s.others.find? (fun p => p.1 == h) with
  | none => exact .refl _
  | some q =>
    obtain ⟨l, r, hs, hl⟩ := List.find?_eq_some_iff_append.mp hf |>.2
    have hq : q.1 = h := by simpa using List.find?_some hf
    simp only [State.hartIds, hs, List.map_append, List.map_cons, List.nodup_cons, List.nodup_append, List.mem_append,
      List.mem_cons] at hd
    have keep : ∀ m : List (ObserverId × Hart), h ∉ m.map Prod.fst →
        (m.map (fun p => if p.1 == h then (s.self, s.hart) else p)).map Prod.fst = m.map Prod.fst := by
      intro m hm
      rw [List.map_map]
      refine List.map_congr_left fun p hp => ?_
      have : p.1 ≠ h := fun e => hm (e ▸ List.mem_map_of_mem hp)
      simp [this]
    have hl' : h ∉ l.map Prod.fst := fun e => hd.2.2.2 h e h (.inl hq.symm) rfl
    have hr' : h ∉ r.map Prod.fst := fun e => hd.2.2.1.1 (hq ▸ e)
    simp only [State.hartIds, hs, List.map_append, List.map_cons, keep l hl', keep r hr', hq, beq_self_eq_true, if_true]
    exact ((List.perm_middle (a := s.self)).cons h).trans
      ((List.Perm.swap s.self h _).trans ((List.perm_middle (a := h)).symm.cons s.self))

end Sys2Proof.Machine
end

