-- ==== Sys2Proof/Laws/Translate.lean ====
section
/-! SUPPORT. What a translation that maps an address says of its two stages (spec rule R84), and the view of two states that
differ in registers the translation does not read. -/

namespace Sys2Proof.Machine

theorem stageOn_some (t : PageTable) : stageOn (some t) = if t.bare then none else some t := by
  unfold stageOn; cases h : t.bare <;> simp [Option.filter, h]

@[simp] theorem stageOn_none : stageOn none = none := rfl

theorem translateG_mapped {c : HostCsrs} {m : Mode} {s1 s1' g : Option Pte} {gpa gpa' pa : Nat}
    (h : translateG c m s1 gpa = .mapped s1' g gpa' pa) :
    s1' = s1 ∧ gpa' = gpa ∧ (g = none ↔ stageOn (gStage c m) = none) := by
  unfold translateG at h
  split at h
  · rename_i hs; cases h; exact ⟨rfl, rfl, by simp [hs]⟩
  · rename_i t hs
    split at h
    · cases h
    · cases h
    · cases h; exact ⟨rfl, rfl, by simp [hs]⟩

/-- The first stage is `Off` exactly when it does not translate; and the G-stage likewise, where the first stage ended at a
valid leaf or is off. -/
theorem translateVa_mapped {c : HostCsrs} {va : Nat} {m : Mode} {s1 g : Option Pte} {gpa pa : Nat}
    (h : translateVa c va m = .mapped s1 g gpa pa) :
    (s1 = none ↔ stageOn (firstStage c m) = none) ∧
      ((∀ p, s1 = some p → p.v = true) → (g = none ↔ stageOn (gStage c m) = none)) := by
  unfold translateVa at h
  split at h
  · rename_i hs
    obtain ⟨rfl, -, hg⟩ := translateG_mapped h
    exact ⟨by simp [hs], fun _ => hg⟩
  · rename_i t hs
    split at h
    · cases h
    · cases h
    · rename_i p ppn hw
      split at h
      · obtain ⟨rfl, -, hg⟩ := translateG_mapped h
        exact ⟨by simp [hs], fun _ => hg⟩
      · rename_i hv
        cases h
        exact ⟨by simp [hs], fun hp => absurd (hp p rfl) hv⟩

/-- In effective M-mode nothing is translated. -/
theorem translateVa_M (c : HostCsrs) (va : Nat) : translateVa c va .M = .mapped none none va va := rfl

/-- A first stage that allows a management access ended at a valid leaf. -/
theorem valid_of_firstStageOk {s : State} {k : OpClass} {m : Mode} {s1 : Option Pte} (h : s.firstStageOk k m s1 = true) :
    ∀ p, s1 = some p → p.v = true := by
  rintro p rfl
  cases k <;> simp only [State.firstStageOk, s1OkRX, s1OkW, Bool.and_eq_true] at h <;> tauto

end Sys2Proof.Machine
end

