-- ==== Sys2Proof/Laws/Block.lean ====
section
/-!
SUPPORT. Two addresses of one block (spec rules R64, R94): one translation up to the place in the block, one answer of the address
checks, and one effect of each operation of the caches.
-/

namespace Sys2Proof.Machine

variable {s : State}

/-! ### Blocks and pages (rules R64, R84) -/

theorem Config.cbs_dvd_pageSize (c : Config) : c.cbs ∣ pageSize :=
  pow_dvd_pow 2 (show c.cbsLog.val ≤ 12 by omega)

theorem State.block_eq {a b : Nat} (h : s.blockBase a = s.blockBase b) : s.block a = s.block b := by
  simp [State.block, h]

/-- A block lies in one page. -/
theorem State.page_eq {a b : Nat} (h : s.blockBase a = s.blockBase b) : a / pageSize = b / pageSize := by
  obtain ⟨n, hn⟩ := (Config.cbs_dvd_pageSize s.cfg)
  have hb : ∀ a, s.blockBase a = s.cfg.cbs * (a / s.cfg.cbs) := fun a => by
    have := Nat.mod_add_div a s.cfg.cbs; unfold State.blockBase; omega
  rw [hb, hb] at h
  rw [hn, ← Nat.div_div_eq_div_mul, ← Nat.div_div_eq_div_mul, Nat.eq_of_mul_eq_mul_left (Config.cbs_pos s.cfg) h]

/-- A leaf maps one block to one block. -/
theorem State.blockBase_leafAddr {a b : Nat} (h : s.blockBase a = s.blockBase b) (ppn : Nat) :
    s.blockBase (leafAddr ppn a) = s.blockBase (leafAddr ppn b) := by
  have hp := s.page_eq h
  have hm : ∀ a, leafAddr ppn a % s.cfg.cbs = a % s.cfg.cbs := fun a => by
    obtain ⟨n, hn⟩ := (Config.cbs_dvd_pageSize s.cfg)
    unfold leafAddr
    rw [hn, show ppn * (s.cfg.cbs * n) = s.cfg.cbs * (ppn * n) by ac_rfl, Nat.mul_add_mod, Nat.mod_mul_right_mod]
  have h1 := Nat.mod_add_div a pageSize
  have h2 := Nat.mod_add_div b pageSize
  have h3 := Nat.mod_le a s.cfg.cbs
  have h4 := Nat.mod_le b s.cfg.cbs
  unfold State.blockBase at h ⊢
  rw [hm, hm]
  unfold leafAddr
  rw [hp] at h1
  have h5 : a % s.cfg.cbs ≤ a % pageSize := by
    rw [← Nat.mod_mod_of_dvd a (Config.cbs_dvd_pageSize s.cfg)]; exact Nat.mod_le _ _
  have h6 : b % s.cfg.cbs ≤ b % pageSize := by
    rw [← Nat.mod_mod_of_dvd b (Config.cbs_dvd_pageSize s.cfg)]; exact Nat.mod_le _ _
  omega

/-! ### Translation and the checks -/

/-- Two translations that end in one block, or in one interrupted walk. -/
inductive SameBlock (s : State) : Translated → Translated → Prop where
  | access : SameBlock s .walkAccessFault .walkAccessFault
  | guest (a b : Nat) : SameBlock s (.walkGuestPageFault a) (.walkGuestPageFault b)
  | mapped (s1 g : Option Pte) (ga gb pa pb : Nat) (h : s.blockBase pa = s.blockBase pb) :
      SameBlock s (.mapped s1 g ga pa) (.mapped s1 g gb pb)

theorem translateG_block (c : HostCsrs) (m : Mode) (s1 : Option Pte) {a b : Nat} (h : s.blockBase a = s.blockBase b) :
    SameBlock s (translateG c m s1 a) (translateG c m s1 b) := by
  unfold translateG
  cases stageOn (gStage c m) with
  | none => exact .mapped _ _ _ _ _ _ h
  | some t =>
    dsimp only
    rw [show t.walk a = t.walk b by simp [PageTable.walk, s.page_eq h]]
    cases t.walk b with
    | accessFault => exact .access
    | guestPageFault x => exact .guest _ _
    | leaf p ppn => exact .mapped _ _ _ _ _ _ (s.blockBase_leafAddr h ppn)

/-- Two addresses of one block have one translation, up to the place in the block. -/
theorem translateVa_block (c : HostCsrs) (m : Mode) {a b : Nat} (h : s.blockBase a = s.blockBase b) :
    SameBlock s (translateVa c a m) (translateVa c b m) := by
  unfold translateVa
  cases stageOn (firstStage c m) with
  | none => exact translateG_block c m none h
  | some t =>
    dsimp only
    rw [show t.walk a = t.walk b by simp [PageTable.walk, s.page_eq h]]
    cases t.walk b with
    | accessFault => exact .access
    | guestPageFault x => exact .guest _ _
    | leaf p ppn =>
      dsimp only
      split
      · exact translateG_block c m _ (s.blockBase_leafAddr h ppn)
      · exact .mapped _ _ _ _ _ _ rfl

theorem State.pmaConstraintsMet_block {a b : Nat} (h : s.blockBase a = s.blockBase b) :
    s.pmaConstraintsMet a = s.pmaConstraintsMet b := by
  have key : ∀ a b, s.blockBase a = s.blockBase b → s.pmaConstraintsMet a = true → s.pmaConstraintsMet b = true := by
    intro a b h ha
    have hab : s.attrs b = s.attrs a := attrs_eq_of_pmaConstraintsMet ha (State.mem_block_iff_base.mpr h.symm)
    unfold State.pmaConstraintsMet at ha ⊢
    rw [← s.block_eq h, hab]; exact ha
  exact Bool.eq_iff_iff.mpr ⟨key a b h, key b a h.symm⟩

theorem State.jointOk_block (k : OpClass) (m : Mode) {a b : Nat} (h : s.blockBase a = s.blockBase b) :
    s.jointOk k m a = s.jointOk k m b := by
  unfold State.jointOk State.allJointRX State.anyJointW State.fullJointW
  rw [s.block_eq h]

/-- Two checks that end alike on two addresses of one block: an exception of one kind with the second's trap value. -/
inductive SameCheck (s : State) (va : Word) : Check Checked → Check Checked → Prop where
  | pass (p q : Checked) (hb : s.blockBase p.pa = s.blockBase q.pa) (hp : s.pmaConstraintsMet p.pa = true)
      (h1 : p.s1 = q.s1) (h2 : p.g = q.g) (h3 : p.wm = q.wm) : SameCheck s va (.pass p) (.pass q)
  | raise (e e' : Exc) (h : e'.cause = e.cause) (ht : e'.tval = va) : SameCheck s va (.raise e) (.raise e')
  | refuse (r : Refusal) : SameCheck s va (.refuse r) (.refuse r)

theorem checkAddr_block (k : OpClass) {a b : Word} (h : s.blockBase a.toNat = s.blockBase b.toNat) :
    SameCheck s b (s.checkAddr k a) (s.checkAddr k b) := by
  have ht := translateVa_block (s := s) s.hart.csr s.effMode h
  unfold State.checkAddr
  dsimp only
  revert ht
  generalize translateVa s.hart.csr a.toNat s.effMode = x
  generalize translateVa s.hart.csr b.toNat s.effMode = y
  intro ht
  cases ht with
  | access => exact .raise _ _ rfl rfl
  | guest => exact .raise _ _ rfl rfl
  | mapped s1 g ga gb pa pb hb =>
    dsimp only
    rw [s.pmaConstraintsMet_block hb, s.jointOk_block k _ hb]
    split
    · exact .raise _ _ rfl rfl
    · split
      · exact .raise _ _ rfl rfl
      · split
        · exact .refuse _
        · rename_i hp
          split
          · exact .raise _ _ rfl rfl
          · exact .pass _ _ hb (by rw [s.pmaConstraintsMet_block hb]; simpa using hp) rfl rfl
              (by simp only [State.anyJointW, s.block_eq hb])


/-! ### An operation of the caches depends on its address through the key of its block alone (rule R94) -/

section Key
variable {o : ObserverId} {a b : Nat} (h : s.keyOf o a = s.keyOf o b)
include h

theorem State.blockBase_of_keyOf : s.blockBase a = s.blockBase b := congrArg CacheKey.block h

theorem State.line_of_keyOf : s.line o a = s.line o b := by simp [State.line, h]

theorem State.setLine_of_keyOf (l : Line) : s.setLine o a l = s.setLine o b l := by simp [State.setLine, h]

theorem State.dropLine_of_keyOf : s.dropLine o a = s.dropLine o b := by simp [State.dropLine, h]

theorem State.markDiffering_of_keyOf : s.markDiffering o a = s.markDiffering o b := by
  simp [State.markDiffering, State.line_of_keyOf h, State.differing, State.blockBase_of_keyOf h]

theorem State.writeDirty_of_keyOf : s.writeDirty o a = s.writeDirty o b := by
  have h' : (s.markDiffering o b).keyOf o a = (s.markDiffering o b).keyOf o b := by simpa using h
  simp only [State.writeDirty, State.line_of_keyOf h, State.markDiffering_of_keyOf h, State.setLine_of_keyOf h',
    State.blockBase_of_keyOf h]

theorem State.invalidate_of_keyOf : s.invalidate o a = s.invalidate o b := by
  have h' : (s.markDiffering o b).keyOf o a = (s.markDiffering o b).keyOf o b := by simpa using h
  rw [State.invalidate, State.markDiffering_of_keyOf h, State.dropLine_of_keyOf h', State.invalidate]

theorem State.recordBlock_of_keyOf (k : MemKind) : s.recordBlock k a = s.recordBlock k b := by
  simp [State.recordBlock, State.blockBase_of_keyOf h]

end Key

section Own
variable {a b : Nat} (h : s.keyOf s.self a = s.keyOf s.self b)
include h

theorem doInvalidate_of_keyOf : s.doInvalidate a = s.doInvalidate b := by
  unfold State.doInvalidate
  rw [State.invalidate_of_keyOf h, State.recordBlock_of_keyOf (o := s.self) (by simpa using h)]

theorem doClean_of_keyOf : s.doClean a = s.doClean b := by
  unfold State.doClean State.clean
  rw [State.writeDirty_of_keyOf h, State.recordBlock_of_keyOf (o := s.self) (by simpa using h)]

theorem doFlush_of_keyOf : s.doFlush a = s.doFlush b := by
  unfold State.doFlush State.clean
  dsimp only
  rw [State.writeDirty_of_keyOf h, State.blockBase_of_keyOf h]
  have h' : (s.writeDirty s.self b).keyOf s.self a = (s.writeDirty s.self b).keyOf s.self b := by simpa using h
  rw [State.recordBlock_of_keyOf h', State.recordBlock_of_keyOf h', State.invalidate_of_keyOf (by simpa using h)]

end Own

end Sys2Proof.Machine
end

