-- ==== Sys2Proof/Laws/Encoding.lean ====
section
/-!
SUPPORT. The fields of an instruction word: a word is the concatenation of its fields, and of its bytes; what a word that
decodes to an instruction looks like, and what the words of the encoder decode to (spec rules R93, R121, R122, R132).
-/

namespace Sys2Proof

/-- A word is its four bytes put together again (rule R93). -/
theorem wordOfBytes_byteOfWord (w : InstrWord) :
    wordOfBytes (byteOfWord w 0) (byteOfWord w 1) (byteOfWord w 2) (byteOfWord w 3) = w := by
  apply BitVec.eq_of_getLsbD_eq
  intro i hi
  simp only [wordOfBytes, byteOfWord, BitVec.getLsbD_append, BitVec.getLsbD_extractLsb']
  split_ifs with h1 h2 h3
  · simp [h3]
  · simp [show i - 8 < 8 by omega, show 8 + (i - 8) = i by omega]
  · simp [show i - 16 < 8 by omega, show 16 + (i - 16) = i by omega]
  · simp [show i - 24 < 8 by omega, show 24 + (i - 24) = i by omega]

/-- A word is its seven fields put together again (rule R121). -/
theorem word_eq_fields (w : InstrWord) :
    w = xxxOf w ++ (yyyyOf w ++ (rs2Of w ++ ((BitVec.ofFin (rs1Of w) : BitVec 5) ++
      (funct3Of w ++ (rdOf w ++ opcodeOf w))))) := by
  apply BitVec.eq_of_getLsbD_eq
  intro i hi
  simp only [xxxOf, yyyyOf, rs2Of, rs1Of, funct3Of, rdOf, opcodeOf, BitVec.getLsbD_append,
    BitVec.getLsbD_extractLsb', BitVec.ofFin_toFin]
  have hi' := hi
  interval_cases i <;> simp

/-- A word with every constant field of rule R121 is one the encoder makes, but for `yyyy`. -/
theorem eq_cboWord_of_fields {w : InstrWord} (ho : opcodeOf w = 0b0001111#7) (hf : funct3Of w = 0b010#3)
    (hr : rdOf w = 0#5) (h2 : rs2Of w = 0#5) (hx : xxxOf w = 0#3) : w = cboWord (yyyyOf w) (rs1Of w) := by
  conv_lhs => rw [word_eq_fields w, ho, hf, hr, h2, hx]
  rfl

theorem opcodeOf_cboWord (y : BitVec 4) (r : RegNum) : opcodeOf (cboWord y r) = 0b0001111#7 := by revert y r; decide
theorem funct3Of_cboWord (y : BitVec 4) (r : RegNum) : funct3Of (cboWord y r) = 0b010#3 := by revert y r; decide
theorem rdOf_cboWord (y : BitVec 4) (r : RegNum) : rdOf (cboWord y r) = 0#5 := by revert y r; decide
theorem rs1Of_cboWord (y : BitVec 4) (r : RegNum) : rs1Of (cboWord y r) = r := by revert y r; decide
theorem rs2Of_cboWord (y : BitVec 4) (r : RegNum) : rs2Of (cboWord y r) = 0#5 := by revert y r; decide
theorem xxxOf_cboWord (y : BitVec 4) (r : RegNum) : xxxOf (cboWord y r) = 0#3 := by revert y r; decide
theorem yyyyOf_cboWord (y : BitVec 4) (r : RegNum) : yyyyOf (cboWord y r) = y := by revert y r; decide

/-- Everything a word that decodes to an instruction can be (rule R132). -/
theorem decode_instr_cases {w : InstrWord} {i : Instr} (h : decode w = .instr i) :
    opcodeOf w = 0b0001111#7 ∧ funct3Of w = 0b010#3 ∧ rdOf w = 0#5 ∧ rs2Of w = 0#5 ∧ xxxOf w = 0#3 ∧
      ((yyyyOf w = 0b0000#4 ∧ i = .cboInval (rs1Of w)) ∨ (yyyyOf w = 0b0001#4 ∧ i = .cboClean (rs1Of w)) ∨
        (yyyyOf w = 0b0010#4 ∧ i = .cboFlush (rs1Of w)) ∨ (yyyyOf w = 0b0100#4 ∧ i = .cboZero (rs1Of w))) := by
  unfold decode at h
  split_ifs at h with h1 h2 h3 h4 h5 h6 h7 h8 <;> simp_all

/-- A word of this opcode is a 32-bit one (rule R131). -/
theorem isWordSized_of_opcode {w : InstrWord} (h : opcodeOf w = 0b0001111#7) : isWordSized (byteOfWord w 0) = true := by
  have e1 : (byteOfWord w 0).extractLsb' 0 2 = (opcodeOf w).extractLsb' 0 2 := by
    apply BitVec.eq_of_getLsbD_eq; intro i hi; simp [byteOfWord, opcodeOf, BitVec.getLsbD_extractLsb']
  have e2 : (byteOfWord w 0).extractLsb' 2 3 = (opcodeOf w).extractLsb' 2 3 := by
    apply BitVec.eq_of_getLsbD_eq; intro i hi; simp [byteOfWord, opcodeOf, BitVec.getLsbD_extractLsb']
  rw [isWordSized, e1, e2, h]; decide

/-- A row of a well-formed `PrefetchDecode` is the one its word finds (rule R128). -/
theorem prefetchRowOf_eq {rows : List PrefetchRow} {r : PrefetchRow} (hd : prefetchWordsDistinct rows = true)
    (hm : r ∈ rows) (hi : r.hint.isHint = true) : prefetchRowOf rows r.word = some r := by
  induction rows with
  | nil => simp at hm
  | cons q rows ih =>
    simp only [prefetchWordsDistinct, Bool.and_eq_true, List.all_eq_true, bne_iff_ne] at hd
    simp only [prefetchRowOf, List.find?_cons]
    rcases List.mem_cons.mp hm with rfl | hm
    · simp [hi]
    · have : (q.word == r.word && q.hint.isHint) = false := by simp [Ne.symm (hd.1 r hm)]
      rw [this]; exact ih hd.2 hm

end Sys2Proof
end

