-- ==== Sys2Proof/Laws/Fetch.lean ====
section
/-!
SUPPORT. Which bytes have a defined fetch (spec rule R116): a Fill, and with it a hint instruction, changes none of them.
-/

namespace Sys2Proof.Machine

variable {s : State}

/-- The marks of the bytes that differ count for exactly those bytes. -/
theorem changedSinceFenceI_differing {h : ObserverId} {a pa : Nat} {data : List Byte} {log : List FetchMark} :
    changedSinceFenceI h a (s.differing pa data ++ log) = true ↔
      (∃ k < s.cfg.cbs, data.getD k 0#8 ≠ s.mem.read (s.blockBase pa + k) ∧ a = s.blockBase pa + k) ∨
        changedSinceFenceI h a log = true := by
  have key : ∀ ks : List Nat, changedSinceFenceI h a (ks.map (fun k => .changed (s.blockBase pa + k) 1) ++ log) = true ↔
      (∃ k ∈ ks, a = s.blockBase pa + k) ∨ changedSinceFenceI h a log = true := by
    intro ks
    induction ks with
    | nil => simp
    | cons k ks ih =>
      simp only [List.map_cons, List.cons_append, changedSinceFenceI, List.mem_cons, exists_eq_or_imp]
      split
      · exact ⟨fun _ => .inl (.inl (by omega)), fun _ => rfl⟩
      · rw [ih]
        have : a ≠ s.blockBase pa + k := by omega
        simp [this]
  rw [State.differing, key]
  simp [and_assoc]

/-- Every copy of the byte agrees with memory. -/
theorem State.copiesAgree_iff {a : Nat} :
    s.copiesAgree a = true ↔
      ∀ p ∈ s.cache, p.1.block = s.blockBase a → p.2.data.getD (a - s.blockBase a) 0#8 = s.mem.read a := by
  simp [State.copiesAgree, imp_iff_not_or]

/-- What was listed is listed still, but for the value that a key had. -/
theorem mem_mapSet_or_get {κ ν : Type} [DecidableEq κ] {lt : κ → κ → Bool} {k : κ} {v : ν} {m : List (κ × ν)} {p : κ × ν}
    (h : p ∈ m) : p ∈ mapSet lt k v m ∨ (p.1 = k ∧ mapGet k m = some p.2) := by
  induction m with
  | nil => cases h
  | cons q m ih =>
    obtain ⟨j, w⟩ := q
    simp only [mapSet, mapGet]
    split
    · rename_i hj
      rcases List.mem_cons.mp h with rfl | h
      · exact .inr ⟨hj, rfl⟩
      · exact .inl (List.mem_cons_of_mem _ h)
    · split
      · exact .inl (List.mem_cons_of_mem _ h)
      · rcases List.mem_cons.mp h with rfl | h
        · exact .inl List.mem_cons_self
        · exact (ih h).imp_left (List.mem_cons_of_mem _)

/-- A byte of the block of `pa`, by its offset. -/
theorem State.offset_of_blockBase {a pa : Nat} (h : s.blockBase pa = s.blockBase a) :
    a - s.blockBase a < s.cfg.cbs ∧ a = s.blockBase pa + (a - s.blockBase a) := by
  have := (State.mem_block (s := s) (pa := pa)).mp (State.mem_block_iff_base.mpr h.symm)
  omega

/-- A Fill changes no fetch: the bytes that had a defined fetch have it, and no other (rules R116, R165). -/
theorem State.fetchDefined_fill (o : ObserverId) (pa a : Nat) : (s.fill o pa).fetchDefined a = s.fetchDefined a := by
  cases hf : s.fillOffered o pa with
  | false => rw [s.fill_of_not_offered o pa hf]
  | true =>
    have agrees : (s.fill o pa).copiesAgree a = true ↔ ∀ p ∈ mapSet CacheKey.lt (s.keyOf o pa)
        { data := s.memBlock pa, dirty := false } s.cache, p.1.block = s.blockBase a →
          p.2.data.getD (a - s.blockBase a) 0#8 = s.mem.read a := by
      rw [State.copiesAgree_iff, s.fill_of_offered o pa hf]
      simp [State.blockBase_congr (s := s) (t := (s.markDiffering o pa).setLine o pa _) (by simp)]
    have fresh : s.blockBase pa = s.blockBase a → (s.memBlock pa).getD (a - s.blockBase a) 0#8 = s.mem.read a := by
      intro hb
      obtain ⟨hk, ha⟩ := State.offset_of_blockBase hb
      rw [State.memBlock, Memory.readBytes_getD _ _ hk, ← ha]
    have log : changedSinceFenceI s.self a (s.fill o pa).fetchLog = true ↔
        (∃ l, s.line o pa = some l ∧ s.blockBase pa = s.blockBase a ∧ l.data.getD (a - s.blockBase a) 0#8 ≠ s.mem.read a) ∨
          changedSinceFenceI s.self a s.fetchLog = true := by
      rw [s.fill_of_offered o pa hf, State.setLine_fetchLog]
      unfold State.markDiffering
      cases hl : s.line o pa with
      | none => simp
      | some l =>
        simp only [changedSinceFenceI_differing, Option.some.injEq, exists_eq_left']
        refine or_congr_left ⟨?_, ?_⟩
        · rintro ⟨k, hk, hne, rfl⟩
          have hb : s.blockBase pa = s.blockBase (s.blockBase pa + k) :=
            (State.mem_block_iff_base.mp (State.mem_block.mpr (by omega))).symm
          exact ⟨hb, by rw [← hb]; simpa using hne⟩
        · rintro ⟨hb, hne⟩
          obtain ⟨hk, ha⟩ := State.offset_of_blockBase hb
          exact ⟨_, hk, by rwa [← ha], ha⟩
    have self : (s.fill o pa).self = s.self := by simp
    rw [Bool.eq_iff_iff]
    simp only [State.fetchDefined, self, Bool.and_eq_true, Bool.not_eq_true', ← Bool.not_eq_true, log, agrees, not_or,
      State.copiesAgree_iff]
    constructor
    · rintro ⟨⟨h1, h2⟩, h3⟩
      refine ⟨h2, fun p hp hb => ?_⟩
      rcases mem_mapSet_or_get hp with hm | ⟨hk, hg⟩
      · exact h3 p hm hb
      · by_contra hne
        exact h1 ⟨p.2, hg, by rw [hk] at hb; exact hb, hne⟩
    · rintro ⟨h2, h3⟩
      refine ⟨⟨?_, h2⟩, fun p hp hb => ?_⟩
      · rintro ⟨l, hl, hb, hne⟩
        exact hne (h3 _ (mem_of_mapGet hl) hb)
      · rcases mem_mapSet hp with rfl | hp
        · exact fresh hb
        · exact h3 p hp hb

/-- Which fetches are defined depends on the hart's number, the block size, memory, the caches and the marks alone. -/
theorem State.fetchDefined_congr {t : State} (hc : t.cfg = s.cfg) (hs : t.self = s.self) (hm : t.mem = s.mem)
    (hk : t.cache = s.cache) (hl : t.fetchLog = s.fetchLog) : t.fetchDefined = s.fetchDefined := by
  funext a
  simp [State.fetchDefined, State.copiesAgree, State.blockBase_congr hc, hs, hm, hk, hl]

@[simp] theorem State.fetchDefined_retire : s.retire.fetchDefined = s.fetchDefined :=
  State.fetchDefined_congr (by simp) (by simp) (by simp) (by simp) (by simp)

/-- The optional allocation of a hint instruction changes no fetch (rules R116, R165). -/
@[simp] theorem State.fetchDefined_hintAllocate (target : Option Nat) :
    (s.hintAllocate target).fetchDefined = s.fetchDefined := by
  unfold State.hintAllocate
  split
  · rfl
  · split
    · rfl
    · rename_i rest _
      funext a
      exact (State.fetchDefined_fill (s := { s with hintFills := rest }) s.self _ a).trans
        (congrFun (State.fetchDefined_congr rfl rfl rfl rfl rfl) a)
    · exact State.fetchDefined_congr rfl rfl rfl rfl rfl

end Sys2Proof.Machine
end

