-- ==== Sys2Proof/Laws/PerInstr.lean ====
section
/-!
SUPPORT. What is said of every instruction as syntax, one lemma per constructor.
-/

namespace Sys2Proof.Laws.Encoding

/-- The word of an instruction under no `PrefetchDecode` names its register in bits 19 to 15, and has every other bit of
rule R121 as that rule fixes it; a hint instruction has no word (rule R128). -/
def Statement (i : Instr) : Prop :=
  match encode [] i with
  | some w => i.isHint = false ∧ rs1Of w = i.rs1 ∧ opcodeOf w = 0b0001111#7 ∧ funct3Of w = 0b010#3 ∧ rdOf w = 0#5 ∧
      rs2Of w = 0#5 ∧ xxxOf w = 0#3
  | none => i.isHint = true

theorem of_cboWord {i : Instr} {y : BitVec 4} (h : encode [] i = some (cboWord y i.rs1)) (hi : i.isHint = false) :
    Statement i := by
  unfold Statement
  rw [h]
  exact ⟨hi, rs1Of_cboWord _ _, opcodeOf_cboWord _ _, funct3Of_cboWord _ _, rdOf_cboWord _ _, rs2Of_cboWord _ _,
    xxxOf_cboWord _ _⟩

theorem cboInval (rs1 : RegNum) : Statement (.cboInval rs1) := of_cboWord rfl rfl
theorem cboClean (rs1 : RegNum) : Statement (.cboClean rs1) := of_cboWord rfl rfl
theorem cboFlush (rs1 : RegNum) : Statement (.cboFlush rs1) := of_cboWord rfl rfl
theorem cboZero (rs1 : RegNum) : Statement (.cboZero rs1) := of_cboWord rfl rfl
theorem prefetchR (rs1 : RegNum) (level : Level) : Statement (.prefetchR rs1 level) := rfl
theorem prefetchW (rs1 : RegNum) (level : Level) : Statement (.prefetchW rs1 level) := rfl
theorem prefetchI (rs1 : RegNum) (level : Level) : Statement (.prefetchI rs1 level) := rfl

end Sys2Proof.Laws.Encoding
end

