-- ==== Sys2Proof/Tests/Slice0.lean ====
section
/-!
SUPPORT. The model's own tests. Expected results are taken from the spec: the encoding table of rule R121 and R123, the
examples of the instruction rules, and the vectors of spec/95_test_vectors.md, whose numbers (E1, I9, A5, B6, T6, C9, ...) are
cited. Blocks are of 4 bytes where the spec's vector does not ask for 64. The witnesses show states that meet the
hypotheses of the statements.
-/

namespace Sys2Proof.Tests

open Sys2Proof Sys2Proof.Machine

/-! ### Building small states -/

/-- The common configuration with blocks of 4 bytes. -/
def cfg4 : Config := { Config.standard with cbsLog := 2 }

/-- A word that the open parameter gives to `PREFETCH.W x11, L2`; an invented one, in the space of other MISC-MEM words. -/
def hintWord : InstrWord := 0x0005B00F#32

/-- The common configuration with one hint encoded. -/
def cfgHint : Config := { cfg4 with prefetchDecode := [{ word := hintWord, hint := .prefetchW 11 .L2 }] }

/-- The block that the small states are about. -/
def blk : Nat := 0x80001000

/-- M-mode, `x10` and `x11` at two bytes of the block, nothing cached, memory `01 02 03 04` in the block. -/
def start : State :=
  ({ State.reset with cfg := cfg4, mem := (State.reset.mem.writeBytes blk [1, 2, 3, 4]) }.writeX 10 0x80001001#64).writeX
    11 0x80001003#64

/-- The block held by the hart, `AA BB CC DD`. -/
def held (dirty : Bool) (s : State) : State := s.setLine 0 blk { data := [0xAA, 0xBB, 0xCC, 0xDD], dirty := dirty }

/-- The four control registers. -/
def csrs (m s h vs : Word) : CmoCsrs := { mcmocontrol := m, scmocontrol := s, hcmocontrol := h, vscmocontrol := vs }

/-- In a mode, with control registers. -/
def under (m : Mode) (c : CmoCsrs) (s : State) : State := s.withHart { s.hart with mode := m, cmo := c }

/-- A leaf PTE, its bits written `V R W X U` as the vectors write them. -/
def pte (v r w x u : Bool) : Pte := { v := v, r := r, w := w, x := x, u := u }

/-- A table that maps the page of the block to itself. -/
def table (p : Pte) : PageTable := { bare := false, walks := [(0x80001, .leaf p 0x80001)] }

/-- With page tables for `satp`, `vsatp`, `hgatp`. -/
def tables (sat vsat hgat : PageTable) (s : State) : State :=
  s.withHart { s.hart with csr := { s.hart.csr with satp := sat, vsatp := vsat, hgatp := hgat } }

/-- With triggers. -/
def triggers (ts : List Trigger) (s : State) : State :=
  s.withHart { s.hart with csr := { s.hart.csr with triggers := ts } }

/-- With the PMP's verdict for every address and mode. -/
def pmpAll (p : Perm) (s : State) : State :=
  s.withHart { s.hart with csr := { s.hart.csr with pmpDefault := { m := p, s := p, u := p, vs := p, vu := p } } }

/-- With one PMP entry on one byte. -/
def pmpByte (a : Nat) (p : Perm) (s : State) : State :=
  s.withHart { s.hart with csr := { s.hart.csr with
    pmp := [{ base := a, size := 1, perms := { m := p, s := p, u := p, vs := p, vu := p } }] } }

/-- What is seen of a next state; nothing of a fault or a refusal. -/
def see {α : Type} (o : Out) (f : State → α) : Option α :=
  match o with
  | .next t => some (f t)
  | .fault _ => none
  | .refused _ => none

/-- `pc`, the line of the block and the bytes of the block in memory. -/
def blockView (t : State) : Word × Option Line × List Byte := (t.hart.pc, t.line 0 blk, t.mem.readBytes blk 4)

/-- The mode, `mcause`, `mtval` and `mepc` after a trap to M-mode, and the line of the block. -/
def trapView (t : State) : Mode × Word × Word × Word × Option Line :=
  (t.hart.mode, t.hart.csr.mtrap.cause, t.hart.csr.mtrap.tval, t.hart.csr.mtrap.epc, t.line 0 blk)

/-- A user page `V R W X U = 1 1 0 0 1`, and the others of the vectors. -/
def roUser : PageTable := table (pte true true false false true)
def rwUser : PageTable := table (pte true true true false true)
def roKernel : PageTable := table (pte true true false false false)

/-! ### Well-formedness: a term that each check refuses -/

theorem test_wf_standard : Config.standard.wellFormed = true := by decide
theorem test_wf_cfgHint : cfgHint.wellFormed = true := by decide
theorem test_wf_hint_without_a_word : (Instr.prefetchR 10 .L1).wellFormed Config.standard = false := by decide
theorem test_wf_hint_of_another_level : (Instr.prefetchW 11 .L3).wellFormed cfgHint = false := by decide
theorem test_wf_hint_with_a_word : (Instr.prefetchW 11 .L2).wellFormed cfgHint = true := by decide
theorem test_wf_warl_masks_overlap : WarlShape.wellFormed { wmask := 0x003#12, fixed := 0x002#12 } = false := by decide
theorem test_wf_warl_mask_reserved : WarlShape.wellFormed { wmask := 0x004#12, fixed := 0#12 } = false := by decide
theorem test_wf_warl_fixed_reserved : WarlShape.wellFormed { wmask := 0#12, fixed := 0x080#12 } = false := by decide
theorem test_wf_prefetch_row_is_no_hint :
    prefetchDecodeWellFormed [{ word := hintWord, hint := .cboZero 1 }] = false := by decide
theorem test_wf_prefetch_row_on_a_cbo_word :
    prefetchDecodeWellFormed [{ word := 0x0205200F#32, hint := .prefetchR 1 .L1 }] = false := by decide
theorem test_wf_prefetch_row_is_no_32_bit_word :
    prefetchDecodeWellFormed [{ word := 0x00000001#32, hint := .prefetchR 1 .L1 }] = false := by decide
theorem test_wf_prefetch_rows_share_a_word :
    prefetchDecodeWellFormed [{ word := hintWord, hint := .prefetchR 1 .L1 }, { word := hintWord, hint := .prefetchI 1 .L1 }]
      = false := by decide
theorem test_wf_observers_share_a_number :
    Config.wellFormed { Config.standard with observers := [⟨0, .hart, true, []⟩, ⟨0, .device, false, []⟩] } = false := by decide
theorem test_wf_no_hart :
    Config.wellFormed { Config.standard with observers := [⟨0, .device, true, []⟩, ⟨1, .device, false, []⟩] } = false := by decide
theorem test_wf_domains :
    [[[0, 1]], [[0], [1]], [[1, 0]], [[0], [0, 1]], [[0, 2]]].map
        (fun sets => Config.wellFormed { Config.standard with domains := [⟨⟨0, 2 ^ 56⟩, true, sets⟩] }) =
      [true, true, false, false, false] := by decide
theorem test_wf_block_larger_than_memory : Config.wellFormed { Config.standard with paBits := 5 } = false := by decide
theorem test_wf_reset_vector_misaligned : Config.wellFormed { Config.standard with resetVector := 2#64 } = false := by decide
theorem test_wf_reset_vector_too_wide :
    Config.wellFormed { Config.standard with xlen := .rv32, resetVector := 0x100000000#64 } = false := by decide

/-- A range that does not end with a block, and one that a member does not reach whole. -/
theorem test_wf_domain_ranges :
    [⟨0, 96⟩, ⟨64, 2 ^ 56⟩, ⟨64, 128⟩].map
        (fun r => Config.wellFormed { Config.standard with domains := [⟨r, true, [[0, 1]]⟩] }) = [false, false, true] := by decide

/-! ### Decoding: words written out from rules R121 and R123, and the vectors E1 to E27 -/

theorem test_decode_cboInval : decode 0b000_0000_00000_01010_010_00000_0001111#32 = .instr (.cboInval 10) := by decide
theorem test_decode_cboClean : decode 0b000_0001_00000_10001_010_00000_0001111#32 = .instr (.cboClean 17) := by decide
theorem test_decode_cboFlush : decode 0b000_0010_00000_00001_010_00000_0001111#32 = .instr (.cboFlush 1) := by decide
theorem test_decode_cboZero : decode 0b000_0100_00000_11111_010_00000_0001111#32 = .instr (.cboZero 31) := by decide
/-- `0x0205200F` lies in memory as `0F 20 05 02` (rule R93). -/
theorem test_decode_bytes :
    decodeBytes [] [0x0F#8, 0x20#8, 0x05#8, 0x02#8, 0x13#8] = some (.instr (.cboClean 10), [0x13#8]) := by decide
theorem test_decode_too_few_bytes : decodeBytes [] [0x0F#8, 0x20#8, 0x05#8] = none := by decide
theorem test_decode_prefetchR :
    decodeWith [⟨0x0005B00F#32, .prefetchR 11 .L1⟩] 0x0005B00F#32 = .instr (.prefetchR 11 .L1) := by decide
theorem test_decode_prefetchW :
    decodeWith [⟨0x0600200F#32, .prefetchW 0 .default⟩] 0x0600200F#32 = .instr (.prefetchW 0 .default) := by decide
theorem test_decode_prefetchI :
    decodeWith [⟨0x0005B00F#32, .prefetchI 11 .L3⟩] 0x0005B00F#32 = .instr (.prefetchI 11 .L3) := by decide
/-- With the parameter empty no word is a hint (rule R128). -/
theorem test_decode_hint_word_unassigned : decodeWith [] hintWord = .notCmo := by decide
theorem test_decode_reserved :
    [0x0600200F#32, 0x1E00200F#32, 0x2000200F#32, 0x2205200F#32, 0x0000208F#32, 0x0215208F#32, 0x0010200F#32,
        0x01F0200F#32].map decode =
      [.reserved .caseD, .reserved .caseD, .reserved .caseC, .reserved .caseC, .reserved .caseA, .reserved .caseA,
        .reserved .caseB, .reserved .caseB] := by decide
theorem test_decode_not_cmo :
    [0x0FF0000F#32, 0x0000100F#32, 0x0000300F#32, 0x00B52023#32, 0xFFFFFFFF#32].map decode =
      [.notCmo, .notCmo, .notCmo, .notCmo, .notCmo] := by decide
theorem test_decodeTableWord :
    [decodeTableWord 32 0x0000200F, decodeTableWord 32 0x080FA00F, decodeTableWord 32 0x0000000F] =
      [some (.cboInval 0), some (.cboZero 31), none] := by decide
theorem test_encode :
    [encode [] (.cboInval 31), encode [] (.cboClean 10), encode [] (.cboFlush 1), encode [] (.cboZero 10)] =
      [some 0x000FA00F#32, some 0x0205200F#32, some 0x0400A00F#32, some 0x0805200F#32] := by decide
theorem test_spelling : "prefetch.w a1" ∈ spellings (.prefetchW 11 .default) := by decide

/-! ### Instructions, one step each -/

/-- Vector I9 and program P5: in U-mode the page is not writable and `INVW0I = 0`: a flush. -/
theorem test_cboInval_flushes_in_user_mode :
    see (exec (.cboInval 10) (tables roUser .off .off (under .U (csrs 0xF01 0x201 0 0) (held true start)))) blockView =
      some (0x80000004#64, none, [0xAA, 0xBB, 0xCC, 0xDD]) := by decide

/-- Vector I31: in VU-mode both tables pass, no byte may be written, `INVW0E` of `mcmocontrol` is 0: access fault. -/
theorem test_cboInval_access_fault_after_both_stages :
    see (exec (.cboInval 10) (pmpAll ⟨true, false, false⟩
        (tables .off rwUser rwUser (under .VU (csrs 0x801 0 0xF01 0xF01) (held true start))))) trapView =
      some (.M, 7, 0x80001001#64, 0x80000000#64, some ⟨[0xAA, 0xBB, 0xCC, 0xDD], true⟩) := by decide

/-- The example of rule R143 and vector C18. -/
theorem test_cboClean_writes_a_dirty_block :
    see (exec (.cboClean 10) (held true start)) blockView =
      some (0x80000004#64, some ⟨[0xAA, 0xBB, 0xCC, 0xDD], false⟩, [0xAA, 0xBB, 0xCC, 0xDD]) := by decide

/-- Vector A5: a user page in S-mode with `SUM = 0`: store/AMO page fault, `tval` not rounded. -/
theorem test_cboClean_page_fault_without_sum :
    see (exec (.cboClean 10) (tables roUser .off .off (under .S (csrs 1 0 0 0) (held true start)))) trapView =
      some (.M, 15, 0x80001001#64, 0x80000000#64, some ⟨[0xAA, 0xBB, 0xCC, 0xDD], true⟩) := by decide

/-- Vector C20: a clean copy is removed and not written. -/
theorem test_cboFlush_does_not_write_a_clean_block :
    see (exec (.cboFlush 11) (held false start)) blockView = some (0x80000004#64, none, [1, 2, 3, 4]) := by decide

/-- Program P4: illegal instruction before any address check; `IllegalTval` is the instruction word here. -/
theorem test_cboFlush_illegal_before_the_address :
    see (exec (.cboFlush 10) (tables (table .invalid) .off .off (under .U (csrs 1 0 0 0) start))) trapView =
      some (.M, 2, 0x0405200F#64, 0x80000000#64, none) := by decide

/-- The example of rule R152, with blocks of 64 bytes: `x10 = 0x80003027` zeroes `0x80003000` to `0x8000303F` alone. -/
theorem test_cboZero_zeroes_its_block_alone :
    see (exec (.cboZero 10)
        ({ State.reset with mem := State.reset.mem.writeBytes 0x80002FFF (List.replicate 66 0xFF#8) }.writeX 10 0x80003027#64))
      (fun t => (t.hart.pc, t.mem)) =
      some (0x80000004#64, [(0x80002FFF, 0xFF#8), (0x80003040, 0xFF#8)]) := by decide +kernel

/-- Vector B6: one byte of the block is not writable: access fault, and nothing is stored. -/
theorem test_cboZero_needs_full_write_permission :
    see (exec (.cboZero 10) (pmpByte 0x80001003 ⟨true, false, true⟩ start)) (fun t => (t.hart.csr.mtrap.cause, t.mem)) =
      some (7, start.mem) := by decide

/-- Program P6: a hint to an address with no translation changes nothing but `pc`. -/
theorem test_prefetchR_without_a_translation :
    see (exec (.prefetchR 10 .L1)
        { tables (table .invalid) .off .off (under .U (csrs 0 0 0 0) start) with hintFills := [true] })
      (fun t => (t.hart.pc, t.cache, t.mem)) = some (0x80000004#64, [], start.mem) := by decide

/-- The example of rule R164: the block may be held afterwards, clean, as memory holds it; no write permission is asked. -/
theorem test_prefetchW_may_allocate :
    see (exec (.prefetchW 11 .default) { pmpAll ⟨true, false, false⟩ start with hintFills := [true] }) blockView =
      some (0x80000004#64, some ⟨[1, 2, 3, 4], false⟩, [1, 2, 3, 4]) := by decide

/-- Vector T5: a store address trigger fires on a hint where `HintIsLoadStore` holds. -/
def storeTrigger : Trigger :=
  { ttype := .mcontrol6, armed := true, load := false, store := true, execute := false, data := false,
    compare := .napot 2, addr := 0x80001000#64, action := .breakpoint }

theorem test_prefetchW_trigger :
    (see (exec (.prefetchW 11 .L1) (triggers [storeTrigger] start)) (fun t => t.hart.pc),
      see (exec (.prefetchW 11 .L1) { triggers [storeTrigger] start with cfg := { cfg4 with hintIsLoadStore := true } })
        (fun t => t.hart.csr.mtrap.cause)) = (some 0x80000004#64, some 3) := by decide

/-- The example of rule R165: in S-mode a page with `X = 1`, `R = 0`, `U = 0`. -/
theorem test_prefetchI_execute_only :
    see (exec (.prefetchI 10 .L1)
        { tables (table (pte true false false true false)) .off .off (under .S (csrs 0 0 0 0) start) with
          hintFills := [true] }) blockView =
      some (0x80000004#64, some ⟨[1, 2, 3, 4], false⟩, [1, 2, 3, 4]) := by decide

/-- A copy that is stale in its second byte. -/
def stale : State := start.setLine 0 blk { data := [1, 0xBB, 3, 4], dirty := false }

/-- Rules R116 and R165: with a copy held that is stale in one byte the fetch of that byte has no defined result and those of the
others have one; the Fill of a hint changes neither. -/
theorem test_prefetchI_changes_no_fetch :
    [stale.fetchDefined blk, stale.fetchDefined (blk + 1), stale.fetchDefined (blk + 2)] = [true, false, true] ∧
    see (exec (.prefetchI 10 .L1) { stale with hintFills := [true] })
      (fun t => (t.line 0 blk, t.fetchDefined blk, t.fetchDefined (blk + 1), t.fetchDefined (blk + 2))) =
      some (some ⟨[1, 2, 3, 4], false⟩, true, false, true) := by decide

/-- Vectors T3 and T6: a load trigger does not fire on `CBO.ZERO`; an exact match on the block's base misses `base + 1`. -/
theorem test_triggers_that_do_not_fire :
    (see (exec (.cboZero 10) (triggers [{ storeTrigger with load := true, store := false }] start)) (fun t => t.hart.pc),
      see (exec (.cboClean 10) (triggers [{ storeTrigger with compare := .exact }] start)) (fun t => t.hart.pc)) =
      (some 0x80000004#64, some 0x80000004#64) := by decide

/-- Vector T7: refused. -/
theorem test_trigger_type_2_is_refused :
    exec (.cboClean 10) (triggers [{ storeTrigger with ttype := .mcontrol, addr := 0#64 }] start) =
      .refused .unspecifiedTrigger := rfl

/-- From reset, an instruction word placed where the hart fetches is the one the next step runs. -/
theorem test_step_from_reset :
    see (step (State.reset.withFetchWord 32 0x0805200F)) (fun t => (t.hart.pc, t.mem.readBytes 0x80000000 4)) =
      some (0x80000004#64, [0x0F, 0x20, 0x05, 0x08]) := by decide +kernel

/-! ### Witnesses: states that meet the hypotheses of the statements, all of one statement's together

A conjunction has one part per clause, or per boundary value of a clause. -/

/-- The invariant as a test, for a state with no other hart. -/
theorem inv_of {s : State} (ho : s.others = [])
    (h : (s.cfg.wellFormed && s.mem.wf && cacheSorted s.cache && s.cache.all s.lineOk && s.hart.mode.present s.cfg &&
      Config.aligned s.cfg s.hart.pc && decide (∀ i : RegNum, s.cfg.trunc s.hart.x[i] = s.hart.x[i]) &&
      s.hart.cmo.legal s.cfg && s.hart.csr.legal s.cfg && pendingOk s.cfg s.hart.pending && s.cfg.hartIds == [s.self]) = true) :
    s.Inv := by
  simp only [Bool.and_eq_true, decide_eq_true_eq, beq_iff_eq] at h
  obtain ⟨⟨⟨⟨⟨⟨⟨⟨⟨⟨h1, h2⟩, h3⟩, h4⟩, h5⟩, h6⟩, h7⟩, h8⟩, h9⟩, h10⟩, h11⟩ := h
  exact ⟨h1, h2, h3, h4, ⟨h5, h6, h7, h8, h9, h10⟩, by simp [ho], by rw [h11, State.hartIds, ho]; exact .refl _⟩

/-- What `CheckAddr` returns for the block in effective M-mode, from `x10`. -/
def onBlock : Checked := { pa := 0x80001001, s1 := none, g := none, wm := true }

theorem witness_inv : (held true start).Inv ∧ (held false start).Inv ∧ start.Inv :=
  ⟨inv_of rfl (by decide), inv_of rfl (by decide), inv_of rfl (by decide)⟩

theorem witness_mayManage :
    MayManage (held true start) (.cboInval 10) .inval onBlock ∧ MayManage (held true start) (.cboClean 10) .mgmt onBlock ∧
      MayManage (held true start) (.cboFlush 10) .mgmt onBlock :=
  ⟨⟨by decide, by decide, by decide⟩, ⟨by decide, by decide, by decide⟩, ⟨by decide, by decide, by decide⟩⟩

theorem witness_mayZero : MayZero (held true start) 10 onBlock ∧ MayZero start 10 onBlock :=
  ⟨⟨by decide, by decide, by decide⟩, ⟨by decide, by decide, by decide⟩⟩

/-- A `CBO.INVAL` in U-mode on a page it may not write, which the registers turn into a flush (vector I9). -/
def i9 : State := tables roUser .off .off (under .U (csrs 0xF01 0x201 0 0) (held true start))

theorem witness_DecodeOfEncodeIsTheInstruction :
    cfgHint.wellFormed = true ∧ encode cfgHint.prefetchDecode (.prefetchW 11 .L2) = some hintWord ∧
      encode cfgHint.prefetchDecode (.cboZero 31) = some 0x080FA00F#32 := by decide

theorem witness_EncodeOfDecodeIsTheWord : decode 0x0005200F#32 = .instr (.cboInval 10) := by decide

theorem witness_ReservedEncodingsAreRefused :
    (opcodeOf 0x0000208F#32 = 0b0001111#7 ∧ funct3Of 0x0000208F#32 = 0b010#3 ∧ rdOf 0x0000208F#32 ≠ 0#5) ∧
    (opcodeOf 0x0010200F#32 = 0b0001111#7 ∧ funct3Of 0x0010200F#32 = 0b010#3 ∧ rdOf 0x0010200F#32 = 0#5 ∧
      rs2Of 0x0010200F#32 ≠ 0#5) ∧
    (opcodeOf 0x2000200F#32 = 0b0001111#7 ∧ funct3Of 0x2000200F#32 = 0b010#3 ∧ rdOf 0x2000200F#32 = 0#5 ∧
      rs2Of 0x2000200F#32 = 0#5 ∧ xxxOf 0x2000200F#32 ≠ 0#3) ∧
    (opcodeOf 0x0600200F#32 = 0b0001111#7 ∧ funct3Of 0x0600200F#32 = 0b010#3 ∧ rdOf 0x0600200F#32 = 0#5 ∧
      rs2Of 0x0600200F#32 = 0#5 ∧ xxxOf 0x0600200F#32 = 0#3 ∧
      yyyyOf 0x0600200F#32 ∉ [0b0000#4, 0b0001#4, 0b0010#4, 0b0100#4]) ∧
    decode 0x1E00200F#32 = .reserved .caseD ∧ prefetchRowOf cfgHint.prefetchDecode 0x1E00200F#32 = none := by decide

theorem witness_WordsAreDecodedLittleEndian : isWordSized (byteOfWord 0x0205200F#32 0) = true := by decide

/-- The word of `CBO.CLEAN x10` placed at `pc`. -/
def placed : State := (held true start).withFetchWord 32 0x0205200F

theorem witness_StepRunsTheDecodedInstruction :
    (placed.schedule = [] ∧ placed.hart.pending = none ∧ placed.executeTriggers = .pass () ∧
      placed.fetch = .pass [0x0F#8, 0x20#8, 0x05#8, 0x02#8] ∧
      decodeBytes placed.cfg.prefetchDecode [0x0F#8, 0x20#8, 0x05#8, 0x02#8] = some (.instr (.cboClean 10), [])) ∧
    { placed with schedule := [.hart] }.schedule.head? = some .hart ∧
    (start.withHart { start.hart with pending := some (.flushInvalidate blk) }).hart.pending =
      some (.flushInvalidate blk) := by decide

theorem witness_MachineModeFetchReadsTheWordAtPc :
    placed.hart.mode = .M ∧ placed.hart.pc.toNat % placed.cfg.ialign = 0 ∧
      isWordSized (byteOfWord 0x0205200F#32 0) = true ∧
      ∀ k < 4, placed.jointX .M (placed.cfg.trunc (placed.hart.pc + BitVec.ofNat 64 k)).toNat = true ∧
        placed.fetchDefined (placed.cfg.trunc (placed.hart.pc + BitVec.ofNat 64 k)).toNat = true ∧
        placed.mem.read (placed.cfg.trunc (placed.hart.pc + BitVec.ofNat 64 k)).toNat =
          byteOfWord 0x0205200F#32 k := by decide

theorem witness_CmoInstructionsWriteNoRegister :
    (see (exec (.cboClean 10) (held true start)) (fun _ => ())).isSome ∧
      (see (exec (.prefetchI 10 .L1) start) (fun _ => ())).isSome := by decide

/-- Two regions that meet inside the block (vector B9), and one with write permission alone. -/
def mixed : State :=
  { start with regions := [
    { base := 0, size := 0x80001002, attr := { kind := .memory, coherent := false, cacheable := true, perm := .all } },
    { base := 0x80001002, size := 0x1000, attr := { kind := .memory, coherent := false, cacheable := false, perm := .all } }] }
def writeOnly : State :=
  { start with regions := [
    { base := 0, size := 2 ^ 56,
      attr := { kind := .memory, coherent := false, cacheable := true, perm := ⟨false, true, true⟩ } }] }

/-- Two registers that name one block, in U-mode through a table, and where the walk ends at no leaf. -/
theorem witness_LowAddressBitsHaveNoEffect :
    i9.effMode = .U ∧ i9.effAddr 10 ≠ i9.effAddr 11 ∧
      i9.blockBase (i9.effAddr 10).toNat = i9.blockBase (i9.effAddr 11).toNat ∧
      i9.accessTriggers .mgmt (i9.effAddr 11) = .pass () ∧ i9.accessTriggers .write (i9.effAddr 11) = .pass () ∧
      i9.accessTriggers (.hint i9.cfg) (i9.effAddr 10) = .pass () ∧
      MayManage i9 (.cboFlush 10) .mgmt { onBlock with s1 := some (pte true true false false true) } ∧
      MayZero start 10 onBlock ∧
      (tables (table .invalid) .off .off i9).checkAddr .mgmt (i9.effAddr 10) = .raise ⟨.storeAmoPageFault, 0x80001001#64, 0⟩ ∧
      (tables (table .invalid) .off .off i9).checkAddr .mgmt (i9.effAddr 11) = .raise ⟨.storeAmoPageFault, 0x80001003#64, 0⟩ :=
  ⟨by decide, by decide, by decide, by decide, by decide, by decide, ⟨by decide, by decide, by decide⟩,
    ⟨by decide, by decide, by decide⟩, by decide, by decide⟩

/-- And where both are refused: a block whose attributes differ within it (vector B9). -/
theorem witness_LowAddressBits_refused :
    mixed.blockBase (mixed.effAddr 10).toNat = mixed.blockBase (mixed.effAddr 11).toNat ∧
      mixed.checkAddr .mgmt (mixed.effAddr 10) = .refuse .pmaConstraint ∧
      mixed.checkAddr .mgmt (mixed.effAddr 11) = .refuse .pmaConstraint := by decide

theorem witness_ControlRegisterWriteIsWarl :
    start.hart.pending = none ∧
    ∀ p ∈ [(start.cfg.csrM, CmoReg.m), (start.cfg.csrS, .s), (start.cfg.csrH, .h), (start.cfg.csrVs, .vs)],
      cmoRegOf start.cfg start.hart.mode p.1 = some p.2 ∧ (p.2.shape start.cfg).wellFormed = true := by decide

theorem witness_ControlRegisterAccessByMode :
    cfg4.csrS ≠ cfg4.csrM ∧ cfg4.csrH ∉ [cfg4.csrM, cfg4.csrS] ∧ cfg4.csrVs ∉ [cfg4.csrM, cfg4.csrS, cfg4.csrH] ∧
    cmoRegOf cfg4 .S cfg4.csrVs = some .vs ∧ cfg4.hasS = true ∧ cfg4.hasH = true ∧ cfg4.csrH ≠ cfg4.csrS ∧
      cfg4.csrVs ≠ cfg4.csrS ∧ cfg4.csrVs ≠ cfg4.csrH ∧ { cfg4 with vsRedirect := true }.vsRedirect = true := by decide

/-- Each mode, forbidden and not (the table of section 3 of the vectors); the premises of what follows where it is not. -/
theorem witness_IllegalInstructionByMode :
    (illegalMgmt (csrs 0 1 1 1) .S = true ∧ illegalMgmt (csrs 1 0 1 1) .U = true ∧ illegalMgmt (csrs 1 1 0 1) .VS = true ∧
      illegalMgmt (csrs 1 1 1 0) .VU = true) ∧
    (illegalMgmt (csrs 0 0 0 0) .M = false ∧ illegalMgmt (csrs 1 0 0 0) .S = false ∧ illegalMgmt (csrs 1 1 0 0) .U = false ∧
      illegalMgmt (csrs 1 0 1 0) .VS = false ∧ illegalMgmt (csrs 1 0 1 1) .VU = false) ∧
    (illegalWrite (csrs 1 2 2 2) .S = true ∧ illegalWrite (csrs 2 1 2 2) .U = true ∧ illegalWrite (csrs 2 2 1 2) .VS = true ∧
      illegalWrite (csrs 2 2 2 1) .VU = true) ∧
    (illegalWrite (csrs 2 1 1 1) .S = false ∧ illegalWrite (csrs 2 2 1 1) .U = false ∧
      illegalWrite (csrs 2 0 2 0) .VS = false ∧ illegalWrite (csrs 2 0 2 2) .VU = false) ∧
    i9.accessTriggers .mgmt (i9.effAddr 10) = .pass () ∧
    i9.checkAddr .inval (i9.effAddr 10) = .pass { onBlock with s1 := some (pte true true false false true) } := by decide

theorem witness_IllegalInstructionTrapValue :
    encode start.cfg.prefetchDecode (.cboZero 10) = some 0x0805200F#32 := by decide

/-- With `MPRV` set, `MPP` and `MPV` given. -/
def mprv (l : PrivLevel) (v : Bool) : State :=
  start.withHart { start.hart with csr := { start.hart.csr with
    mstatus := { start.hart.csr.mstatus with mprv := true, mpp := l, mpv := v } } }

theorem witness_EffectivePrivilegeModeByMprv :
    start.hart.csr.mstatus.mprv = false ∧ i9.hart.mode ≠ .M ∧
    [(mprv .m true).effMode, (mprv .s false).effMode, (mprv .s true).effMode, (mprv .u false).effMode,
      (mprv .u true).effMode] = [.M, .S, .VS, .U, .VU] := by decide

/-- The check passes. -/
def passes {α : Type} : Check α → Bool
  | .pass _ => true
  | .raise _ => false
  | .refuse _ => false

/-- A state of each effective mode whose address passes both stages and the PMP, with writable pages. -/
def passing (m : Mode) (c : CmoCsrs) : State :=
  tables (table (pte true true true false (m == .U))) (table (pte true true true false (m == .VU)))
    (table (pte true true true false true)) (under m c (held true start))

theorem witness_InvalByEffectiveMode :
    ∀ m ∈ [Mode.M, .S, .U, .VS, .VU],
      illegalMgmt (csrs 0xF01 0xF01 0xF01 0xF01) m = false ∧
      passes ((passing m (csrs 0xF01 0xF01 0xF01 0xF01)).checkAddr .mgmt 0x80001001#64) = true ∧
      (passing m (csrs 0xF01 0xF01 0xF01 0xF01)).accessTriggers .mgmt 0x80001001#64 = .pass () ∧
      (passing m (csrs 0xF01 0xF01 0xF01 0xF01)).effMode = m ∧
      (see (exec (.cboInval 10) (passing m (csrs 0xF01 0xF01 0xF01 0xF01))) (fun t => (t.hart.mode, t.line 0 blk))) =
        some (m, none) := by decide

/-- Where the selected `INVWxE` is 0: the trap of S-mode, the two of U-mode and of VS-mode, and the three of VU-mode, in their
order; each state passes the tests of a management instruction. -/
theorem witness_InvalTrapsByEffectiveMode :
    (∀ p ∈ [(Mode.S, csrs 1 1 1 1), (.U, csrs 1 1 1 1), (.U, csrs 1 0xF01 1 1), (.VS, csrs 1 1 1 1), (.VS, csrs 1 1 0xF01 1),
        (.VU, csrs 1 1 1 1)], illegalMgmt p.2 p.1 = false ∧ (passing p.1 p.2).effMode = p.1 ∧
      passes ((passing p.1 p.2).checkAddr .mgmt 0x80001001#64) = true) ∧
    [(Mode.S, csrs 1 1 1 1), (.U, csrs 1 1 1 1), (.U, csrs 1 0xF01 1 1), (.VS, csrs 1 1 1 1), (.VS, csrs 1 1 0xF01 1)].map
        (fun p => see (exec (.cboInval 10) (passing p.1 p.2)) (fun t => t.hart.csr.mtrap.cause)) =
      [some 7, some 15, some 7, some 23, some 7] ∧
    [see (exec (.cboInval 10) (passing .VU (csrs 1 0xF01 1 1))) (fun t => t.hart.csr.mtrap.cause),
      see (exec (.cboInval 10) (passing .VU (csrs 1 0xF01 1 0xF01))) (fun t => t.hart.csr.mtrap.cause),
      see (exec (.cboInval 10) (passing .VU (csrs 1 0xF01 0xF01 0xF01))) (fun t => t.hart.csr.mtrap.cause)] =
      [some 15, some 23, some 7] := by decide

/-- In U-mode `hcmocontrol` and `vscmocontrol` may change. -/
theorem witness_OnlyGoverningRegistersMatter :
    i9.effMode = .U ∧ (csrs 0xF01 0x201 0xF01 0xF01).mcmocontrol = i9.hart.cmo.mcmocontrol ∧
      (csrs 0xF01 0x201 0xF01 0xF01).scmocontrol = i9.hart.cmo.scmocontrol ∧ csrs 0xF01 0x201 0xF01 0xF01 ≠ i9.hart.cmo := by
  decide

theorem witness_hints : (Instr.prefetchR 10 .L1).isHint = true ∧ (Instr.prefetchW 10 .L2).isHint = true ∧
    (Instr.prefetchI 10 .default).isHint = true ∧ start.accessTriggers (.hint start.cfg) (start.effAddr 10) = .pass () ∧
    start.fillOffered start.self 0x80001001 = true ∧ start.pmaConstraintsMet 0x80001001 = true ∧
    (held true start).fillOffered 0 0x80001001 = false := by decide

/-- The address checks of a hint, passed and, for want of permission on a byte, not passed; and with no translation no address
passes both stages. -/
theorem witness_hint_addresses :
    StagesPass start (start.effAddr 10) 0x80001001 ∧ BlockPermitted start 0x80001001 ∧
    ¬BlockPermitted (pmpByte 0x80001003 ⟨false, true, false⟩ start) 0x80001001 ∧
    ∀ pa, ¬StagesPass (tables (table .invalid) .off .off (under .U (csrs 0 0 0 0) start)) 0x80001001#64 pa := by
  refine ⟨⟨none, none, 0x80001001, by decide, by simp, by simp⟩, ?_, ?_, ?_⟩
  · unfold BlockPermitted; decide
  · unfold BlockPermitted; decide
  rintro pa ⟨s1, g, gpa, h, h1, -⟩
  rw [show translateVa _ _ _ = Translated.mapped (some .invalid) none 0 0 from by decide] at h
  cases h
  exact absurd (h1 _ rfl).1 (by decide)

/-- A table whose walk ends in another way. -/
def walking (w : Walk) : PageTable := { bare := false, walks := [(0x80001, w)] }

/-- Each clause of the address checks: the two interrupted walks, a page that does not allow the access, a G-stage page that
does not (vectors A12, A13), a byte with no permission (B4), and an address that passes. -/
theorem witness_AddressChecks :
    translateVa (tables (walking .accessFault) .off .off start).hart.csr 0x80001001 .U = .walkAccessFault ∧
    translateVa (tables .off .off (walking (.guestPageFault 0x5000)) start).hart.csr 0x80001001 .VS =
      .walkGuestPageFault 0x5000 ∧
    translateVa (tables (table (pte true true true false false)) .off .off start).hart.csr 0x80001001 .U =
      .mapped (some (pte true true true false false)) none 0x80001001 0x80001001 ∧
    translateVa (tables .off roKernel (table (pte true true false false false)) start).hart.csr 0x80001001 .VS =
      .mapped (some (pte true true false false false)) (some (pte true true false false false)) 0x80001001 0x80001001 ∧
    start.pmaConstraintsMet 0x80001001 = true ∧
    (∃ a ∈ start.block 0x80001001, (pmpByte 0x80001003 ⟨false, false, false⟩ start).jointR .M a = false ∧
      (pmpByte 0x80001003 ⟨false, false, false⟩ start).jointX .M a = false ∧
      (pmpByte 0x80001003 ⟨false, false, false⟩ start).jointW .M a = false) ∧
    (∀ a ∈ start.block 0x80001001, start.jointR .M a = true ∧ start.jointW .M a = true) := by decide

/-- The same clauses of `CBO.INVAL` with the control registers' tests passed: a G-stage page for no user, and a byte with neither
read nor execute permission while another may be written. -/
theorem witness_InvalAddressChecks :
    see (exec (.cboInval 10) (tables .off rwUser roKernel (under .VU (csrs 0xF01 0 0xF01 0xF01) start)))
      (fun t => t.hart.csr.mtrap.cause) = some 23 ∧
    see (exec (.cboInval 10) (pmpByte 0x80001003 ⟨false, true, false⟩
      (tables rwUser .off .off (under .U (csrs 0xF01 0xF01 0 0) start)))) (fun t => t.hart.csr.mtrap.cause) = some 7 := by
  decide

theorem witness_PmaConstraintsUnmetIsRefused :
    illegalMgmt start.hart.cmo start.hart.mode = false ∧ illegalWrite start.hart.cmo start.hart.mode = false ∧
    start.hart.csr.triggers = [] ∧
    translateVa mixed.hart.csr (mixed.effAddr 10).toNat mixed.effMode = .mapped none none 0x80001001 0x80001001 ∧
    (∃ a ∈ mixed.block 0x80001001, mixed.attrs a ≠ mixed.attrs 0x80001001) ∧
    (writeOnly.attrs 0x80001001).map Attr.perm = some ⟨false, true, true⟩ := by decide

/-- One of the two enables is enough: the vectors' `mcmocontrol` 0xF01, with `CBME` and without `CBWE`, and the converse. -/
theorem witness_PmaConstraintsUnmet_by_own_enable :
    illegalWrite (csrs 0xF01 0 0 0) .S = true ∧ illegalMgmt (csrs 0xF02 0 0 0) .S = true ∧
    exec (.cboClean 10) (under .S (csrs 0xF01 0 0 0) mixed) = .refused .pmaConstraint ∧
    exec (.cboZero 10) (under .S (csrs 0xF02 0 0 0) mixed) = .refused .pmaConstraint := ⟨rfl, rfl, rfl, rfl⟩

/-- Rule R90 speaks of the attributes: a write-only block is refused that the hart is no observer of, too. -/
theorem test_prefetchR_write_only_block_out_of_reach :
    exec (.prefetchR 10 .L1)
        { writeOnly with cfg := { cfg4 with observers := [⟨0, .hart, true, []⟩] } } = .refused .pmaConstraint := rfl

theorem witness_TriggersOnCmoInstructions :
    storeTrigger.armed = true ∧ storeTrigger.hits (start.effAddr 10) = true ∧ storeTrigger.action = .breakpoint ∧
    (triggers [storeTrigger] start).hart.csr.triggers = [storeTrigger] ∧
    see (exec (.cboInval 10) (triggers [storeTrigger] start)) (fun t => t.hart.csr.mtrap.cause) = some 3 ∧
    { storeTrigger with compare := .exact }.hits (start.effAddr 10) = false ∧
    (storeTrigger.data = false ∧ { storeTrigger with ttype := .mcontrol }.ttype = .mcontrol) := by decide

/-- The vectors' `mcmocontrol` 0xF01 in S-mode: the trigger stops `CBO.INVAL` though `CBWE` is 0; and the converse. -/
theorem witness_Triggers_by_own_enable :
    see (exec (.cboInval 10) (triggers [storeTrigger] (under .S (csrs 0xF01 0 0 0) start))) (fun t => t.hart.csr.mtrap.cause) =
      some 3 ∧
    see (exec (.cboZero 10) (triggers [storeTrigger] (under .S (csrs 0xF02 0 0 0) start))) (fun t => t.hart.csr.mtrap.cause) =
      some 3 := by decide

/-- Set for execution: at `pc`, and elsewhere. -/
def executeTrigger : Trigger := { storeTrigger with store := false, execute := true, compare := .exact, addr := 0x80000000#64 }

theorem witness_TriggersOnExecution :
    executeTrigger.hits start.hart.pc = true ∧ start.hart.pending = none ∧
    see (hartStep (triggers [executeTrigger] start)) (fun t => t.hart.csr.mtrap.cause) = some 3 ∧
    (triggers [{ executeTrigger with addr := 0x80000004#64 }] start).executeTriggers = .pass () := by decide

/-- The registers with every exception delegated. -/
def delegated : HostCsrs := { HostCsrs.atReset with medeleg := 0xFFFFFFFF#64, hedeleg := 0xFFFFFFFF#64 }

theorem witness_traps :
    [trapTarget cfg4 .M delegated .illegalInstruction, trapTarget cfg4 .U HostCsrs.atReset .illegalInstruction,
      trapTarget cfg4 .U delegated .illegalInstruction, trapTarget cfg4 .VS delegated .storeAmoGuestPageFault,
      trapTarget cfg4 .VU delegated .storeAmoPageFault] = [.m, .m, .s, .s, .vs] := by decide

theorem witness_returns :
    start.hart.pending = none ∧ start.hart.mode = .M ∧ (passing .S (csrs 0 0 0 0)).hart.mode = .S ∧
    (passing .VS (csrs 0 0 0 0)).hart.mode = .VS ∧
    see (runEvent .mret (mprv .u true)) (fun t => (t.hart.mode, t.hart.csr.mstatus.mprv)) = some (.VU, false) ∧
    see (runEvent .sret (under .VS (csrs 0 0 0 0) (mprv .s true))) (fun t => (t.hart.mode, t.hart.csr.mstatus.mprv)) =
      some (.VU, false) ∧
    see (runEvent .sret start) (fun t => (t.hart.mode, t.hart.csr.mstatus.spie)) = some (.U, true) ∧ start.cfg.hasS = true ∧
    see (runEvent .sret (under .U (csrs 0 0 0 0) start)) (fun t => t.hart.mode) = some .U := by decide

theorem witness_OnlyTrapsAndReturnsChangeMode :
    see (runEvent .mret (mprv .s false)) (fun t => (t.self, t.hart.mode)) = some (0, .S) ∧
      start.others.all (fun p => p.1 != start.self) = true := by decide

/-- Vectors C3, C4, C6, C8 and C5, C7, C12: each move of the caches, offered and not. -/
theorem witness_cache_moves :
    (start.setCached (start.cset 0 blk) = true ∧ start.cfg.observes 0 blk = true ∧ start.attrs blk ≠ none ∧ start.line 0 blk = none) ∧
    (held false start).line 0 blk = some ⟨[0xAA, 0xBB, 0xCC, 0xDD], false⟩ ∧
    (held true start).line 0 blk = some ⟨[0xAA, 0xBB, 0xCC, 0xDD], true⟩ ∧
    see (runEvent (.fill 0 blk) start) blockView = some (0x80000000#64, some ⟨[1, 2, 3, 4], false⟩, [1, 2, 3, 4]) ∧
    see (runEvent (.fill 0 blk) (held true start)) (fun t => t.line 0 blk) = some ((held true start).line 0 blk) ∧
    see (runEvent (.drop 0 blk) (held false start)) (fun t => t.line 0 blk) = some none ∧
    see (runEvent (.writeBack 0 blk) (held false start)) (fun t => t.mem) = some start.mem := by decide

/-- A reservation of the hart on two bytes of the block: a device's store just before them leaves it, one to the last of them
takes it, the hart's own store leaves it; and the hart gives it up. -/
def reserved : State := { start with reservations := [⟨0, blk + 1, 2⟩] }

theorem witness_LoadReservations :
    reserved.hart.pending = none ∧
    [see (runEvent (.reserve (blk + 1) 2) start) (fun t => t.reservations),
      see (runEvent (.store 1 blk [9]) reserved) (fun t => t.reservations),
      see (runEvent (.store 1 (blk + 2) [9, 9]) reserved) (fun t => t.reservations),
      see (runEvent (.store 0 (blk + 2) [9, 9]) reserved) (fun t => t.reservations),
      see (runEvent .unreserve reserved) (fun t => t.reservations)] =
      [some [⟨0, blk + 1, 2⟩], some [⟨0, blk + 1, 2⟩], some [], some [⟨0, blk + 1, 2⟩], some []] := by decide

/-- A device's range, no range at all, and a `CBO.ZERO` in progress. -/
def onlyDevice : State :=
  { start with regions := [{ base := 0, size := 2 ^ 56, attr := ⟨.device, false, false, .all⟩ }] }
def noMap : State := { start with regions := [] }
def inside : State := start.withHart { start.hart with pending := some (.zero blk [0]) }

/-- What the loads of rule R107's clauses need, at the end of a block, across it, and where there is no step or a stop. -/
theorem witness_LoadReturnsTheView :
    start.cfg.invalLoadValue = .memory ∧ start.between 0 = true ∧ (∀ k < 2, start.cfg.observes 0 (blk + 2 + k) = true) ∧
    see (runEvent (.load 0 (blk + 2) 4) start) (fun t => (t.lastLoad, t.schedule)) =
      some (some ⟨0, blk + 2, [3, 4]⟩, [.load 0 (blk + 4) 2]) ∧
    inside.between 0 = false ∧ start.cfg.observes 7 blk = false ∧ noMap.attrs blk = none ∧
    (onlyDevice.attrs blk).map Attr.kind = some .device ∧
    start.hostTarget .load 0x80001002#64 2 = .pass (blk + 2) ∧
    (tables (table .invalid) .off .off (under .U (csrs 0 0 0 0) start)).hostTarget .load 0x80001002#64 2 =
      .raise ⟨.loadPageFault, 0x80001002#64, 0⟩ := by decide

/-- With `InvalLoadValue` any: a byte stored to since the invalidate is returned as the hart sees it, and so is one of a block that
another observer invalidated. -/
def anyLoad (order : List MemOp) : State := { start with cfg := { cfg4 with invalLoadValue := .any }, gmo := order }

theorem witness_LoadOfSettledBytes :
    invalidatedSinceStore 0 (blk + 1) [⟨0, .store, blk + 2, 1⟩, ⟨0, .invalidate, blk, 4⟩] = true ∧
    see (runEvent (.load 0 (blk + 2) 1) (anyLoad [⟨0, .store, blk + 2, 1⟩, ⟨0, .invalidate, blk, 4⟩])) (fun t => t.lastLoad) =
      some (some ⟨0, blk + 2, [3]⟩) ∧
    see (runEvent (.load 0 (blk + 2) 1) (anyLoad [⟨1, .flush, blk, 4⟩])) (fun t => t.lastLoad) =
      some (some ⟨0, blk + 2, [3]⟩) := by decide

/-- `MemRead` and `MemWrite` across a block: the first block's bytes now, the rest at the head of the schedule; and of no bytes. -/
theorem witness_accesses_across_blocks :
    start.hostTarget .load 0x80001002#64 2 = .pass (blk + 2) ∧ start.hostTarget .store 0x80001002#64 2 = .pass (blk + 2) ∧
    start.cfg.cbs - (start.cfg.trunc 0x80001002#64).toNat % start.cfg.cbs = 2 ∧
    see (runEvent (.memRead 0x80001002#64 4) start) (fun t => (t.lastLoad, t.schedule)) =
      some (some ⟨0, blk + 2, [3, 4]⟩, [.memRead 0x80001004#64 2]) ∧
    see (runEvent (.memWrite 0x80001002#64 [5, 6, 7]) start) (fun t => (t.mem.readBytes blk 5, t.schedule)) =
      some ([1, 2, 5, 6, 0], [.memWrite 0x80001004#64 [7]]) ∧
    runEvent (.memRead 0x80001002#64 0) (under .U (csrs 0 0 0 0) (pmpAll .none start)) =
      .next (under .U (csrs 0 0 0 0) (pmpAll .none start)) :=
  ⟨by decide, by decide, by decide, by decide, by decide, rfl⟩

theorem test_loads_that_stop :
    runEvent (.load 0 blk 1) noMap = .fault .noSuchLocation ∧ runEvent (.load 0 blk 1) onlyDevice = .refused .deviceLocation ∧
      runEvent (.load 0 blk 1) inside = .next inside ∧ runEvent (.load 7 blk 1) start = .next start := ⟨rfl, rfl, rfl, rfl⟩

/-- Vectors C10 and C11: a store to an absent and to a held block, its last byte at the block's end. -/
theorem witness_StoreGoesToTheCopyOrToMemory :
    [(0x7E : Byte)] ≠ [] ∧ (start.attrs (blk + 3)).map Attr.kind = some .memory ∧
    start.blockBase (blk + 3) = start.blockBase (blk + 3 + 0) ∧ start.cfg.observes 0 (blk + 3) = true ∧
    inside.between 0 = false ∧ start.hostTarget .store 0x80001003#64 1 = .pass (blk + 3) ∧
    (tables roUser .off .off (under .U (csrs 0 0 0 0) start)).hostTarget .store 0x80001003#64 1 =
      .raise ⟨.storeAmoPageFault, 0x80001003#64, 0⟩ ∧
    see (runEvent (.store 0 (blk + 3) [0x7E]) start) blockView = some (0x80000000#64, none, [1, 2, 3, 0x7E]) ∧
    see (runEvent (.store 0 (blk + 3) [0x7E]) (held false start)) blockView =
      some (0x80000000#64, some ⟨[0xAA, 0xBB, 0xCC, 0x7E], true⟩, [1, 2, 3, 4]) := by decide

/-- The whole address space. -/
def everywhere : List AddrRange := [⟨0, 2 ^ 56⟩]

/-- The block held clean by the hart, and held dirty by a device that has a cache and is not coherent with it. -/
def heldTwice : State :=
  { held false start with
    cfg := { cfg4 with observers := [⟨0, .hart, true, everywhere⟩, ⟨1, .device, true, everywhere⟩] }
    cache := [(⟨[0], blk⟩, ⟨[0xAA, 0xBB, 0xCC, 0xDD], false⟩), (⟨[1], blk⟩, ⟨[9, 9, 9, 9], true⟩)] }

/-- The device (observer 1) is outside the hart's set: vector C22. The last clause: an invalidate in progress, of a block that
the device's set holds too, leaves the device's copy. -/
theorem witness_OtherSetsKeepTheirCopies :
    (start.keyOf 0 blk).set ≠ start.cset 1 blk ∧ 1 ∉ (start.keyOf 0 blk).set ∧
    see (runEvent (.store 1 (blk + 3) [0x11]) (held true start)) blockView =
      some (0x80000000#64, some ⟨[0xAA, 0xBB, 0xCC, 0xDD], true⟩, [1, 2, 3, 0x11]) ∧
    (0 : ObserverId) ∉ ({ set := [1], block := blk } : CacheKey).set ∧
    mapGet ⟨[1], blk⟩ (heldTwice.resume (.flushInvalidate blk)).cache = some ⟨[9, 9, 9, 9], true⟩ ∧
    (heldTwice.resume (.flushInvalidate blk)).line 0 blk = none := by decide

/-- Each clause: a clean and a WriteBack of a dirty copy; and of a block that the hart's set holds clean and another set holds
dirty, a clean by the hart writes nothing. -/
theorem witness_OnlyDirtyCopiesReachMemory :
    (held true start).Inv ∧
    see (exec (.cboClean 10) (held true start)) (fun t => (t.mem.read blk, (held true start).mem.read blk)) =
      some (0xAA, 1) ∧
    see (runEvent (.writeBack 0 blk) (held true start)) (fun t => (t.mem.read blk, (held true start).mem.read blk)) =
      some (0xAA, 1) ∧
    heldTwice.Inv ∧ see (exec (.cboClean 10) heldTwice) (fun t => t.mem == heldTwice.mem) = some true :=
  ⟨inv_of rfl (by decide), by decide, by decide, inv_of rfl (by decide), by decide⟩

/-- Two harts kept coherent, and a device that is not. -/
def coherent : State :=
  { start with
    cfg := { cfg4 with
      observers := [⟨0, .hart, true, everywhere⟩, ⟨2, .hart, true, everywhere⟩, ⟨1, .device, false, everywhere⟩]
      domains := [⟨⟨0, 2 ^ 56⟩, true, [[0, 2]]⟩] }
    others := [(2, .atReset cfg4)]
    regions := [
      { base := 0, size := 2 ^ 56, attr := { kind := .memory, coherent := true, cacheable := true, perm := .all } }] }

theorem witness_inv_of_two_harts : coherent.Inv where
  cfg := by decide
  mem := by decide
  sorted := rfl
  lines := rfl
  hart := ⟨rfl, by decide, by decide, by decide, by decide, rfl⟩
  others := by
    intro p hp
    obtain rfl : p = (2, .atReset cfg4) := by simpa [coherent] using hp
    exact ⟨rfl, by decide, by decide, by decide, by decide, rfl⟩
  harts := .refl _

theorem witness_SetsOfCoherentObserversPartition :
    coherent.Inv ∧ 2 ∈ coherent.cset 0 blk ∧ coherent.cset 1 blk = [1] ∧ coherent.cfg.observes 0 blk = true ∧
      (∀ a, start.attrs blk = some a → a.coherent = false) := by
  refine ⟨witness_inv_of_two_harts, by decide, by decide, by decide, ?_⟩
  intro a h
  rw [show start.attrs blk = some { kind := .memory, coherent := false, cacheable := true, perm := .all } from by decide] at h
  cases h; rfl

theorem witness_CboInvalInvalidates :
    performsInvalidate (held true start).hart.cmo (held true start).effMode onBlock.s1 onBlock.g onBlock.wm = true := by
  decide

theorem witness_FlushWritesAndRemoves :
    i9.Inv ∧ i9.cfg.flushAtomic = true ∧
    MayManage i9 (.cboInval 10) .inval { onBlock with s1 := some (pte true true false false true) } ∧
    performsInvalidate i9.hart.cmo i9.effMode (some (pte true true false false true)) none true = false :=
  ⟨inv_of rfl (by decide), by decide, ⟨by decide, by decide, by decide⟩, by decide⟩

/-- `FlushAtomic = false`. -/
def split : State := { held true start with cfg := { cfg4 with flushAtomic := false } }

theorem witness_FlushInTwoSteps :
    split.Inv ∧ split.cfg.flushAtomic = false ∧ MayManage split (.cboFlush 10) .mgmt onBlock ∧
    split.pmaConstraintsMet onBlock.pa = true ∧
    see (exec (.cboFlush 10) split) (fun t => blockView (t.resume (.flushInvalidate blk))) =
      some (0x80000004#64, none, [0xAA, 0xBB, 0xCC, 0xDD]) :=
  ⟨inv_of rfl (by decide), by decide, ⟨by decide, by decide, by decide⟩, by decide, by decide⟩

/-- The same for the `CBO.INVAL` of vector I9. -/
def splitI9 : State := { i9 with cfg := { cfg4 with flushAtomic := false } }

theorem witness_InvalFlushInTwoSteps :
    splitI9.Inv ∧ MayManage splitI9 (.cboInval 10) .inval { onBlock with s1 := some (pte true true false false true) } ∧
    performsInvalidate splitI9.hart.cmo splitI9.effMode (some (pte true true false false true)) none true = false ∧
    see (exec (.cboInval 10) splitI9) blockView =
      some (0x80000000#64, some ⟨[0xAA, 0xBB, 0xCC, 0xDD], false⟩, [0xAA, 0xBB, 0xCC, 0xDD]) :=
  ⟨inv_of rfl (by decide), ⟨by decide, by decide, by decide⟩, by decide, by decide⟩

/-- Byte stores planned in two groups, the first with one byte; the rest come with the third step. -/
def grouped : State := { start with zeroPlan := [[2], [0, 7]] }

theorem witness_CboZeroInAnyGrouping :
    grouped.Inv ∧ MayZero grouped 10 onBlock ∧ start.zeroPlan = [] ∧ grouped.pmaConstraintsMet onBlock.pa = true ∧
    see (exec (.cboZero 10) grouped) blockView = some (0x80000000#64, none, [1, 2, 0, 4]) ∧
    see (exec (.cboZero 10) grouped) (fun t => blockView (resumeTimes 2 t)) =
      some (0x80000004#64, none, [0, 0, 0, 0]) :=
  ⟨inv_of rfl (by decide), ⟨by decide, by decide, by decide⟩, by decide, by decide, by decide, by decide⟩

/-- A further step: the planned group alone, with the rest left; and all that is left where none is planned. -/
theorem witness_further_step_of_CboZero :
    (grouped.resume (.zero blk [0, 2])).mem.readBytes blk 4 = [1, 2, 0, 4] ∧
    (grouped.resume (.zero blk [0, 2])).hart.pending = some (.zero blk [0]) ∧
    (start.resume (.zero blk [0, 2])).mem.readBytes blk 4 = [0, 2, 0, 4] ∧
    (start.resume (.zero blk [0, 2])).hart.pending = none ∧
    (start.resume (.zero blk [0, 2])).hart.pc = 0x80000004#64 := by decide

theorem witness_GlobalMemoryOrderOnlyGrows : see (step placed) (fun t => t.gmo.length) = some 1 := by decide

/-- Each clause: the four instructions pass their tests (above); the second half of a split flush; the byte stores of a
`CBO.ZERO`, in one step and in a group of one. -/
theorem witness_OperationsInTheGlobalMemoryOrder :
    see (exec (.cboFlush 10) split) (fun t => (t.hart.pending, t.gmo)) =
      some (some (.flushInvalidate blk), [⟨0, .clean, blk, 4⟩]) ∧
    see (exec (.cboZero 10) start) (fun t => t.gmo) =
      some [⟨0, .store, blk + 3, 1⟩, ⟨0, .store, blk + 2, 1⟩, ⟨0, .store, blk + 1, 1⟩, ⟨0, .store, blk, 1⟩] ∧
    see (exec (.cboZero 10) grouped) (fun t => t.gmo) = some [⟨0, .store, blk + 2, 1⟩] := by decide

theorem witness_AfterReset : State.reset.AfterReset ∧ MayManage State.reset (.cboInval 0) .mgmt ⟨0, none, none, true⟩ :=
  ⟨⟨⟨rfl, rfl, rfl, by decide, by decide, by decide, by decide, rfl⟩, by intro p hp; cases hp⟩,
    ⟨by decide, by decide, by decide +kernel⟩⟩

/-- Two harts as a reset may leave them, and one of two that it may not: the parked hart is in S-mode. -/
theorem witness_AfterReset_of_two_harts :
    coherent.AfterReset ∧ coherent.switchTo 2 ≠ coherent ∧
      ¬{ coherent with others := [(2, { Hart.atReset cfg4 with mode := .S })] }.AfterReset := by
  refine ⟨⟨⟨rfl, rfl, rfl, by decide, by decide, by decide, by decide, rfl⟩, ?_⟩, by decide, ?_⟩
  · intro p hp
    obtain rfl : p = (2, .atReset cfg4) := by simpa [coherent] using hp
    exact ⟨rfl, rfl, rfl, by decide, by decide, by decide, by decide, rfl⟩
  · intro h
    have := (h.others _ (List.mem_singleton.mpr rfl)).mode
    cases this

theorem witness_AttributeChangeUnderCopyIsRefused :
    mapGet ((held true start).keyOf 0 blk) (held true start).cache = some ⟨[0xAA, 0xBB, 0xCC, 0xDD], true⟩ ∧
    (blk + 2) ∈ (held true start).block blk ∧
    { held true start with regions := mixed.regions }.attrs (blk + 2) ≠ (held true start).attrs (blk + 2) ∧
    start.cache = [] ∧ start.cfg.attrsFixed = false ∧ { cfg4 with attrsFixed := true }.attrsFixed = true := by decide

/-- A page made a device's while a block of another page is cached. -/
def elsewhere : List Region :=
  { base := 0x90000000, size := 0x1000, attr := ⟨.device, false, false, .all⟩ } :: start.regions

theorem witness_AttributeChangeElsewhere :
    (held true start).cache.all (fun p => ((held true start).block p.1.block).all (fun a =>
      { held true start with regions := elsewhere }.attrs a == (held true start).attrs a)) = true ∧
    see (runEvent (.regions elsewhere) (held true start)) (fun t => (t.regions == elsewhere, t.cache == start.cache)) =
      some (true, false) := by decide

theorem witness_stale_data :
    (held true start).line (held true start).self blk = some ⟨[0xAA, 0xBB, 0xCC, 0xDD], true⟩ ∧
    [(0xAA : Byte), 0xBB, 0xCC, 0xDD].length = (held true start).cfg.cbs ∧ (held true start).pmaConstraintsMet blk = true ∧
    3 < (held true start).cfg.cbs ∧ (∀ a ∈ (held true start).block 0x80001001, (held true start).line 1 a = none) := by decide

end Sys2Proof.Tests
end

section
/-!
PROOFS. The statements of 10_state.md: memory attributes that change under a cached copy (spec rules R43, R238), and load
reservations (spec rules R47, R98, R115).
-/

namespace Sys2Proof.Machine

variable {s t : State}

/-! ### Attributes (rules R43, R238) -/

/-- The converse of `mem_of_mapGet`, for the key alone: of two entries with one key the first is found. -/
theorem exists_mapGet_of_mem {κ ν : Type} [DecidableEq κ] {p : κ × ν} {m : List (κ × ν)} (h : p ∈ m) :
    ∃ v, mapGet p.1 m = some v := by
  induction m with
  | nil => cases h
  | cons q rest ih =>
    by_cases hq : q.1 = p.1
    · exact ⟨q.2, by simp [mapGet, hq]⟩
    · obtain ⟨v, hv⟩ := ih ((List.mem_cons.mp h).resolve_left fun e => hq (e ▸ rfl))
      exact ⟨v, by simpa [mapGet, hq] using hv⟩

/-- The refusal's test, in terms of the blocks that are cached. -/
theorem State.changesUnderCopy_iff {rs : List Region} : s.changesUnderCopy rs = true ↔
    ∃ key l a, mapGet key s.cache = some l ∧ a ∈ s.block key.block ∧ { s with regions := rs }.attrs a ≠ s.attrs a := by
  simp only [State.changesUnderCopy, List.any_eq_true, Bool.not_eq_true', beq_eq_false_iff_ne]
  constructor
  · rintro ⟨p, hp, a, ha, hne⟩
    obtain ⟨l, hl⟩ := exists_mapGet_of_mem hp
    exact ⟨p.1, l, a, hl, ha, hne⟩
  · rintro ⟨key, l, a, hl, ha, hne⟩
    exact ⟨(key, l), mem_of_mapGet hl, a, ha, hne⟩

/-! ### Load reservations (rules R47, R98, R115) -/

/-- Two runs of bytes overlap exactly if some byte is in both. -/
theorem overlap_iff {a n b m : Nat} : overlap a n b m = true ↔ ∃ k, (a ≤ k ∧ k < a + n) ∧ b ≤ k ∧ k < b + m := by
  rw [overlap, decide_eq_true_eq]
  exact ⟨fun h => ⟨max a b, by omega⟩, fun ⟨k, hk⟩ => by omega⟩

/-- A store leaves the storing observer's own reservations and those that share no byte with it (rule R98). -/
theorem State.mem_observerStore_reservations_iff {o : ObserverId} {pa : Nat} {v : List Byte} {r : Reservation} :
    r ∈ (s.observerStore o pa v).reservations ↔ r ∈ s.reservations ∧
      (r.hart = o ∨ ∀ a, r.base ≤ a ∧ a < r.base + r.size → ¬(pa ≤ a ∧ a < pa + v.length)) := by
  have apart : overlap r.base r.size pa v.length = false ↔
      ∀ a, r.base ≤ a ∧ a < r.base + r.size → ¬(pa ≤ a ∧ a < pa + v.length) := by
    rw [← Bool.not_eq_true, overlap_iff]
    simp only [not_exists, not_and]
  simp only [State.observerStore, keptByStore, List.mem_filter, Bool.or_eq_true, beq_iff_eq, Bool.not_eq_true', apart]

/-- The other harts' reservations, which a hart's `reserve` and `unreserve` leave. -/
theorem mem_filter_hart_ne {rs : List Reservation} {h : ObserverId} {r : Reservation} :
    r ∈ rs.filter (fun r => r.hart != h) ↔ r ∈ rs ∧ r.hart ≠ h := by
  rw [List.mem_filter, bne_iff_ne]

/-- Between instructions a host instruction does what it does (rule R209). -/
theorem State.byHost_of_between (h : s.hart.pending = none) (t : State) : s.byHost t = t := by
  simp [State.byHost, h]

/-- Between instructions, `reserve` puts a reservation in place of the hart's own (rule R47). -/
theorem runEvent_reserve (h : s.hart.pending = none) (pa n : Nat) :
    runEvent (.reserve pa n) s = .next { s with
      reservations := { hart := s.self, base := pa, size := n } :: s.reservations.filter (fun r => r.hart != s.self) } :=
  congrArg _ (State.byHost_of_between h _)

/-- Between instructions, `unreserve` takes the hart's own reservation away (rule R47). -/
theorem runEvent_unreserve (h : s.hart.pending = none) :
    runEvent .unreserve s = .next { s with reservations := s.reservations.filter (fun r => r.hart != s.self) } :=
  congrArg _ (State.byHost_of_between h _)

/-- Everything a management instruction that does not stop can do to the hart, from what its operation can do. -/
theorem manage_next_cases {i : Instr} {k : OpClass} {op : Checked → State} (h : s.manage i k op = .next t)
    (hop : ∀ q, Completed s (op q) ∨ InProgress s (op q)) :
    (Completed s t ∨ InProgress s t) ∨ ∃ e, t = s.trap e := by
  obtain ⟨q, -, rfl⟩ | ⟨e, rfl, -⟩ := manage_next h
  · exact .inl (hop q)
  · exact .inr ⟨e, rfl⟩

/-- A hint instruction that does not stop completes or takes an exception (rule R162). -/
theorem hint_next_cases {rs1 : RegNum} (h : s.hint rs1 = .next t) :
    (Completed s t ∨ InProgress s t) ∨ ∃ e, t = s.trap e := by
  obtain ⟨target, -, rfl⟩ | ⟨e, rfl, -⟩ := hint_next h
  · exact .inl (.inl (quiet_hintAllocate s target).completed)
  · exact .inr ⟨e, rfl⟩

/-- Everything the first step of a CMO instruction can do to the hart: it completes, or goes on, or takes an exception. -/
theorem exec_next_cases {i : Instr} (h : exec i s = .next t) :
    (Completed s t ∨ InProgress s t) ∨ ∃ e, t = s.trap e := by
  cases i with
  | cboInval rs1 =>
    refine manage_next_cases h fun q => ?_
    split
    · exact .inl (completed_doInvalidate s q.pa)
    · exact doFlush_cases s q.pa
  | cboClean rs1 => exact manage_next_cases h fun q => .inl (completed_doClean s q.pa)
  | cboFlush rs1 => exact manage_next_cases h fun q => doFlush_cases s q.pa
  | cboZero rs1 =>
    obtain ⟨q, -, rfl⟩ | ⟨e, rfl, -⟩ := cboZero_next h
    · exact .inl (zeroGroup_cases s _ _)
    · exact .inr ⟨e, rfl⟩
  | prefetchR rs1 level => exact hint_next_cases h
  | prefetchW rs1 level => exact hint_next_cases h
  | prefetchI rs1 level => exact hint_next_cases h

/-- A step of a CMO instruction that takes no exception makes no reservation (rule R115). -/
theorem mem_reservations_of_cases {r : Reservation} (h : Completed s t ∨ InProgress s t) (hr : r ∈ t.reservations) :
    r ∈ s.reservations :=
  h.elim (fun c => c.reservations r hr) fun p => p.reservations r hr

/-- The first step of a CMO instruction makes no reservation (rule R115). -/
theorem mem_reservations_of_exec {i : Instr} {r : Reservation} (h : exec i s = .next t) (hr : r ∈ t.reservations) :
    r ∈ s.reservations := by
  obtain h | ⟨e, rfl⟩ := exec_next_cases h
  · exact mem_reservations_of_cases h hr
  · exact State.mem_trap_reservations hr

/-! ### The obligations -/

/-- Settles O58: the three clauses are the three branches of the event, whose test speaks of the entries of the cache and
the statement of the keys found there. -/
theorem attributeChangeUnderCopyIsRefused : Obligations.AttributeChangeUnderCopyIsRefused := by
  intro s rs
  refine ⟨fun hfix => ?_, fun hfix hchg => ?_, fun hfix hsame => ?_⟩
  · simp [runEvent, hfix]
  · simp [runEvent, hfix, State.changesUnderCopy_iff.mpr hchg]
  · have hno : ¬ s.changesUnderCopy rs = true := fun hc => by
      obtain ⟨key, l, a, hl, ha, hne⟩ := State.changesUnderCopy_iff.mp hc
      exact hne (hsame key l a hl ha)
    simp [runEvent, hfix, hno]

/-- Settles O36: the two events of the hart write the reservations out, a store that happens filters them, and every step of
a CMO instruction completes, goes on or takes an exception, none of which makes one. -/
theorem loadReservations : Obligations.LoadReservations := by
  intro s o pa n v
  refine ⟨fun hp => ⟨⟨_, runEvent_reserve hp pa n, rfl, ⟨rfl, rfl, rfl, rfl, rfl, rfl⟩, fun r => ?_⟩,
      _, runEvent_unreserve hp, rfl, ⟨rfl, rfl, rfl, rfl, rfl, rfl⟩, fun r => mem_filter_hart_ne⟩, ?_, ?_, ?_⟩
  · rw [List.mem_cons, mem_filter_hart_ne]
  · intro t ht hne r
    obtain rfl := (State.storeEvent_next ht).resolve_left hne
    exact State.mem_observerStore_reservations_iff
  · exact fun i t h r hr => mem_reservations_of_exec h hr
  · exact fun p r hr => mem_reservations_of_cases (resume_cases s p) hr

end Sys2Proof.Machine
end

section
/-!
PROOFS. The statements of 20_memory.md: the caches' own moves Fill and Drop (spec rules R77, R104, R105), loads by an observer
and by the executing hart (rules R10, R101, R103, R107), and what the CMO instructions add to the global memory order (rules R99,
R100, R112).
-/

namespace Sys2Proof.Machine

variable {s t u : State} {o : ObserverId} {pa n : Nat}

/-! ### Fill and Drop (rules R77, R104, R105) -/

/-- When Fill is offered, spelled out. -/
theorem State.fillOffered_iff : s.fillOffered o pa = true ↔
    s.setCached (s.cset o pa) = true ∧ s.cfg.observes o pa = true ∧ s.attrs pa ≠ none ∧
      ∀ l, s.line o pa = some l → l.dirty = false := by
  unfold State.fillOffered
  cases s.line o pa <;> simp [State.exist, Option.isSome_iff_ne_none, and_assoc]

theorem State.memBlock_getD {k : Nat} (h : k < s.cfg.cbs) :
    (s.memBlock pa).getD k 0#8 = s.mem.read (s.blockBase pa + k) := Memory.readBytes_getD _ _ h

theorem State.drop_of_absent (h : s.line o pa = none) : s.drop o pa = s := by simp [State.drop, h]

theorem State.drop_of_dirty {l : Line} (h : s.line o pa = some l) (hd : l.dirty = true) : s.drop o pa = s := by
  simp [State.drop, h, hd]

theorem State.drop_of_clean {l : Line} (h : s.line o pa = some l) (hd : l.dirty = false) :
    s.drop o pa = (s.markDiffering o pa).dropLine o pa := by
  simp [State.drop, h, hd]

theorem State.get_fill_of_ne {key : CacheKey} (h : key ≠ s.keyOf o pa) :
    mapGet key (s.fill o pa).cache = mapGet key s.cache := by
  cases ho : s.fillOffered o pa with
  | false => rw [s.fill_of_not_offered o pa ho]
  | true => simpa [s.fill_of_offered o pa ho] using (s.markDiffering o pa).get_setLine_of_ne o pa _ (by simpa using h)

theorem State.get_drop_of_ne {key : CacheKey} (h : key ≠ s.keyOf o pa) :
    mapGet key (s.drop o pa).cache = mapGet key s.cache := by
  obtain hd | hd := s.drop_cases o pa <;> rw [hd]
  simpa using (s.markDiffering o pa).get_dropLine_of_ne o pa (by simpa using h)

/-! ### The bytes of a load (rules R101, R107) -/

theorem State.load_getD {k : Nat} (h : k < n) : (s.load o pa n).getD k 0#8 = s.loadByte o pa k := by
  simp [State.load, List.getD_eq_getElem?_getD, h]

/-- A byte that has been stored to since each invalidate or flush of it by the observer is not one whose load value is open. -/
theorem invalidatedSinceStore_eq_false {a : Nat} {l : List MemOp}
    (h : ∀ newer op older, l = newer ++ op :: older → op.base ≤ a ∧ a < op.base + op.size → op.observer = o →
      op.kind = .invalidate ∨ op.kind = .flush → ∃ st ∈ newer, st.kind = .store ∧ st.base ≤ a ∧ a < st.base + st.size) :
    invalidatedSinceStore o a l = false := by
  rw [← Bool.not_eq_true, invalidatedSinceStore_iff]
  rintro ⟨newer, op, older, hl, hc, ho, hk, hn⟩
  obtain ⟨st, hst, hs, hcov⟩ := h newer op older hl (of_decide_eq_true hc) ho hk
  exact hn st hst ⟨hs, decide_eq_true hcov⟩

/-! ### The outcomes of an access (rules R62, R92, R107) -/

/-- The observer may make an access of at least one byte exactly if it is offered. -/
theorem State.accessOffered_iff_of_pos (h : 0 < n) : s.accessOffered o pa n = true ↔
    s.between o = true ∧ ∀ k < n, s.cfg.observes o (pa + k) = true := by
  rw [State.accessOffered_iff]
  exact and_iff_right h.ne'

theorem State.onDevice_iff : s.onDevice pa n = true ↔ ∃ k < n, ∃ a, s.attrs (pa + k) = some a ∧ a.kind = .device := by
  simp [State.onDevice, Option.any_eq_true]

/-- An access that is offered, to bytes that exist and are no device's, happens. -/
theorem State.access_happens (ho : s.accessOffered o pa n = true) (hx : ∀ k < n, s.exist (pa + k) = true)
    (hd : s.onDevice pa n = false) (t : State) : s.access o pa n t = .next t := by
  have hall : (List.range n).all (fun k => s.exist (pa + k)) = true := by simpa using hx
  simp [State.access, ho, hall, hd]

/-- An access that is offered, to bytes of memory, happens. -/
theorem State.access_of_memory (ho : s.accessOffered o pa n = true)
    (hm : ∀ k < n, ∃ a, s.attrs (pa + k) = some a ∧ a.kind = .memory) (t : State) : s.access o pa n t = .next t := by
  refine State.access_happens ho (fun k hk => ?_) ?_ t
  · obtain ⟨a, ha, -⟩ := hm k hk
    simp [State.exist, ha]
  · rw [← Bool.not_eq_true, State.onDevice_iff]
    rintro ⟨k, hk, a, ha, hdev⟩
    obtain ⟨b, hb, hmem⟩ := hm k hk
    obtain rfl : a = b := Option.some.inj (ha.symm.trans hb)
    cases hmem.symm.trans hdev

/-- An access to a byte that no region of the address map holds is the fault (rule R92). -/
theorem State.access_of_absent (ho : s.accessOffered o pa n = true) (hx : ∃ k < n, s.attrs (pa + k) = none) (t : State) :
    s.access o pa n t = .fault .noSuchLocation := by
  have hall : (List.range n).all (fun k => s.exist (pa + k)) = false := by simpa [State.exist] using hx
  simp [State.access, ho, hall]

/-- An access to a byte of a device is the refusal (rule R92). -/
theorem State.access_of_device (ho : s.accessOffered o pa n = true) (hx : ∀ k < n, s.attrs (pa + k) ≠ none)
    (hd : ∃ k < n, ∃ a, s.attrs (pa + k) = some a ∧ a.kind = .device) (t : State) :
    s.access o pa n t = .refused .deviceLocation := by
  have hall : (List.range n).all (fun k => s.exist (pa + k)) = true := by
    simpa [State.exist, Option.isSome_iff_ne_none] using hx
  simp [State.access, ho, hall, State.onDevice_iff.mpr hd]

/-- Whether an access that is offered happens does not depend on what it does. -/
theorem State.access_next_of_offered (ho : s.accessOffered o pa n = true) (h : s.access o pa n t = .next u) :
    u = t ∧ ∀ t', s.access o pa n t' = .next t' := by
  obtain ⟨hn, -⟩ | ⟨-, hx, hd, rfl⟩ := State.access_next h
  · exact absurd ho (by simp [hn])
  · exact ⟨rfl, State.access_happens ho hx hd⟩

theorem State.goOn_schedule (left : Nat) (e : Event) :
    (s.goOn left e).schedule = if left = 0 then s.schedule else e :: s.schedule := by
  unfold State.goOn
  split <;> rfl

theorem State.inBlock_le (a : Nat) : s.inBlock a n ≤ n := Nat.min_le_left _ _

theorem State.inBlock_pos (a : Nat) (h : 0 < n) : 0 < s.inBlock a n :=
  Nat.lt_min.mpr ⟨h, Nat.sub_pos_of_lt (Nat.mod_lt a (Config.cbs_pos s.cfg))⟩

/-- An access whose bytes lie in one block leaves nothing to go on with. -/
theorem State.loadEvent_of_one_block (h : s.inBlock pa n = n) :
    s.loadEvent o pa n = s.access o pa n (s.observerLoad o pa n) := by
  simp [State.loadEvent, h]

/-! ### The executing hart's accesses (rule R10) -/

/-- Between its instructions the executing hart may access. -/
theorem State.between_self (h : s.hart.pending = none) : s.between s.self = true := by
  simp [State.between, State.hartOf, h]

theorem runEvent_memRead (h : s.hart.pending = none) (addr : Word) (n : Nat) :
    runEvent (.memRead addr n) s = s.memRead addr n := by
  simp [runEvent, State.byHostOut, h]

section Target

variable {kind : AccessKind} {va : Word} {k : Nat} {go : Nat → Nat → State} (hn : n ≠ 0) (hk : s.inBlock va.toNat n = k)
include hn hk

/-- An access whose checks pass is the access to the bytes of the first block at the address they give. -/
theorem State.hostAccess_of_pass (h : s.hostTarget kind va k = .pass pa) :
    s.hostAccess kind va n go = s.access s.self pa k (go pa k) := by
  simp [State.hostAccess, hn, hk, h]

/-- An access whose checks raise an exception takes it. -/
theorem State.hostAccess_of_raise {x : Exc} (h : s.hostTarget kind va k = .raise x) :
    s.hostAccess kind va n go = .next (s.trap x) := by
  simp [State.hostAccess, hn, hk, h]

end Target

/-- `MemRead` takes the exception that the checks of its first block raise. -/
theorem State.memRead_of_raise {addr : Word} {k : Nat} {x : Exc} (hn : n ≠ 0)
    (hva : s.inBlock (s.cfg.trunc addr).toNat n = k) (h : s.hostTarget .load (s.cfg.trunc addr) k = .raise x) :
    s.memRead addr n = .next (s.trap x) := by
  rw [State.memRead, State.hostAccess_of_raise hn hva h]

/-- `MemRead` of bytes that lie in one block before and after translation is a load by the executing hart. -/
theorem State.memRead_of_one_block {addr : Word} (hn : n ≠ 0) (hva : s.inBlock (s.cfg.trunc addr).toNat n = n)
    (hpa : s.inBlock pa n = n) (h : s.hostTarget .load (s.cfg.trunc addr) n = .pass pa) :
    s.memRead addr n = s.loadEvent s.self pa n := by
  rw [State.memRead, State.hostAccess_of_pass hn hva h, State.loadEvent_of_one_block hpa, Nat.sub_self, State.goOn_zero]

/-- `MemRead` that goes on past its first block is the load of that block's bytes, with the rest put at the head of the
schedule. -/
theorem State.memRead_across {addr : Word} {m : Nat} (hm : 0 < m) (hva : s.inBlock (s.cfg.trunc addr).toNat (n + m) = n)
    (hpa : s.inBlock pa n = n) (h : s.hostTarget .load (s.cfg.trunc addr) n = .pass pa)
    (ho : s.accessOffered s.self pa n = true) (hl : s.loadEvent s.self pa n = .next t) :
    s.memRead addr (n + m) =
      .next { t with schedule := .memRead (s.cfg.trunc addr + BitVec.ofNat 64 n) m :: t.schedule } := by
  rw [State.loadEvent_of_one_block hpa] at hl
  obtain ⟨rfl, happens⟩ := State.access_next_of_offered ho hl
  rw [State.memRead, State.hostAccess_of_pass (by omega) hva h, happens, Nat.add_sub_cancel_left,
    State.goOn_of_ne_zero _ _ (by omega)]

/-! ### What the instructions add to the global memory order (rules R99, R100, R112) -/

/-- The element that an operation on the block of `pa` by the executing hart adds: it accesses every byte of the block. -/
def State.blockOp (s : State) (kind : MemKind) (pa : Nat) : MemOp :=
  { observer := s.self, kind := kind, base := s.blockBase pa, size := s.cfg.cbs }

theorem State.doInvalidate_gmo (pa : Nat) : (s.doInvalidate pa).gmo = s.blockOp .invalidate pa :: s.gmo := by
  simp [State.doInvalidate, State.blockOp]

theorem State.doClean_gmo (pa : Nat) : (s.doClean pa).gmo = s.blockOp .clean pa :: s.gmo := by
  simp [State.doClean, State.blockOp]

/-- A flush that is not atomic adds its clean in the first step. -/
theorem State.doFlush_gmo (pa : Nat) :
    (s.doFlush pa).gmo = s.blockOp (if s.cfg.flushAtomic then .flush else .clean) pa :: s.gmo := by
  cases h : s.cfg.flushAtomic with
  | true => simp [doFlush_atomic h, State.blockOp]
  | false => simp [doFlush_split h, State.blockOp]

/-- What a management instruction that executes adds. -/
def AddsManagement (s t : State) (pa : Nat) : Prop :=
  ∃ kind : MemKind, kind.isManagement = true ∧ t.gmo = s.blockOp kind pa :: s.gmo

theorem addsManagement_doInvalidate (pa : Nat) : AddsManagement s (s.doInvalidate pa) pa :=
  ⟨.invalidate, rfl, State.doInvalidate_gmo pa⟩

theorem addsManagement_doClean (pa : Nat) : AddsManagement s (s.doClean pa) pa := ⟨.clean, rfl, State.doClean_gmo pa⟩

theorem addsManagement_doFlush (pa : Nat) : AddsManagement s (s.doFlush pa) pa :=
  ⟨_, by split <;> rfl, State.doFlush_gmo pa⟩

/-- A management instruction that passes every test adds one element over its block. -/
theorem exec_addsManagement {i : Instr} {rs1 : RegNum} {q : Checked}
    (h : (i = .cboInval rs1 ∧ MayManage s i .inval q) ∨ ((i = .cboClean rs1 ∨ i = .cboFlush rs1) ∧ MayManage s i .mgmt q)) :
    ∃ t, exec i s = .next t ∧ AddsManagement s t q.pa := by
  obtain ⟨rfl, hq⟩ | ⟨rfl | rfl, hq⟩ := h
  · refine ⟨_, manage_of_may _ hq, ?_⟩
    split
    · exact addsManagement_doInvalidate q.pa
    · exact addsManagement_doFlush q.pa
  · exact ⟨_, manage_of_may _ hq, addsManagement_doClean q.pa⟩
  · exact ⟨_, manage_of_may _ hq, addsManagement_doFlush q.pa⟩

/-- One group of byte stores adds one element for each of its bytes. -/
theorem State.zeroGroup_gmo (base : Nat) (offsets : List Nat) :
    (s.zeroGroup base offsets).gmo = ((zeroNow s.zeroPlan offsets).map fun k =>
      ({ observer := s.self, kind := .store, base := base + k, size := 1 } : MemOp)).reverse ++ s.gmo := by
  unfold State.zeroGroup
  dsimp only
  split <;> exact State.zeroBytes_gmo _ base _

@[simp] theorem State.hintAllocate_gmo (target : Option Nat) : (s.hintAllocate target).gmo = s.gmo := by
  unfold State.hintAllocate
  split
  · rfl
  · split <;> simp

/-! ### The obligations -/

/-- Settles O35: Fill's test is the statement's, each move's branch fixes the line of its block, and neither touches another. -/
theorem fillAndDropOfCleanCopies : Obligations.FillAndDropOfCleanCopies := by
  intro s o pa offered
  refine ⟨fun ho => ?_, fun ho => ?_, fun l hl hd => ?_, ?_⟩
  · have hline : (s.fill o pa).line o pa = some { data := s.memBlock pa, dirty := false } := by
      rw [s.fill_of_offered o pa (State.fillOffered_iff.mpr ho), State.line_setLine]
    exact ⟨_, _, rfl, hline, rfl, Memory.readBytes_length _ _ _, fun k hk => State.memBlock_getD hk, s.fill_mem o pa,
      s.fill_hart o pa, fun _ => State.get_fill_of_ne⟩
  · exact congrArg _ (s.fill_of_not_offered o pa (by rwa [← Bool.not_eq_true, State.fillOffered_iff]))
  · have hline : (s.drop o pa).line o pa = none := by rw [State.drop_of_clean hl hd, State.line_dropLine]
    exact ⟨_, rfl, hline, s.drop_mem o pa, s.drop_hart o pa, fun _ => State.get_drop_of_ne⟩
  · rintro (h | ⟨l, hl, hd⟩)
    · exact congrArg _ (State.drop_of_absent h)
    · exact congrArg _ (State.drop_of_dirty hl hd)

/-- Settles O52: each operation adds its own element or elements, and a hint instruction allocates or traps, which adds none. -/
theorem operationsInTheGlobalMemoryOrder : Obligations.OperationsInTheGlobalMemoryOrder := by
  intro s i rs1 q
  refine ⟨fun h => ?_, fun pa _ => State.doInvalidate_gmo pa, fun h => ?_, fun hi t ht => ?_⟩
  · obtain ⟨t, ht, kind, hk, hg⟩ := exec_addsManagement h
    exact ⟨t, _, ht, hg, rfl, rfl, rfl, hk, by simp [MemKind.storeLike, State.blockOp, hk]⟩
  · refine ⟨_, _, cboZero_of_may h, State.zeroGroup_gmo _ _, fun op hop => ?_, fun hplan => ?_⟩
    · obtain ⟨k, hk, rfl⟩ := List.mem_map.mp (List.mem_reverse.mp hop)
      exact ⟨k, List.mem_range.mp (mem_of_mem_zeroNow hk), rfl⟩
    · have hnow : zeroNow s.zeroPlan (List.range s.cfg.cbs) = List.range s.cfg.cbs := by rw [hplan]; rfl
      rw [hnow]
      exact ⟨by simp, fun j hj => List.mem_reverse.mpr (List.mem_map.mpr ⟨j, List.mem_range.mpr hj, rfl⟩)⟩
  · rw [exec_hint hi] at ht
    obtain ⟨target, -, rfl⟩ | ⟨e, rfl, -⟩ := hint_next ht
    · exact State.hintAllocate_gmo target
    · rfl

/-- Settles O38: the load's outcome is that of one access to the bytes of the first block, and `MemRead` is that access at the
address its checks give. -/
theorem loadReturnsTheView : Obligations.LoadReturnsTheView := by
  intro s o pa n hn j may covers settled
  have offered_iff : s.accessOffered o pa j = true ↔ may := State.accessOffered_iff_of_pos (State.inBlock_pos pa hn)
  refine ⟨fun hmay hmem => ?_, fun hmay => ?_, fun hmay => ?_, fun hmay => ?_, fun addr hp hnj hle => ?_⟩
  · refine ⟨(s.observerLoad o pa j).goOn (n - j) (.load o (pa + j) (n - j)), s.load o pa j,
      State.access_of_memory (offered_iff.mpr hmay) hmem _, by simp, by simp [State.load], fun k hk h => ?_, fun k => rfl,
      by simp, by simp, by simp, by simp, ?_⟩
    · rw [State.load_getD hk]
      exact State.loadByte_eq_view (h.imp_right invalidatedSinceStore_eq_false)
    · have hj : j ≤ n := State.inBlock_le pa
      rw [State.goOn_schedule]
      exact if_congr (by omega) rfl rfl
  · exact State.access_of_not_offered (Bool.eq_false_iff.mpr (offered_iff.not.mpr hmay)) _
  · exact fun hx => State.access_of_absent (offered_iff.mpr hmay) hx _
  · exact fun hx hd => State.access_of_device (offered_iff.mpr hmay) hx hd _
  · have hpa : s.inBlock pa n = n := hnj.symm
    have hva : s.inBlock (s.cfg.trunc addr).toNat n = n := Nat.min_eq_left hle
    simp only [runEvent_memRead hp]
    refine ⟨State.memRead_of_one_block (by omega) hva hpa, fun x => State.memRead_of_raise (by omega) hva,
      fun hend m hm => ?_, rfl⟩
    have hva' : s.inBlock (s.cfg.trunc addr).toNat (n + m) = n := by
      rw [State.inBlock, ← hend]
      exact Nat.min_eq_right (Nat.le_add_right n m)
    refine ⟨fun hpass hobs t ht => ?_, fun x => State.memRead_of_raise (by omega) hva'⟩
    have ho : s.accessOffered s.self pa n = true :=
      (State.accessOffered_iff_of_pos hn).mpr ⟨State.between_self hp, hobs⟩
    exact State.memRead_across hm hva' hpa hpass ho ht

end Sys2Proof.Machine
end

section
/-!
PROOFS. The statement of 42_cbo_hint.md: a hint instruction completes in every mode, whether its address passes or not (spec
rules R116, R162, R165, R180, R193).
-/

namespace Sys2Proof.Machine

variable {s : State} {pa : Nat}

/-! ### The optional allocation (rules R104, R162) -/

/-- Completing an instruction touches neither memory nor what the caches hold and choose. -/
theorem sameMemory_retire (s : State) : SameMemory s s.retire := ⟨rfl, rfl, rfl, rfl, rfl, rfl⟩

@[simp] theorem State.hintAllocate_mem (target : Option Nat) : (s.hintAllocate target).mem = s.mem := by
  unfold State.hintAllocate
  split
  · rfl
  · split <;> simp

/-- Where the checks pass, either the caches choose to allocate and take the Fill that is offered, or they keep what they hold. -/
theorem State.hintAllocate_cases (s : State) (pa : Nat) :
    (∃ rest, s.hintFills = true :: rest ∧
      s.hintAllocate (some pa) = { s with hintFills := rest }.fill s.self pa) ∨
    (s.hintAllocate (some pa)).cache = s.cache := by
  simp only [State.hintAllocate]
  split
  · exact .inr rfl
  · rename_i rest hf
    exact .inl ⟨rest, hf, rfl⟩
  · exact .inr rfl

/-- The allocation changes the line of its own block alone. -/
theorem State.get_hintAllocate_of_ne {key : CacheKey} (h : key ≠ s.keyOf s.self pa) :
    mapGet key (s.hintAllocate (some pa)).cache = mapGet key s.cache := by
  obtain ⟨rest, -, hfill⟩ | hsame := s.hintAllocate_cases pa
  · rw [hfill]
    exact State.get_fill_of_ne (s := { s with hintFills := rest }) h
  · rw [hsame]

/-- No line changes where the caches choose nothing, choose not to allocate, or are offered no Fill. -/
theorem State.hintAllocate_cache_of_no_fill
    (h : s.hintFills = [] ∨ s.hintFills.head? = some false ∨ s.fillOffered s.self pa = false) :
    (s.hintAllocate (some pa)).cache = s.cache := by
  obtain ⟨rest, hchoose, hfill⟩ | hsame := s.hintAllocate_cases pa
  · have hoff : s.fillOffered s.self pa = false := by simpa [hchoose] using h
    rw [hfill, State.fill_of_not_offered { s with hintFills := rest } s.self pa hoff]
  · exact hsame

/-! ### A hint instruction that no trigger stops (rules R162, R180, R193) -/

/-- What the checks answer decides the step: the optional allocation, and the end of the instruction either way. -/
theorem exec_hint_of_target {i : Instr} {target : Option Nat} (hi : i.isHint = true)
    (htr : s.accessTriggers (.hint s.cfg) (s.effAddr i.rs1) = .pass ())
    (ht : s.hintTarget (s.effAddr i.rs1) = .pass target) :
    exec i s = .next (s.hintAllocate target).retire := by
  rw [exec_hint hi, hint_of_no_trigger htr, ht, checked_pass]

/-- Settles O49: the checks answer no address or the block's, the instruction completes with the optional allocation of that
answer, and the allocation is at most a Fill of that block, which changes no byte of memory and no fetch. -/
theorem hintsCompleteWithoutFaulting : Obligations.HintsCompleteWithoutFaulting := by
  intro s i hi va htr
  refine ⟨fun hno => ?_, fun pa hst hpma hper => ?_⟩
  · have hex := exec_hint_of_target hi htr (hintTarget_of_not_permitted hno)
    exact ⟨_, hex, (quiet_hintAllocate s none).completed, sameMemory_retire s, fun a => by simp⟩
  · have hex := exec_hint_of_target hi htr (hintTarget_of_permitted hst hpma hper)
    exact ⟨_, hex, (quiet_hintAllocate s (some pa)).completed, s.hintAllocate_mem _, s.hintAllocate_gmo _, fun a => by simp,
      fun _ => State.get_hintAllocate_of_ne, State.hintAllocate_cache_of_no_fill⟩

end Sys2Proof.Machine
end

section
/-!
PROOFS. The statements of 60_exceptions.md: which exceptions each instruction takes (spec rules R173 to R175, R189, R192, R202), and
the traps and the operation of `CBO.INVAL` (rules R184, R187, R188).
-/

namespace Sys2Proof.Machine

variable {s t : State}

/-! ### What an instruction can do (rules R141, R150, R162, R202) -/

/-- What the three management instructions have in common: each is `manage` with its class of checks and an operation that
completes or goes on. -/
theorem exec_management {i : Instr} {rs1 : RegNum} (h : i = .cboInval rs1 ∨ i = .cboClean rs1 ∨ i = .cboFlush rs1) :
    i.rs1 = rs1 ∧ i.isHint = false ∧ ∃ op, (∀ q, Completed s (op q) ∨ InProgress s (op q)) ∧
      exec i s = s.manage i (if i = .cboInval rs1 then .inval else .mgmt) op := by
  obtain rfl | rfl | rfl := h
  · refine ⟨rfl, rfl, _, fun q => ?_, by rw [if_pos rfl]; rfl⟩
    split
    · exact .inl (completed_doInvalidate s q.pa)
    · exact doFlush_cases s q.pa
  · exact ⟨rfl, rfl, _, fun q => .inl (completed_doClean s q.pa), by rw [if_neg (by simp)]; rfl⟩
  · exact ⟨rfl, rfl, _, fun q => doFlush_cases s q.pa, by rw [if_neg (by simp)]; rfl⟩

/-- The exceptions of a management or write instruction are those of rule R202's table. -/
theorem raises_of_not_hint {c : Config} {i : Instr} {x : Cause} (hi : i.isHint = false)
    (h : x = .illegalInstruction ∨ x = .breakpoint ∨ x = .storeAmoPageFault ∨ x = .storeAmoGuestPageFault ∨
      x = .storeAmoAccessFault) : raises c i x = true := by
  simpa [raises, hi, or_assoc] using h

/-- No instruction's row of rule R202's table holds an address misaligned or a virtual instruction exception (rules R175, R192). -/
theorem ne_misaligned_of_raises {c : Config} {i : Instr} {x : Cause} (h : raises c i x = true) :
    x ≠ .storeAmoAddrMisaligned ∧ x ≠ .loadAddrMisaligned ∧ x ≠ .instrAddrMisaligned ∧ x ≠ .virtualInstruction := by
  refine ⟨?_, ?_, ?_, ?_⟩ <;> rintro rfl <;> simp [raises] at h

theorem management_next_raises {i : Instr} {rs1 : RegNum} (hi : i = .cboInval rs1 ∨ i = .cboClean rs1 ∨ i = .cboFlush rs1)
    (h : exec i s = .next t) :
    (Completed s t ∨ InProgress s t) ∨ ∃ e, t = s.trap e ∧ raises s.cfg i e.cause = true := by
  obtain ⟨-, hnh, op, hop, hex⟩ := exec_management (s := s) hi
  obtain ⟨q, -, rfl⟩ | ⟨e, rfl, he⟩ := manage_next (hex ▸ h)
  · exact .inl (hop q)
  · exact .inr ⟨e, rfl, raises_of_not_hint hnh he⟩

/-- A hint completes, or takes the breakpoint exception where `HintIsLoadStore` holds. -/
theorem hint_next_raises {i : Instr} (hi : i.isHint = true) (h : exec i s = .next t) :
    Completed s t ∨ ∃ e, t = s.trap e ∧ raises s.cfg i e.cause = true := by
  rw [exec_hint hi] at h
  obtain ⟨target, -, rfl⟩ | ⟨e, rfl, hbp, hls⟩ := hint_next h
  · exact .inl (quiet_hintAllocate s target).completed
  · exact .inr ⟨e, rfl, by simp [raises, hi, hbp, hls]⟩

/-- Everything the first step of a CMO instruction can do: it completes, or goes on, or takes an exception of its row of rule
R202's table. -/
theorem exec_next_raises {i : Instr} (h : exec i s = .next t) :
    (Completed s t ∨ InProgress s t) ∨ ∃ e, t = s.trap e ∧ raises s.cfg i e.cause = true := by
  cases i with
  | cboInval rs1 => exact management_next_raises (.inl rfl) h
  | cboClean rs1 => exact management_next_raises (.inr (.inl rfl)) h
  | cboFlush rs1 => exact management_next_raises (.inr (.inr rfl)) h
  | cboZero rs1 =>
    obtain ⟨q, -, rfl⟩ | ⟨e, rfl, he⟩ := cboZero_next h
    · exact .inl (zeroGroup_cases s _ _)
    · exact .inr ⟨e, rfl, raises_of_not_hint rfl he⟩
  | prefetchR rs1 level => exact (hint_next_raises rfl h).imp_left .inl
  | prefetchW rs1 level => exact (hint_next_raises rfl h).imp_left .inl
  | prefetchI rs1 level => exact (hint_next_raises rfl h).imp_left .inl

/-- Settles O26: the inversion of a first step gives the exception's place in the table, and taking it touches no memory. -/
theorem exceptionsOfEachInstruction : Obligations.ExceptionsOfEachInstruction := by
  intro i s t h
  obtain (hc | hp) | ⟨e, rfl, he⟩ := exec_next_raises h
  · exact .inl hc
  · exact .inr (.inl hp)
  · exact .inr (.inr ⟨e, rfl, he, sameMemory_trap s e, ne_misaligned_of_raises he⟩)

/-! ### Illegal instruction (rules R173, R174) -/

theorem manage_of_illegal {i : Instr} {k : OpClass} (op : Checked → State) (h : illegalMgmt s.hart.cmo s.hart.mode = true) :
    s.manage i k op = .next (s.trap (s.illegal i)) := by
  simp [State.manage, h]

theorem cboZero_of_illegal {rs1 : RegNum} (h : illegalWrite s.hart.cmo s.hart.mode = true) :
    exec (.cboZero rs1) s = .next (s.trap (s.illegal (.cboZero rs1))) := by
  simp [exec, execCboZero, h]

/-- Settles O14: the statement's five rows are those of `IllegalMgmt`, the first test of a management instruction. -/
theorem managementIllegalInstructionByMode : Obligations.ManagementIllegalInstructionByMode := by
  intro s i rs1 hi enabled c forbidden
  have illegal_iff : illegalMgmt c s.hart.mode = true ↔ forbidden := by
    simp only [forbidden, enabled]
    cases s.hart.mode <;> simp [illegalMgmt, cbme, or_assoc]
  obtain ⟨rfl, -, op, hop, hex⟩ := exec_management (s := s) hi
  rw [hex]
  refine ⟨fun hf => ⟨manage_of_illegal op (illegal_iff.mpr hf), rfl⟩, ?_⟩
  rintro hf k q rfl htr hq
  exact ⟨op q, manage_of_may op ⟨Bool.eq_false_iff.mpr (illegal_iff.not.mpr hf), htr, hq⟩, hop q⟩

/-- Settles O15: the statement's five rows are those of `IllegalWrite`, the first test of `CBO.ZERO`. -/
theorem writeIllegalInstructionByMode : Obligations.WriteIllegalInstructionByMode := by
  intro s rs1 enabled c forbidden
  have illegal_iff : illegalWrite c s.hart.mode = true ↔ forbidden := by
    simp only [forbidden, enabled]
    cases s.hart.mode <;> simp [illegalWrite, cbwe, or_assoc]
  refine ⟨fun hf => ⟨cboZero_of_illegal (illegal_iff.mpr hf), rfl⟩, fun hf q htr hq => ?_⟩
  exact ⟨_, cboZero_of_may ⟨Bool.eq_false_iff.mpr (illegal_iff.not.mpr hf), htr, hq⟩, zeroGroup_cases s _ _⟩

/-! ### The stages of a translation and their registers (rules R27, R84) -/

section Stages

variable {c : HostCsrs} {va gpa pa : Nat} {m : Mode} {s1 g : Option Pte} {tab : PageTable}

theorem stageOn_some_eq_none : stageOn (some tab) = none ↔ tab.bare = true := by
  rw [stageOn_some]; cases tab.bare <;> simp

/-- The first stage of a translation is on exactly if its register is not `Bare`. -/
theorem firstStage_isSome (h : translateVa c va m = .mapped s1 g gpa pa) (ht : firstStage c m = some tab) :
    s1.isSome = !tab.bare := by
  have hoff := (translateVa_mapped h).1
  rw [ht, stageOn_some_eq_none] at hoff
  cases s1 <;> simp_all

/-- The G-stage likewise, after a first stage that ended at a valid leaf or is off. -/
theorem gStage_isSome (h : translateVa c va m = .mapped s1 g gpa pa) (hv : ∀ p, s1 = some p → p.v = true)
    (hm : m.virt = true) : g.isSome = !c.hgatp.bare := by
  have hoff := (translateVa_mapped h).2 hv
  rw [show gStage c m = some c.hgatp by simp [gStage, hm], stageOn_some_eq_none] at hoff
  cases g <;> simp_all

/-- Outside VS and VU there is no G-stage. -/
theorem gStage_eq_none (h : translateVa c va m = .mapped s1 g gpa pa) (hv : ∀ p, s1 = some p → p.v = true)
    (hm : m.virt = false) : g = none :=
  ((translateVa_mapped h).2 hv).mpr (by simp [gStage, hm])

end Stages

/-! ### `CBO.INVAL` (rules R184, R187, R188) -/

/-- A management instruction takes the exception that its address checks raise. -/
theorem manage_of_raise {i : Instr} {k : OpClass} (op : Checked → State) {e : Exc}
    (hl : illegalMgmt s.hart.cmo s.hart.mode = false) (htr : s.accessTriggers .mgmt (s.effAddr i.rs1) = .pass ())
    (h : s.checkAddr k (s.effAddr i.rs1) = .raise e) : s.manage i k op = .next (s.trap e) := by
  simp [State.manage, hl, htr, h]

section Inval

variable {rs1 : RegNum} {s1 g : Option Pte} {gpa pa : Nat} {va : Nat} {m : Mode} {first second third : Bool}

/-- What `CBO.INVAL` does at an address that is mapped to a block which meets the PMA constraints, by the answers of the two
stages and of the physical memory protections: the first that does not allow the access decides (rules R184, R199). -/
theorem cboInval_of_mapped (hl : illegalMgmt s.hart.cmo s.hart.mode = false)
    (htr : s.accessTriggers .mgmt (s.effAddr rs1) = .pass ())
    (hmap : translateVa s.hart.csr (s.effAddr rs1).toNat s.effMode = .mapped s1 g gpa pa)
    (hp : s.pmaConstraintsMet pa = true) (h1 : s.firstStageOk .inval s.effMode s1 = first)
    (h2 : s.gStageOk .inval g = second) (h3 : s.jointOk .inval s.effMode pa = third) :
    (first = false → exec (.cboInval rs1) s = .next (s.trap (pageFaultOn (s.effAddr rs1)))) ∧
    (first = true → second = false → exec (.cboInval rs1) s = .next (s.trap (guestPageFaultOn (s.effAddr rs1) gpa))) ∧
    (first = true → second = true → third = false →
      exec (.cboInval rs1) s = .next (s.trap (accessFaultOn (s.effAddr rs1)))) ∧
    (first = true → second = true → third = true →
      ∃ t, exec (.cboInval rs1) s = .next t ∧ (Completed s t ∨ InProgress s t)) := by
  obtain ⟨-, -, op, hop, hex⟩ := exec_management (s := s) (i := .cboInval rs1) (.inl rfl)
  rw [if_pos rfl] at hex
  rw [hex]
  refine ⟨?_, ?_, ?_, ?_⟩ <;> rintro rfl
  · exact manage_of_raise op hl htr (by simp [Instr.rs1, State.checkAddr, hmap, h1])
  · rintro rfl
    exact manage_of_raise op hl htr (by simp [Instr.rs1, State.checkAddr, hmap, h1, h2])
  · rintro rfl rfl
    exact manage_of_raise op hl htr (by simp [Instr.rs1, State.checkAddr, hmap, hp, h1, h2, h3])
  · rintro rfl rfl
    have hq : s.checkAddr .inval (s.effAddr rs1) = .pass { pa := pa, s1 := s1, g := g, wm := s.anyJointW s.effMode pa } := by
      simp [State.checkAddr, hmap, hp, h1, h2, h3]
    exact ⟨_, manage_of_may op ⟨hl, htr, hq⟩, hop _⟩

/-- In effective U-mode and VU-mode `CBO.INVAL` asks `INVWxE` of the register `r` in the first stage, unless that stage is off. -/
theorem firstStageOk_inval_of_register {r : Word} {tab : PageTable} (h : s.firstStageOk .mgmt m s1 = true)
    (hmap : translateVa s.hart.csr va m = .mapped s1 g gpa pa) (ht : firstStage s.hart.csr m = some tab)
    (hr : ∀ p, firstStageInvalOk s.hart.cmo m p = invwE r p.w) :
    s.firstStageOk .inval m s1 = (invwE r (stageW s1) || tab.bare) := by
  have hon := firstStage_isSome hmap ht
  cases s1 with
  | none => simp_all [State.firstStageOk]
  | some p =>
    have hp : s1OkRX s.hart.csr p m = true := h
    simp_all [State.firstStageOk, stageW]

/-- In the other modes it asks of the first stage what the others ask. -/
theorem firstStageOk_inval_of_not_user (h : s.firstStageOk .mgmt m s1 = true)
    (hr : ∀ p, firstStageInvalOk s.hart.cmo m p = true) : s.firstStageOk .inval m s1 = true := by
  cases s1 with
  | none => rfl
  | some p =>
    have hp : s1OkRX s.hart.csr p m = true := h
    simp [State.firstStageOk, hp, hr]

/-- In effective VS-mode and VU-mode it asks `INVWxE` of `hcmocontrol` in the G-stage, unless that stage is off. -/
theorem gStageOk_inval_of_virt (h : s.gStageOk .mgmt g = true) (hv : ∀ p, s1 = some p → p.v = true)
    (hmap : translateVa s.hart.csr va m = .mapped s1 g gpa pa) (hm : m.virt = true) :
    s.gStageOk .inval g = (invwE s.hart.cmo.hcmocontrol (stageW g) || s.hart.csr.hgatp.bare) := by
  have hon := gStage_isSome hmap hv hm
  cases g with
  | none => simp_all [State.gStageOk]
  | some p =>
    have hp : gOkRX p = true := h
    simp_all [State.gStageOk, stageW]

/-- In the other modes there is no G-stage to ask. -/
theorem gStageOk_inval_of_not_virt (hv : ∀ p, s1 = some p → p.v = true)
    (hmap : translateVa s.hart.csr va m = .mapped s1 g gpa pa) (hm : m.virt = false) : s.gStageOk .inval g = true := by
  rw [gStage_eq_none hmap hv hm]; rfl

/-- Of the physical memory protections it asks `INVWxE` of `mcmocontrol`, except in effective M-mode. -/
theorem jointOk_inval (h : s.allJointRX m pa = true) :
    s.jointOk .inval m pa = (m == .M || invwE s.hart.cmo.mcmocontrol (s.anyJointW m pa)) := by
  simp [State.jointOk, h]

end Inval

/-- Settles O18: in each mode the registers asked in the first stage, in the G-stage and of the physical memory protections are
the statement's, and the first of them that forbids gives the exception. -/
theorem invalTrapsByEffectiveMode : Obligations.InvalTrapsByEffectiveMode := by
  intro s rs1 s1 g gpa pa va e c m su h vu pageFault guestPageFault accessFault goesOn hl htr hmap h1 h2 hp hrx
  have outcome {a b c : Bool} := cboInval_of_mapped (first := a) (second := b) (third := c) hl htr hmap hp
  have hv := valid_of_firstStageOk h1
  have joint : s.jointOk .inval s.effMode pa = (s.effMode == .M || m) := jointOk_inval hrx
  generalize s.effMode = mode at h1 hmap joint outcome ⊢
  have two_stages (hm : mode.virt = true) : s.gStageOk .inval g = h := gStageOk_inval_of_virt h2 hv hmap hm
  have one_stage (hm : mode.virt = false) := gStageOk_inval_of_not_virt hv hmap hm
  cases mode with
  | M =>
    obtain ⟨-, -, -, goes⟩ := outcome (firstStageOk_inval_of_not_user h1 fun _ => rfl) (one_stage rfl) joint
    exact goes rfl rfl rfl
  | S =>
    obtain ⟨-, -, access, goes⟩ := outcome (firstStageOk_inval_of_not_user h1 fun _ => rfl) (one_stage rfl) joint
    exact ⟨access rfl rfl, goes rfl rfl⟩
  | U =>
    obtain ⟨page, -, access, goes⟩ :=
      outcome (firstStageOk_inval_of_register h1 hmap rfl fun _ => rfl) (one_stage rfl) joint
    exact ⟨page, (access · rfl), (goes · rfl)⟩
  | VS =>
    obtain ⟨-, guest, access, goes⟩ :=
      outcome (firstStageOk_inval_of_not_user h1 fun _ => rfl) (two_stages rfl) joint
    exact ⟨guest rfl, access rfl, goes rfl⟩
  | VU =>
    exact outcome (firstStageOk_inval_of_register h1 hmap rfl fun _ => rfl) (two_stages rfl) joint

/-- Settles O19: in each mode the statement's `INVWxI` values are those that `PerformsInvalidate` reads, a stage's mechanism being
enabled exactly if its register is not `Bare`. -/
theorem invalOperationByEffectiveMode : Obligations.InvalOperationByEffectiveMode := by
  intro s rs1 q hq v c m su h vu invalidates
  obtain ⟨gpa, hmap, h1, -, -, -, hwm⟩ := checkAddr_pass hq.address
  have hv := valid_of_firstStageOk h1
  have hex : exec (.cboInval rs1) s =
      .next (if performsInvalidate c s.effMode q.s1 q.g q.wm then s.doInvalidate q.pa else s.doFlush q.pa) := manage_of_may _ hq
  have same : performsInvalidate c s.effMode q.s1 q.g q.wm = invalidates := by
    have hm : invwI c.mcmocontrol true q.wm = m := by rw [hwm]; rfl
    simp only [invalidates]
    generalize s.effMode = mode at hmap ⊢
    have hh (hvirt : mode.virt = true) : invwI c.hcmocontrol q.g.isSome (stageW q.g) = h := by
      rw [gStage_isSome hmap hv hvirt]; rfl
    have hs (r : Word) {tab : PageTable} (ht : firstStage s.hart.csr mode = some tab) :
        invwI r q.s1.isSome (stageW q.s1) = v r (!tab.bare) (stageW q.s1) := by
      rw [firstStage_isSome hmap ht]; rfl
    cases mode with
    | M => rfl
    | S => exact hm
    | U => exact congrArg₂ and (hs _ rfl) hm
    | VS => exact congrArg₂ and (hh rfl) hm
    | VU => exact congrArg₂ and (congrArg₂ and (hs _ rfl) (hh rfl)) hm
  rw [hex, same]

end Sys2Proof.Machine
end

section
/-!
PROOFS. The statements of 60_exceptions.md about what has no effect: the `MXR` bits on any CMO instruction (spec rule R181) and the
four control registers on a hint instruction (rule R172). Both change a part of the hart that the instruction neither reads nor
writes: `Hart.Unseen` says what that asks of the change, and every operation of an instruction commutes with such a change.
-/

namespace Sys2Proof.Machine

variable {s : State}

/-! ### Changing the executing hart -/

/-- The state with its executing hart changed. -/
def State.mapHart (f : Hart → Hart) (s : State) : State := s.withHart (f s.hart)

/-- What an instruction writes of the hart, when it completes, goes on or takes an exception, is not what `f` changes, nor does it
depend on that. -/
structure Hart.Unseen (f : Hart → Hart) : Prop where
  retire  : ∀ (c : Config) (h : Hart),
    { f h with pc := c.trunc ((f h).pc + 4#64), pending := none } = f { h with pc := c.trunc (h.pc + 4#64), pending := none }
  suspend : ∀ (h : Hart) (p : Pending), { f h with pending := some p } = f { h with pending := some p }
  trap    : ∀ (c : Config) (n : Nat) (h : Hart) (e : Exc), trapHart c n (f h) e = f (trapHart c n h e)

/-! ### The operations of the caches read nothing of the hart (rules R102 to R112) -/

section Caches

variable (f : Hart → Hart) (o : ObserverId) (pa : Nat)

theorem State.line_mapHart : (s.mapHart f).line = s.line := State.line_congr rfl rfl rfl

theorem State.markDiffering_mapHart : (s.mapHart f).markDiffering o pa = (s.markDiffering o pa).mapHart f := by
  unfold State.markDiffering
  rw [State.line_mapHart]
  cases s.line o pa <;> rfl

theorem State.setLine_mapHart (l : Line) : (s.mapHart f).setLine o pa l = (s.setLine o pa l).mapHart f := rfl

theorem State.dropLine_mapHart : (s.mapHart f).dropLine o pa = (s.dropLine o pa).mapHart f := rfl

theorem State.recordBlock_mapHart (k : MemKind) : (s.mapHart f).recordBlock k pa = (s.recordBlock k pa).mapHart f := rfl

theorem State.invalidate_mapHart : (s.mapHart f).invalidate o pa = (s.invalidate o pa).mapHart f := by
  unfold State.invalidate
  rw [State.markDiffering_mapHart, State.dropLine_mapHart]

theorem State.clean_mapHart : (s.mapHart f).clean o pa = (s.clean o pa).mapHart f := by
  unfold State.clean State.writeDirty
  rw [State.line_mapHart, State.markDiffering_mapHart]
  cases s.line o pa with
  | none => rfl
  | some l => dsimp only; split <;> rfl

theorem State.fill_mapHart : (s.mapHart f).fill o pa = (s.fill o pa).mapHart f := by
  have offered : (s.mapHart f).fillOffered o pa = s.fillOffered o pa := by
    unfold State.fillOffered
    rw [State.line_mapHart]
    rfl
  unfold State.fill
  rw [offered, State.markDiffering_mapHart, State.setLine_mapHart]
  split <;> rfl

theorem State.observerStore_mapHart (v : List Byte) :
    (s.mapHart f).observerStore o pa v = (s.observerStore o pa v).mapHart f := by
  unfold State.observerStore State.store
  rw [State.line_mapHart]
  cases s.line o pa <;> rfl

theorem State.zeroBytes_mapHart (base : Nat) (ks : List Nat) :
    (s.mapHart f).zeroBytes base ks = (s.zeroBytes base ks).mapHart f := by
  induction ks generalizing s with
  | nil => rfl
  | cons k ks ih =>
    unfold State.zeroBytes
    rw [State.observerStore_mapHart, ih]
    rfl

theorem State.hintAllocate_mapHart (target : Option Nat) :
    (s.mapHart f).hintAllocate target = (s.hintAllocate target).mapHart f := by
  cases target with
  | none => rfl
  | some pa =>
    have fills : (s.mapHart f).hintFills = s.hintFills := rfl
    unfold State.hintAllocate
    dsimp only
    rw [fills]
    rcases s.hintFills with _ | ⟨_ | _, rest⟩
    · rfl
    · rfl
    · exact State.fill_mapHart (s := { s with hintFills := rest }) ..

end Caches

/-! ### An instruction's operation and its end commute with a change it does not see -/

/-- What the three ends of an instruction's step have in common: the hart is as the end says, a reservation may or may not
survive, and the counter of free values is one further. -/
def State.stepEnd (s : State) (h : Hart) : State :=
  { s with hart := h, reservations := s.reservationsKept, free := s.free + 1 }

theorem State.retire_eq : s.retire = s.stepEnd { s.hart with pc := s.cfg.trunc (s.hart.pc + 4#64), pending := none } := rfl

theorem State.suspend_eq (p : Pending) : s.suspend p = s.stepEnd { s.hart with pending := some p } := rfl

theorem State.trap_eq (e : Exc) : s.trap e = s.stepEnd (trapHart s.cfg s.free s.hart e) := rfl

section Unseen

variable {f : Hart → Hart} (hf : Hart.Unseen f)
include hf

theorem State.retire_mapHart : (s.mapHart f).retire = s.retire.mapHart f := by
  rw [State.retire_eq, State.retire_eq]
  exact congrArg s.stepEnd (hf.retire s.cfg s.hart)

theorem State.suspend_mapHart (p : Pending) : (s.mapHart f).suspend p = (s.suspend p).mapHart f := by
  rw [State.suspend_eq, State.suspend_eq]
  exact congrArg s.stepEnd (hf.suspend s.hart p)

theorem State.trap_mapHart (e : Exc) : (s.mapHart f).trap e = (s.trap e).mapHart f := by
  rw [State.trap_eq, State.trap_eq]
  exact congrArg s.stepEnd (hf.trap s.cfg s.free s.hart e)

theorem doInvalidate_mapHart (pa : Nat) : (s.mapHart f).doInvalidate pa = (s.doInvalidate pa).mapHart f := by
  unfold State.doInvalidate
  rw [State.invalidate_mapHart, State.recordBlock_mapHart, State.retire_mapHart hf]
  rfl

theorem doClean_mapHart (pa : Nat) : (s.mapHart f).doClean pa = (s.doClean pa).mapHart f := by
  unfold State.doClean
  rw [State.clean_mapHart, State.recordBlock_mapHart, State.retire_mapHart hf]
  rfl

theorem doFlush_mapHart (pa : Nat) : (s.mapHart f).doFlush pa = (s.doFlush pa).mapHart f := by
  unfold State.doFlush
  dsimp only
  rw [State.clean_mapHart, State.recordBlock_mapHart, State.recordBlock_mapHart, State.invalidate_mapHart,
    State.retire_mapHart hf, State.suspend_mapHart hf]
  exact (apply_ite (State.mapHart f) _ _ _).symm

theorem State.zeroGroup_mapHart (base : Nat) (offsets : List Nat) :
    (s.mapHart f).zeroGroup base offsets = (s.zeroGroup base offsets).mapHart f := by
  unfold State.zeroGroup
  dsimp only
  rw [show ({ s.mapHart f with zeroPlan := (s.mapHart f).zeroPlan.tail } : State) =
      { s with zeroPlan := s.zeroPlan.tail }.mapHart f from rfl, State.zeroBytes_mapHart, State.retire_mapHart hf,
    State.suspend_mapHart hf]
  exact (apply_ite (State.mapHart f) _ _ _).symm

/-- A check that answers alike, and then a rest that commutes. -/
theorem checked_mapHart {α : Type} {c : Check α} {k k' : α → Out} (hk : ∀ a, k' a = mapNext (State.mapHart f) (k a)) :
    (s.mapHart f).checked c k' = mapNext (State.mapHart f) (s.checked c k) := by
  cases c with
  | pass a => exact hk a
  | raise e => exact congrArg _ (State.trap_mapHart hf e)
  | refuse r => rfl

/-- A management instruction does not see the change if its tests do not. -/
theorem manage_mapHart {i : Instr} {k : OpClass} {op op' : Checked → State}
    (hx : (s.mapHart f).effAddr i.rs1 = s.effAddr i.rs1)
    (hill : illegalMgmt (s.mapHart f).hart.cmo (s.mapHart f).hart.mode = illegalMgmt s.hart.cmo s.hart.mode)
    (htr : (s.mapHart f).accessTriggers = s.accessTriggers) (hca : (s.mapHart f).checkAddr k = s.checkAddr k)
    (hop : ∀ q, op' q = (op q).mapHart f) :
    (s.mapHart f).manage i k op' = mapNext (State.mapHart f) (s.manage i k op) := by
  unfold State.manage
  dsimp only
  rw [hx, hill, htr, hca]
  split
  · exact congrArg _ (State.trap_mapHart hf _)
  · exact checked_mapHart hf fun _ => checked_mapHart hf fun q => congrArg _ (hop q)

/-- `CBO.ZERO` does not see the change if its tests do not. -/
theorem cboZero_mapHart {rs1 : RegNum} (hx : (s.mapHart f).effAddr rs1 = s.effAddr rs1)
    (hill : illegalWrite (s.mapHart f).hart.cmo (s.mapHart f).hart.mode = illegalWrite s.hart.cmo s.hart.mode)
    (htr : (s.mapHart f).accessTriggers = s.accessTriggers) (hca : (s.mapHart f).checkAddr .write = s.checkAddr .write) :
    execCboZero rs1 (s.mapHart f) = mapNext (State.mapHart f) (execCboZero rs1 s) := by
  unfold execCboZero
  dsimp only
  rw [hx, hill, htr, hca]
  split
  · exact congrArg _ (State.trap_mapHart hf _)
  · exact checked_mapHart hf fun _ => checked_mapHart hf fun q => congrArg _ (State.zeroGroup_mapHart hf _ _)

/-- A hint instruction does not see the change if its triggers and its checks do not. -/
theorem hint_mapHart {rs1 : RegNum} (hx : (s.mapHart f).effAddr rs1 = s.effAddr rs1)
    (htr : (s.mapHart f).accessTriggers = s.accessTriggers) (hht : (s.mapHart f).hintTarget = s.hintTarget) :
    (s.mapHart f).hint rs1 = mapNext (State.mapHart f) (s.hint rs1) := by
  unfold State.hint
  rw [hx, htr, hht]
  refine checked_mapHart hf fun _ => checked_mapHart hf fun target => congrArg _ ?_
  rw [State.hintAllocate_mapHart, State.retire_mapHart hf]

end Unseen

/-! ### The control registers and the hints (rule R172) -/

/-- The hart with the four control registers set. -/
def Hart.setCmo (c : CmoCsrs) (h : Hart) : Hart := { h with cmo := c }

theorem State.setCmo_eq_mapHart (c : CmoCsrs) : s.setCmo c = s.mapHart (Hart.setCmo c) := rfl

theorem Hart.unseen_setCmo (c : CmoCsrs) : Hart.Unseen (Hart.setCmo c) where
  retire _ _ := rfl
  suspend _ _ := rfl
  trap cfg n h e := by
    unfold trapHart
    rw [show trapTarget cfg (Hart.setCmo c h).mode (Hart.setCmo c h).csr e.cause = trapTarget cfg h.mode h.csr e.cause from rfl]
    cases trapTarget cfg h.mode h.csr e.cause <;> rfl

/-- Settles O21: the triggers and the checks of a hint read no control register, so the change commutes with the instruction;
and the one exception a hint takes is the breakpoint. -/
theorem hintsIgnoreControlRegisters : Obligations.HintsIgnoreControlRegisters := by
  intro i s c hi
  simp only [exec_hint hi, State.setCmo_eq_mapHart]
  refine ⟨hint_mapHart (Hart.unseen_setCmo c) rfl rfl rfl, fun t ht => ?_⟩
  obtain ⟨target, -, rfl⟩ | ⟨e, rfl, hbp, -⟩ := hint_next ht
  · exact .inl (quiet_hintAllocate s target).completed
  · exact .inr ⟨e, by simp [hbp], rfl⟩

/-! ### The `MXR` bits (rule R181) -/

/-- The hart with `mstatus.MXR` and `vsstatus.MXR` set. -/
def Hart.setMxr (m vs : Bool) (h : Hart) : Hart :=
  { h with csr := { h.csr with mstatus := { h.csr.mstatus with mxr := m }, vsstatus := { h.csr.vsstatus with mxr := vs } } }

theorem State.setMxr_eq_mapHart (m vs : Bool) : s.setMxr m vs = s.mapHart (Hart.setMxr m vs) := rfl

theorem Hart.unseen_setMxr (m vs : Bool) : Hart.Unseen (Hart.setMxr m vs) where
  retire _ _ := rfl
  suspend _ _ := rfl
  trap cfg n h e := by
    unfold trapHart
    rw [show trapTarget cfg (Hart.setMxr m vs h).mode (Hart.setMxr m vs h).csr e.cause = trapTarget cfg h.mode h.csr e.cause
      from rfl]
    cases trapTarget cfg h.mode h.csr e.cause <;> rfl

theorem checkAddr_setMxr (m vs : Bool) (k : OpClass) : (s.mapHart (Hart.setMxr m vs)).checkAddr k = s.checkAddr k := by
  cases k <;> rfl

/-- Settles O22: no test of an instruction reads an `MXR` bit, and no operation writes one. -/
theorem mxrHasNoEffect : Obligations.MxrHasNoEffect := by
  intro i s m vs
  simp only [State.setMxr_eq_mapHart]
  have hf := Hart.unseen_setMxr m vs
  have hca := checkAddr_setMxr (s := s) m vs
  cases i with
  | cboInval rs1 =>
    refine manage_mapHart hf rfl rfl rfl (hca .inval) fun q => ?_
    rw [apply_ite (State.mapHart _), ← doInvalidate_mapHart hf, ← doFlush_mapHart hf]
    rfl
  | cboClean rs1 => exact manage_mapHart hf rfl rfl rfl (hca .mgmt) fun q => doClean_mapHart hf q.pa
  | cboFlush rs1 => exact manage_mapHart hf rfl rfl rfl (hca .mgmt) fun q => doFlush_mapHart hf q.pa
  | cboZero rs1 => exact cboZero_mapHart hf rfl rfl rfl (hca .write)
  | prefetchR rs1 level => exact hint_mapHart hf rfl rfl rfl
  | prefetchW rs1 level => exact hint_mapHart hf rfl rfl rfl
  | prefetchI rs1 level => exact hint_mapHart hf rfl rfl rfl

end Sys2Proof.Machine
end

section
/-!
PROOFS. The statement of 20_memory.md about the low bits of an effective address (spec rules R64, R94), which rests on the checks of
60_exceptions.md (rule R199): two addresses of one block end at one block, pass or fail every check alike, and name one line of the
caches to every operation.
-/

namespace Sys2Proof.Machine

variable {s : State}

/-! ### The optional allocation depends on its address through the block alone -/

/-- A hart that may read or execute a location is an observer of it (rule R62). -/
theorem observes_of_allJointRX {m : Mode} {pa a : Nat} (h : s.allJointRX m pa = true) (ha : a ∈ s.block pa) :
    s.cfg.observes s.self a = true := by
  have hjoint := List.all_eq_true.mp h a ha
  by_contra hno
  simp [State.jointR, State.jointX, State.pmaPerm, hno, Perm.none] at hjoint

theorem State.fill_of_keyOf {o : ObserverId} {a b : Nat} (h : s.keyOf o a = s.keyOf o b)
    (ho : s.cfg.observes o a = s.cfg.observes o b) (hx : s.exist a = s.exist b) : s.fill o a = s.fill o b := by
  have h' : (s.markDiffering o b).keyOf o a = (s.markDiffering o b).keyOf o b := by simpa using h
  have offered : s.fillOffered o a = s.fillOffered o b := by
    unfold State.fillOffered
    rw [show s.cset o a = s.cset o b from congrArg CacheKey.set h, ho, hx, State.line_of_keyOf h]
  unfold State.fill State.memBlock
  rw [offered, State.markDiffering_of_keyOf h, State.setLine_of_keyOf h', State.blockBase_of_keyOf h]

section Allocate

variable {m : Mode} {pa pb : Nat} (hb : s.blockBase pa = s.blockBase pb) (hp : s.pmaConstraintsMet pb = true)
include hb hp

theorem State.keyOf_block (o : ObserverId) : s.keyOf o pa = s.keyOf o pb :=
  keyOf_eq_of_pmaConstraintsMet hp (State.mem_block_iff_base.mpr hb) o

/-- Two addresses of a block that passes the checks have one allocation. -/
theorem State.hintAllocate_block (hrx : s.allJointRX m pb = true) :
    s.hintAllocate (some pa) = s.hintAllocate (some pb) := by
  have hmem : pa ∈ s.block pb := State.mem_block_iff_base.mpr hb
  have hfill (fills : List Bool) :
      ({ s with hintFills := fills } : State).fill s.self pa = ({ s with hintFills := fills } : State).fill s.self pb :=
    State.fill_of_keyOf (s := { s with hintFills := fills }) (s.keyOf_block hb hp s.self)
      ((observes_of_allJointRX hrx hmem).trans (observes_of_allJointRX hrx (s.self_mem_block pb)).symm)
      (congrArg Option.isSome (attrs_eq_of_pmaConstraintsMet hp hmem))
  simp only [State.hintAllocate, hfill]

end Allocate

/-! ### The instructions -/

section Block

variable {a b : RegNum} (hblock : s.blockBase (s.effAddr a).toNat = s.blockBase (s.effAddr b).toNat)
include hblock

/-- Where the checks pass on one address of a block they pass on the other, and end at one block, at the same leaves. -/
theorem checkAddr_pass_block {k : OpClass} {q : Checked} (h : s.checkAddr k (s.effAddr a) = .pass q) :
    ∃ r, s.checkAddr k (s.effAddr b) = .pass r ∧ s.blockBase q.pa = s.blockBase r.pa ∧
      s.keyOf s.self q.pa = s.keyOf s.self r.pa ∧ q.s1 = r.s1 ∧ q.g = r.g ∧ q.wm = r.wm := by
  have same := checkAddr_block (s := s) k hblock
  rw [h] at same
  generalize s.checkAddr k (s.effAddr b) = check at same
  cases same with
  | pass p r hb hp h1 h2 h3 => exact ⟨r, rfl, hb, s.keyOf_block hb (s.pmaConstraintsMet_block hb ▸ hp) s.self, h1, h2, h3⟩

/-- A management instruction that passes its tests through one register and that no trigger stops through the other has one
outcome, if its operation depends on the address through the line of its block alone. -/
theorem manage_block {i j : Instr} {k : OpClass} {q : Checked} {op : Checked → State} (hi : i.rs1 = a) (hj : j.rs1 = b)
    (htr : s.accessTriggers .mgmt (s.effAddr b) = .pass ()) (hq : MayManage s i k q)
    (hop : ∀ r : Checked, s.keyOf s.self q.pa = s.keyOf s.self r.pa → q.s1 = r.s1 → q.g = r.g → q.wm = r.wm → op q = op r) :
    s.manage i k op = s.manage j k op := by
  subst hi hj
  obtain ⟨r, hr, -, hkey, h1, h2, h3⟩ := checkAddr_pass_block hblock hq.address
  rw [manage_of_may op hq, manage_of_may op ⟨hq.legal, htr, hr⟩, hop r hkey h1 h2 h3]

theorem cboZero_block {q : Checked} (htr : s.accessTriggers .write (s.effAddr b) = .pass ()) (hq : MayZero s a q) :
    exec (.cboZero a) s = exec (.cboZero b) s := by
  obtain ⟨r, hr, hb, -⟩ := checkAddr_pass_block hblock hq.address
  exact (cboZero_of_may hq).trans (hb ▸ (cboZero_of_may ⟨hq.legal, htr, hr⟩).symm)

/-- A hint instruction that no trigger stops goes on alike from two addresses of one block, whether they pass the checks or not. -/
theorem hint_block (ha : s.accessTriggers (.hint s.cfg) (s.effAddr a) = .pass ())
    (hb : s.accessTriggers (.hint s.cfg) (s.effAddr b) = .pass ()) : s.hint a = s.hint b := by
  rw [hint_of_no_trigger ha, hint_of_no_trigger hb]
  have same := translateVa_block (s := s) s.hart.csr s.effMode hblock
  unfold State.hintTarget
  dsimp only
  generalize translateVa s.hart.csr (s.effAddr a).toNat s.effMode = x at same ⊢
  generalize translateVa s.hart.csr (s.effAddr b).toNat s.effMode = y at same ⊢
  cases same with
  | access => rfl
  | guest => rfl
  | mapped s1 g ga gb pa pb hbase =>
    have hrx : s.allJointRX s.effMode pa = s.allJointRX s.effMode pb := s.jointOk_block .mgmt s.effMode hbase
    dsimp only
    rw [s.pmaConstraintsMet_block hbase, hrx]
    split
    · rfl
    · split
      · rfl
      · rename_i hp
        split
        · rename_i hper
          rw [checked_pass, checked_pass, State.hintAllocate_block hbase (by simpa using hp) hper]
        · rfl

end Block

/-- Settles O11: the checks end alike on two addresses of one block, and where they pass, each operation depends on the address
through the block's base and the key of its line. -/
theorem lowAddressBitsHaveNoEffect : Obligations.LowAddressBitsHaveNoEffect := by
  intro s a b hblock
  refine ⟨fun htr => ⟨fun q hq => ?_, fun q hq => ?_, fun q hq => ?_⟩, fun htr q hq => cboZero_block hblock htr hq,
    fun ha hb l => ?_, fun k => ?_⟩
  · refine manage_block hblock rfl rfl htr hq fun r hkey h1 h2 h3 => ?_
    rw [h1, h2, h3, doInvalidate_of_keyOf hkey, doFlush_of_keyOf hkey]
  · exact manage_block hblock rfl rfl htr hq fun r hkey _ _ _ => doClean_of_keyOf hkey
  · exact manage_block hblock rfl rfl htr hq fun r hkey _ _ _ => doFlush_of_keyOf hkey
  · have same := hint_block hblock ha hb
    exact ⟨same, same, same⟩
  · have same := checkAddr_block (s := s) k hblock
    generalize s.checkAddr k (s.effAddr a) = x at same ⊢
    generalize s.checkAddr k (s.effAddr b) = y at same ⊢
    cases same with
    | pass => exact ⟨nofun, nofun⟩
    | raise e e' hc ht => exact ⟨fun _ h => by cases h; exact ⟨e', rfl, hc, ht⟩, nofun⟩
    | refuse r => exact ⟨nofun, fun _ h => h⟩

end Sys2Proof.Machine
end

section
/-!
PROOFS. The statements of 30_encoding.md: the decoder and the encoder are each other's inverses (spec rules R121, R122, R128, R132),
the rows' match and mask (rule R123), the reserved encodings (rule R129), and the bytes of a word (rules R93, R131).
-/

namespace Sys2Proof

variable {w : InstrWord} {i : Instr} {rows : List PrefetchRow}

/-! ### The words of the encoder (rules R121, R122) -/

/-- What the encoder's words, with any value of `yyyy`, decode to. -/
theorem decode_cboWord (y : BitVec 4) (r : RegNum) : decode (cboWord y r) =
    if y = 0b0000#4 then .instr (.cboInval r) else if y = 0b0001#4 then .instr (.cboClean r)
    else if y = 0b0010#4 then .instr (.cboFlush r) else if y = 0b0100#4 then .instr (.cboZero r) else .reserved .caseD := by
  simp [decode, opcodeOf_cboWord, funct3Of_cboWord, rdOf_cboWord, rs2Of_cboWord, xxxOf_cboWord, yyyyOf_cboWord, rs1Of_cboWord]

/-- The decoder reads an instruction from exactly the one word that the encoder gives it. -/
theorem decode_eq_instr_iff : decode w = .instr i ↔ encode [] i = some w := by
  constructor
  · intro h
    obtain ⟨ho, hf, hd, h2, hx, hy⟩ := decode_instr_cases h
    have hw := eq_cboWord_of_fields ho hf hd h2 hx
    obtain ⟨hy, rfl⟩ | ⟨hy, rfl⟩ | ⟨hy, rfl⟩ | ⟨hy, rfl⟩ := hy <;> exact congrArg some (hy ▸ hw).symm
  · intro h
    cases i with
    | cboInval r => cases h; exact decode_cboWord _ r
    | cboClean r => cases h; exact decode_cboWord _ r
    | cboFlush r => cases h; exact decode_cboWord _ r
    | cboZero r => cases h; exact decode_cboWord _ r
    | prefetchR r l => cases h
    | prefetchW r l => cases h
    | prefetchI r l => cases h

/-- An instruction that is no hint has its word whatever `PrefetchDecode` holds. -/
theorem encode_of_not_hint (h : i.isHint = false) : encode rows i = encode [] i := by
  revert h; cases i <;> simp [Instr.isHint, encode]

/-- A hint instruction has the word of its first row in `PrefetchDecode` (rule R128). -/
theorem encode_hint_row (h : i.isHint = true) (he : encode rows i = some w) : ∃ r ∈ rows, r.hint = i ∧ r.word = w := by
  have hfind : (rows.find? (fun p => p.hint == i)).map PrefetchRow.word = some w := by
    revert h he; cases i <;> simp [Instr.isHint, encode]
  obtain ⟨r, hr, hw⟩ := Option.map_eq_some_iff.mp hfind
  exact ⟨r, List.mem_of_find?_eq_some hr, by simpa using List.find?_some hr, hw⟩

/-! ### The decoder with `PrefetchDecode` (rules R128, R132) -/

theorem decodeWith_of_instr (h : decode w = .instr i) : decodeWith rows w = .instr i := by
  simp [decodeWith, h]

theorem decodeWith_of_row {r : PrefetchRow} (h : ∀ i, decode w ≠ .instr i) (hr : prefetchRowOf rows w = some r) :
    decodeWith rows w = .instr r.hint := by
  unfold decodeWith
  split
  · exact absurd ‹_› (h _)
  · rw [hr]

theorem decodeWith_of_reserved {c : ReservedCase} (h : decode w = .reserved c) (hr : prefetchRowOf rows w = none) :
    decodeWith rows w = .reserved c := by
  simp [decodeWith, h, hr]

/-- What a well-formed `PrefetchDecode` says of each of its rows: no other row has its word, its instruction is a hint, and its
word is none of an encoded instruction (rule R128). -/
theorem prefetchRow_of_wellFormed {r : PrefetchRow} (h : prefetchDecodeWellFormed rows = true) (hr : r ∈ rows) :
    prefetchWordsDistinct rows = true ∧ r.hint.isHint = true ∧ ∀ i, decode r.word ≠ .instr i := by
  simp only [prefetchDecodeWellFormed, Bool.and_eq_true, List.all_eq_true] at h
  obtain ⟨hd, hall⟩ := h
  obtain ⟨⟨hi, -⟩, hdec⟩ := hall r hr
  exact ⟨hd, hi, fun i hdi => by simp [hdi] at hdec⟩

theorem Config.wellFormed_prefetchDecode {c : Config} (h : c.wellFormed = true) :
    prefetchDecodeWellFormed c.prefetchDecode = true := by
  simp only [Config.wellFormed, Bool.and_eq_true] at h
  tauto

/-- Settles O2: an encoded instruction's word is the one the decoder reads it from, and a hint's word is no such word and finds its
own row. -/
theorem decodeOfEncodeIsTheInstruction : Obligations.DecodeOfEncodeIsTheInstruction := by
  intro c i w hc he
  cases hi : i.isHint with
  | false => exact decodeWith_of_instr (decode_eq_instr_iff.mpr (encode_of_not_hint hi ▸ he))
  | true =>
    obtain ⟨r, hr, rfl, rfl⟩ := encode_hint_row hi he
    obtain ⟨hd, -, hno⟩ := prefetchRow_of_wellFormed (Config.wellFormed_prefetchDecode hc) hr
    exact decodeWith_of_row hno (prefetchRowOf_eq hd hr hi)

/-- Settles O3: the word is the instruction's one word, and under no `PrefetchDecode` a hint has none. -/
theorem encodeOfDecodeIsTheWord : Obligations.EncodeOfDecodeIsTheWord := by
  intro w i h
  have he := decode_eq_instr_iff.mp h
  refine ⟨?_, he⟩
  by_contra hi
  obtain ⟨r, hr, -⟩ := encode_hint_row (by simpa using hi) he
  cases hr

/-! ### Match and mask (rule R123) -/

/-- The bits of a field that the mask holds whole are those of the masked word. -/
theorem extractLsb'_of_mask {m v : InstrWord} {k n : Nat} (h : w &&& m = v) (hm : m.extractLsb' k n = BitVec.allOnes n) :
    w.extractLsb' k n = v.extractLsb' k n := by
  rw [← h, BitVec.extractLsb'_and, hm, BitVec.and_allOnes]

/-- A word has the constant fields of rule R121 and a given `yyyy` exactly when its bits under the mask are those of register 0's word. -/
theorem exists_eq_cboWord_iff (y : BitVec 4) : (∃ q, some (cboWord y q) = some w) ↔ w &&& 0xFFF07FFF#32 = cboWord y 0 := by
  simp only [Option.some.injEq]
  constructor
  · rintro ⟨q, rfl⟩
    revert y q
    decide
  · intro h
    have ho : opcodeOf w = 0b0001111#7 := (extractLsb'_of_mask h (by decide)).trans (opcodeOf_cboWord y 0)
    have hf : funct3Of w = 0b010#3 := (extractLsb'_of_mask h (by decide)).trans (funct3Of_cboWord y 0)
    have hd : rdOf w = 0#5 := (extractLsb'_of_mask h (by decide)).trans (rdOf_cboWord y 0)
    have h2 : rs2Of w = 0#5 := (extractLsb'_of_mask h (by decide)).trans (rs2Of_cboWord y 0)
    have hx : xxxOf w = 0#3 := (extractLsb'_of_mask h (by decide)).trans (xxxOf_cboWord y 0)
    have hy : yyyyOf w = y := (extractLsb'_of_mask h (by decide)).trans (yyyyOf_cboWord y 0)
    exact ⟨rs1Of w, hy ▸ (eq_cboWord_of_fields ho hf hd h2 hx).symm⟩

/-- The register number stands from bit 15 on. -/
theorem cboWord_eq_or (y : BitVec 4) (r : RegNum) : cboWord y r = cboWord y 0 ||| BitVec.ofNat 32 r.val <<< 15 := by
  revert y r; decide

/-- Settles O4: a row's match is its word for register 0, and the mask leaves out the register's bits alone. -/
theorem matchAndMaskOfEachRow : Obligations.MatchAndMaskOfEachRow := by
  intro w r
  simp only [decode_eq_instr_iff]
  exact ⟨exists_eq_cboWord_iff _, exists_eq_cboWord_iff _, exists_eq_cboWord_iff _, exists_eq_cboWord_iff _,
    congrArg some (cboWord_eq_or _ r), congrArg some (cboWord_eq_or _ r), congrArg some (cboWord_eq_or _ r),
    congrArg some (cboWord_eq_or _ r)⟩

/-! ### Bytes (rules R93, R131) -/

/-- The bytes of a 32-bit word decode to the word's meaning, and what comes after them is left. -/
theorem decodeBytes_bytesOfWord (rest : List Byte) (h : isWordSized (byteOfWord w 0) = true) :
    decodeBytes rows (bytesOfWord w ++ rest) = some (decodeWith rows w, rest) := by
  simp [decodeBytes, bytesOfWord, h, wordOfBytes_byteOfWord]

/-- Settles O6. -/
theorem wordsAreDecodedLittleEndian : Obligations.WordsAreDecodedLittleEndian :=
  fun _ _ rest h => ⟨rfl, decodeBytes_bytesOfWord rest h⟩

/-! ### Reserved encodings (rule R129) -/

/-- A reserved word has the opcode of format `CBO`. -/
theorem opcodeOf_of_reserved {c : ReservedCase} (h : decode w = .reserved c) : opcodeOf w = 0b0001111#7 := by
  by_contra hne
  simp [decode, hne] at h

/-- A hart that has fetched a reserved word which `PrefetchDecode` does not name refuses it (rule R132). -/
theorem runBytes_of_reserved {s : Machine.State} {c : ReservedCase} (h : decode w = .reserved c)
    (hr : prefetchRowOf s.cfg.prefetchDecode w = none) : s.runBytes (bytesOfWord w) = .refused (.reservedEncoding c) := by
  have hbytes := decodeBytes_bytesOfWord (rows := s.cfg.prefetchDecode) [] (isWordSized_of_opcode (opcodeOf_of_reserved h))
  rw [List.append_nil, decodeWith_of_reserved h hr] at hbytes
  simp [Machine.State.runBytes, hbytes]

/-- Settles O5: the clauses are the decoder's branches, in their order. -/
theorem reservedEncodingsAreRefused : Obligations.ReservedEncodingsAreRefused := by
  intro w ho hf
  refine ⟨fun ha => ?_, fun ha hb => ?_, fun ha hb hc => ?_, fun ha hb hc hd => ?_, fun s c => runBytes_of_reserved⟩
  · simp [decode, ho, hf, ha]
  · simp [decode, ho, hf, ha, hb]
  · simp [decode, ho, hf, ha, hb, hc]
  · simp only [List.mem_cons, List.not_mem_nil, or_false, not_or] at hd
    simp [decode, ho, hf, ha, hb, hc, hd]

/-- Settles O1. -/
theorem listedWordsDecodeAsListed : Obligations.ListedWordsDecodeAsListed := by
  unfold Obligations.ListedWordsDecodeAsListed; decide

/-- Settles O16. -/
theorem illegalInstructionTrapValue : Obligations.IllegalInstructionTrapValue := by
  intro s i w he
  simp [Machine.State.illegal, he]

end Sys2Proof
end

section
/-!
PROOFS. The statements about every step of the machine. Two inversions say once what a step can do: `Executed` for a CMO instruction's
first step, `Happened` for a step of an agent. From them: the invariant (`State.Inv`), the parameters (spec rule R49), the global
memory order (rules R96, R99, R102), the mode (rules R206, R207), and the frame of the CMO instructions (rules R21, R23, R207).
-/

namespace Sys2Proof.Machine

variable {s t : State}

/-! ### What a CMO instruction can do in its first step (rules R141, R150, R162) -/

/-- Everything the first step of an instruction can lead to: its operation, at an address whose block meets the PMA constraints, or
an exception whose trap value a register can hold. -/
inductive Executed (s : State) : Instr → State → Prop where
  | invalidate (rs1 : RegNum) (pa : Nat) (hp : s.pmaConstraintsMet pa = true) : Executed s (.cboInval rs1) (s.doInvalidate pa)
  | clean (rs1 : RegNum) (pa : Nat) (hp : s.pmaConstraintsMet pa = true) : Executed s (.cboClean rs1) (s.doClean pa)
  | flush (i : Instr) (pa : Nat) (hp : s.pmaConstraintsMet pa = true) : Executed s i (s.doFlush pa)
  | zero (rs1 : RegNum) (pa : Nat) (hp : s.pmaConstraintsMet pa = true) :
      Executed s (.cboZero rs1) (s.zeroGroup (s.blockBase pa) (List.range s.cfg.cbs))
  | hint (i : Instr) (target : Option Nat) : Executed s i (s.hintAllocate target).retire
  | trap (i : Instr) (e : Exc) (he : e.Fits s.cfg) : Executed s i (s.trap e)

/-- A check and then the rest: where the rest leads, or the check's exception. -/
theorem Executed.of_checked {α : Type} {i : Instr} {c : Check α} {k : α → Out} (h : s.checked c k = .next t)
    (hc : ∀ e, c = .raise e → e.Fits s.cfg) (hk : ∀ a, c = .pass a → k a = .next t → Executed s i t) : Executed s i t := by
  obtain ⟨a, ha, h⟩ | ⟨e, he, rfl⟩ := checked_next h
  · exact hk a ha h
  · exact .trap i e (hc e he)

theorem pmaConstraintsMet_of_checkAddr {k : OpClass} {va : Word} {q : Checked} (h : s.checkAddr k va = .pass q) :
    s.pmaConstraintsMet q.pa = true := by
  obtain ⟨-, -, -, -, hp, -, -⟩ := checkAddr_pass h
  exact hp

theorem Executed.of_manage {i : Instr} {k : OpClass} {op : Checked → State} (h : s.manage i k op = .next t)
    (hop : ∀ q : Checked, s.pmaConstraintsMet q.pa = true → Executed s i (op q)) : Executed s i t := by
  unfold State.manage at h
  dsimp only at h
  split at h
  · cases h; exact .trap i _ (illegal_fits s i)
  · refine .of_checked h (fun e => accessTriggers_fits) fun _ _ h => .of_checked h (fun e => checkAddr_fits) fun q hq h => ?_
    cases h
    exact hop q (pmaConstraintsMet_of_checkAddr hq)

theorem Executed.of_zero {rs1 : RegNum} (h : execCboZero rs1 s = .next t) : Executed s (.cboZero rs1) t := by
  unfold execCboZero at h
  dsimp only at h
  split at h
  · cases h; exact .trap _ _ (illegal_fits s _)
  · refine .of_checked h (fun e => accessTriggers_fits) fun _ _ h => .of_checked h (fun e => checkAddr_fits) fun q hq h => ?_
    cases h
    exact .zero rs1 q.pa (pmaConstraintsMet_of_checkAddr hq)

theorem Executed.of_hint {i : Instr} {rs1 : RegNum} (h : s.hint rs1 = .next t) : Executed s i t :=
  .of_checked h (fun _ => accessTriggers_fits) fun _ _ h =>
    .of_checked h (fun _ he => absurd he hintTarget_raise) fun target _ h => by cases h; exact .hint i target

theorem executed {i : Instr} (h : exec i s = .next t) : Executed s i t := by
  cases i with
  | cboInval rs1 =>
    refine .of_manage h fun q hp => ?_
    split
    · exact .invalidate rs1 q.pa hp
    · exact .flush _ q.pa hp
  | cboClean rs1 => exact .of_manage h fun q hp => .clean rs1 q.pa hp
  | cboFlush rs1 => exact .of_manage h fun q hp => .flush _ q.pa hp
  | cboZero rs1 => exact .of_zero h
  | prefetchR rs1 level => exact .of_hint h
  | prefetchW rs1 level => exact .of_hint h
  | prefetchI rs1 level => exact .of_hint h

/-! ### What a step of the hart can do (rules R112, R152, R200) -/

theorem runBytes_next {bs : List Byte} (h : s.runBytes bs = .next t) : ∃ i, exec i s = .next t := by
  unfold State.runBytes at h
  split at h
  · exact ⟨_, h⟩
  · cases h
  · cases h
  · cases h

/-- Everything a step of the hart can lead to: the instruction in progress goes on, or, with none in progress, an instruction executes or
an exception comes before it. -/
theorem hartStep_next (h : hartStep s = .next t) :
    (∃ p, s.hart.pending = some p ∧ t = s.resume p) ∨
    (s.hart.pending = none ∧ ((∃ i, exec i s = .next t) ∨
      ∃ e, t = s.trap e ∧ (s.cfg.trunc s.hart.pc = s.hart.pc → e.Fits s.cfg))) := by
  unfold hartStep at h
  split at h
  · rename_i p hp
    cases h
    exact .inl ⟨p, hp, rfl⟩
  · rename_i hp
    refine .inr ⟨hp, ?_⟩
    obtain ⟨-, -, h⟩ | ⟨e, he, rfl⟩ := checked_next h
    · obtain ⟨bs, -, h⟩ | ⟨e, he, rfl⟩ := checked_next h
      · exact .inl (runBytes_next h)
      · exact .inr ⟨e, rfl, fun hpc => fetch_fits hpc he⟩
    · exact .inr ⟨e, rfl, fun _ => fire_fits he⟩

/-- Seen from the hart: its instruction completes, or is in progress, or it takes an exception. -/
theorem hartStep_next_cases (h : hartStep s = .next t) : (Completed s t ∨ InProgress s t) ∨ ∃ e, t = s.trap e := by
  obtain ⟨p, -, rfl⟩ | ⟨-, ⟨i, h⟩ | ⟨e, rfl, -⟩⟩ := hartStep_next h
  · exact .inl (resume_cases s p)
  · exact exec_next_cases h
  · exact .inr ⟨e, rfl⟩

theorem untouched_of_cases (h : (Completed s t ∨ InProgress s t) ∨ ∃ e, t = s.trap e) : Untouched s t := by
  obtain (h | h) | ⟨e, rfl⟩ := h
  · exact h.frame
  · exact h.frame
  · exact untouched_trap s e

/-- Settles O10: completing, going on and taking an exception all leave these registers and fields. -/
theorem cmoInstructionsWriteNoRegister : Obligations.CmoInstructionsWriteNoRegister := fun s =>
  ⟨fun _ _ h => untouched_of_cases (exec_next_cases h),
    fun p => ⟨untouched_of_cases (.inl (resume_cases s p)), resume_cases s p⟩⟩

/-! ### What a step of an agent can do (rules R10, R20, R104 to R108, R207, R238) -/

/-- The values that a host instruction can leave a hart with: every field that the instruction writes holds one that it can hold. -/
inductive HartWrite (c : Config) (h : Hart) : Event → Hart → Prop where
  | x (rd : RegNum) (v : Word) (e : Event) : HartWrite c h e { h with x := h.x.set rd (c.trunc v) }
  | jump (a : Word) (ha : Config.aligned c a = true) : HartWrite c h (.jump a) { h with pc := a }
  | cmo (num : BitVec 12) (v : Word) (r : CmoReg) :
      HartWrite c h (.csrWrite num v) { h with cmo := h.cmo.set r (legalise (r.shape c) v) }
  | csr (r : HostCsrs) (hr : r.legal c = true) : HartWrite c h (.hostCsrs r) { h with csr := r }
  | mret : HartWrite c h .mret (mretHart c h)
  | sret (g : Hart) (hg : sretResult c h = some g) : HartWrite c h .sret g

/-- Everything a step of an agent can lead to. -/
inductive Happened (s : State) : Event → State → Prop where
  | nothing (e : Event) : Happened s e s
  | hart (t : State) (h : hartStep s = .next t) : Happened s .hart t
  | switch (h : ObserverId) : Happened s (.switch h) (s.switchTo h)
  | fill (o : ObserverId) (pa : Nat) : Happened s (.fill o pa) (s.fill o pa)
  | drop (o : ObserverId) (pa : Nat) : Happened s (.drop o pa) (s.drop o pa)
  | writeBack (o : ObserverId) (pa : Nat) : Happened s (.writeBack o pa) (s.writeBack o pa)
  | load (e : Event) (o : ObserverId) (pa n left : Nat) (next : Event) : Happened s e ((s.observerLoad o pa n).goOn left next)
  | store (e : Event) (o : ObserverId) (pa : Nat) (v : List Byte) (left : Nat) (next : Event) :
      Happened s e ((s.observerStore o pa v).goOn left next)
  | memRead (addr : Word) (n : Nat) (x : Exc) (hx : x.Fits s.cfg) : Happened s (.memRead addr n) (s.trap x)
  | memWrite (addr : Word) (v : List Byte) (x : Exc) (hx : x.Fits s.cfg) : Happened s (.memWrite addr v) (s.trap x)
  | fence (e : Event) (k : MemKind) : Happened s e (s.record s.self k 0 0)
  | fenceI (m : FetchMark) : Happened s .fenceI { s with fetchLog := m :: s.fetchLog }
  | host (e : Event) (h : Hart) (hw : HartWrite s.cfg s.hart e h) : Happened s e (s.withHart h)
  | reservations (e : Event) (rs : List Reservation) : Happened s e { s with reservations := rs }
  | regions (rs : List Region) : Happened s (.regions rs) { s with regions := rs }

/-- A host instruction does nothing, or what it does between instructions (rule R209). -/
theorem Happened.of_byHost {e : Event} {u : State} (h : .next (s.byHost u) = (.next t : Out)) (hu : Happened s e u) :
    Happened s e t := by
  cases h
  obtain h | ⟨-, h⟩ := s.byHost_cases u <;> rw [h]
  · exact .nothing e
  · exact hu

theorem happened_writeX (e : Event) (rd : RegNum) (v : Word) : Happened s e (s.writeX rd v) := by
  unfold State.writeX
  split
  · exact .nothing e
  · exact .host e _ (.x rd v e)

theorem happened {e : Event} (h : runEvent e s = .next t) : Happened s e t := by
  cases e with
  | hart => exact .hart t h
  | switch o => cases h; exact .switch o
  | fill o pa => cases h; exact .fill o pa
  | drop o pa => cases h; exact .drop o pa
  | writeBack o pa => cases h; exact .writeBack o pa
  | load o pa n =>
    obtain rfl | ⟨k, left, next, rfl⟩ := State.loadEvent_next h
    · exact .nothing _
    · exact .load _ o pa k left next
  | store o pa v =>
    obtain rfl | rfl := State.storeEvent_next h
    · exact .nothing _
    · exact .store _ o pa v 0 .hart
  | memRead addr n =>
    obtain rfl | ⟨-, h⟩ := State.byHostOut_next h
    · exact .nothing _
    · obtain rfl | ⟨pa, k, left, next, rfl⟩ | ⟨x, rfl, hx⟩ := State.memRead_next h
      · exact .nothing _
      · exact .load _ _ pa k left next
      · exact .memRead addr n x hx
  | memWrite addr v =>
    obtain rfl | ⟨-, h⟩ := State.byHostOut_next h
    · exact .nothing _
    · obtain rfl | ⟨pa, k, left, next, rfl⟩ | ⟨x, rfl, hx⟩ := State.memWrite_next h
      · exact .nothing _
      · exact .store _ _ pa _ left next
      · exact .memWrite addr v x hx
  | fence pr pw sr sw => exact .of_byHost h (.fence _ _)
  | fenceI => exact .of_byHost h (.fenceI _)
  | writeX rd v => exact .of_byHost h (happened_writeX _ rd v)
  | jump a =>
    refine .of_byHost h ?_
    split
    · exact .host _ _ (.jump a ‹_›)
    · exact .nothing _
  | csrRead num rd =>
    refine .of_byHost h ?_
    unfold State.csrRead
    split
    · exact .nothing _
    · exact happened_writeX _ rd _
  | csrWrite num v =>
    refine .of_byHost h ?_
    unfold State.csrWrite
    split
    · exact .nothing _
    · exact .host _ _ (.cmo num v _)
  | hostCsrs c =>
    refine .of_byHost h ?_
    split
    · exact .host _ _ (.csr c ‹_›)
    · exact .nothing _
  | mret =>
    refine .of_byHost h ?_
    split
    · exact .host _ _ .mret
    · exact .nothing _
  | sret =>
    refine .of_byHost h ?_
    split
    · exact .nothing _
    · exact .host _ _ (.sret _ ‹_›)
  | reserve pa n => exact .of_byHost h (.reservations _ _)
  | unreserve => exact .of_byHost h (.reservations _ _)
  | regions rs =>
    simp only [runEvent] at h
    split_ifs at h
    · cases h; exact .nothing _
    · cases h; exact .regions rs

/-- A step of the machine is a step of an agent: the one the schedule names, which is taken off it, or the hart. -/
theorem step_cases (h : step s = .next t) :
    hartStep s = .next t ∨ ∃ e rest, runEvent e { s with schedule := rest } = .next t := by
  unfold step at h
  split at h
  · exact .inl h
  · exact .inr ⟨_, _, h⟩

/-! ### The parameters (rule R49) -/

@[simp] theorem State.switchTo_cfg (h : ObserverId) : (s.switchTo h).cfg = s.cfg := by
  unfold State.switchTo; split <;> rfl

theorem Happened.cfg {e : Event} (h : Happened s e t) : t.cfg = s.cfg := by
  cases h with
  | hart _ h => exact (untouched_of_cases (hartStep_next_cases h)).cfg
  | _ => simp

/-- Settles O55: a step of the hart leaves them with everything else that a CMO instruction leaves, and no other step writes them. -/
theorem parametersAreFixed : Obligations.ParametersAreFixed := by
  intro s t h
  obtain h | ⟨e, rest, h⟩ := step_cases h
  · exact (Happened.hart t h).cfg
  · exact (happened h).cfg

/-! ### The global memory order (rules R96, R99, R102) -/

@[simp] theorem State.switchTo_gmo (h : ObserverId) : (s.switchTo h).gmo = s.gmo := by
  unfold State.switchTo; split <;> rfl

/-- What is in the global memory order stays in it, in its order and after everything new: the newest element comes first. -/
theorem Executed.gmo {i : Instr} (h : Executed s i t) : s.gmo <:+ t.gmo := by
  cases h with
  | invalidate rs1 pa => rw [State.doInvalidate_gmo]; exact List.suffix_cons _ _
  | clean rs1 pa => rw [State.doClean_gmo]; exact List.suffix_cons _ _
  | flush i pa => rw [State.doFlush_gmo]; exact List.suffix_cons _ _
  | zero rs1 pa => rw [State.zeroGroup_gmo]; exact List.suffix_append _ _
  | hint i target => simp
  | trap i e => simp

theorem resume_gmo (s : State) (p : Pending) : s.gmo <:+ (s.resume p).gmo := by
  cases p with
  | zero base offsets => exact State.zeroGroup_gmo (s := s) base offsets ▸ List.suffix_append _ _
  | flushInvalidate pa => exact State.doInvalidate_gmo (s := s) pa ▸ List.suffix_cons _ _

theorem hartStep_gmo (h : hartStep s = .next t) : s.gmo <:+ t.gmo := by
  obtain ⟨p, -, rfl⟩ | ⟨-, ⟨i, h⟩ | ⟨e, rfl, -⟩⟩ := hartStep_next h
  · exact resume_gmo s p
  · exact (executed h).gmo
  · exact List.suffix_rfl

theorem Happened.gmo {e : Event} (h : Happened s e t) : s.gmo <:+ t.gmo := by
  cases h with
  | hart _ h => exact hartStep_gmo h
  | _ => simp

/-- Settles O51: every step's order ends in the order before it, and what precedes in a list of the newest first comes later in it. -/
theorem globalMemoryOrderOnlyGrows : Obligations.GlobalMemoryOrderOnlyGrows := by
  intro s t h
  have grows : s.gmo <:+ t.gmo := by
    obtain h | ⟨e, rest, h⟩ := step_cases h
    · exact hartStep_gmo h
    · exact (happened h).gmo
  obtain ⟨newer, hg⟩ := grows
  refine ⟨newer, hg.symm, fun a ha b hb => ?_⟩
  obtain ⟨n1, n2, rfl⟩ := List.append_of_mem hb
  obtain ⟨o1, o2, ho⟩ := List.append_of_mem ha
  exact ⟨n1, n2 ++ o1, o2, by rw [← hg, ho]; simp⟩

/-! ### The mode (rules R206, R207) -/

theorem mode_of_cases (h : Completed s t ∨ InProgress s t) : t.hart.mode = s.hart.mode := by
  obtain h | h := h
  · rw [h.hart]
  · obtain ⟨p, hp⟩ := h.hart
    rw [hp]

/-- A switch to another hart than the executing one makes it the executing one. -/
theorem State.switchTo_self_ne {h : ObserverId} (hd : s.others.all (fun p => p.1 != s.self) = true) (hne : s.switchTo h ≠ s) :
    (s.switchTo h).self ≠ s.self := by
  unfold State.switchTo at hne ⊢
  cases hf : s.others.find? (fun p => p.1 == h) with
  | none => exact absurd (by rw [hf]) hne
  | some q =>
    have hq : q.1 = h := by simpa using List.find?_some hf
    have := List.all_eq_true.mp hd q (List.mem_of_find?_eq_some hf)
    simpa [← hq] using this

/-- Of the host's instructions only the returns write the mode. -/
theorem HartWrite.mode {c : Config} {h g : Hart} {e : Event} (hw : HartWrite c h e g) (hm : g.mode ≠ h.mode) :
    e = .mret ∨ e = .sret := by
  cases hw with
  | mret => exact .inl rfl
  | sret => exact .inr rfl
  | _ => exact absurd rfl hm

/-- Settles O34: of what can happen, only returns and exceptions write the executing hart's mode, and a switch that leaves the same hart
executing is none. -/
theorem onlyTrapsAndReturnsChangeMode : Obligations.OnlyTrapsAndReturnsChangeMode := by
  intro e s t h hself hd hmode
  cases happened h with
  | hart _ h =>
    obtain h | hx := hartStep_next_cases h
    · exact absurd (mode_of_cases h) hmode
    · exact .inr (.inr ⟨.inl rfl, hx⟩)
  | switch o =>
    refine absurd hself (State.switchTo_self_ne hd fun he => hmode ?_)
    rw [he]
  | memRead addr n x hx => exact .inr (.inr ⟨.inr (.inl ⟨addr, n, rfl⟩), x, rfl⟩)
  | memWrite addr v x hx => exact .inr (.inr ⟨.inr (.inr ⟨addr, v, rfl⟩), x, rfl⟩)
  | host _ g hw => exact (hw.mode hmode).imp_right .inl
  | _ => exact absurd (by simp) hmode

/-! ### The invariant (rules R20 to R22, R25, R37, R38, R40, R44, R109) -/

theorem State.Inv.trap (h : s.Inv) {e : Exc} (he : e.Fits s.cfg) : (s.trap e).Inv :=
  h.congr rfl rfl rfl (h.hart.trapHart s.free he) (h.memOk.congr rfl rfl rfl)

theorem State.Inv.completed (h : s.Inv) (hc : Completed s t) (hm : t.MemOk) : t.Inv :=
  h.congr hc.frame.cfg hc.frame.self hc.frame.others (hc.hart ▸ h.hart.completed) hm

/-- An instruction in progress keeps the invariant if what is left of it is something that can be. -/
theorem State.Inv.inProgress (h : s.Inv) (hi : InProgress s t) (hp : pendingOk s.cfg t.hart.pending = true) (hm : t.MemOk) :
    t.Inv := by
  obtain ⟨p, hh⟩ := hi.hart
  rw [hh] at hp
  exact h.congr hi.frame.cfg hi.frame.self hi.frame.others (hh ▸ h.hart.withPending hp) hm

theorem State.Inv.doInvalidate (h : s.Inv) (pa : Nat) : (s.doInvalidate pa).Inv :=
  h.completed (completed_doInvalidate s pa) (h.memOk.doInvalidate pa)

theorem State.Inv.doClean (h : s.Inv) (pa : Nat) : (s.doClean pa).Inv :=
  h.completed (completed_doClean s pa) (h.memOk.doClean pa)

theorem State.Inv.doFlush (h : s.Inv) (pa : Nat) : (s.doFlush pa).Inv := by
  obtain hc | hi := doFlush_cases s pa
  · exact h.completed hc (h.memOk.doFlush pa)
  · refine h.inProgress hi ?_ (h.memOk.doFlush pa)
    cases hf : s.cfg.flushAtomic with
    | true => rw [doFlush_atomic hf]; rfl
    | false => rw [doFlush_split hf]; rfl

/-- One group of byte stores of an aligned block, of offsets in it. -/
theorem State.Inv.zeroGroup (h : s.Inv) {base : Nat} {offsets : List Nat} (hb : base % s.cfg.cbs = 0)
    (hk : ∀ k ∈ offsets, k < s.cfg.cbs) : (s.zeroGroup base offsets).Inv := by
  by_cases hall : ∀ k ∈ offsets, k ∈ zeroNow s.zeroPlan offsets
  · exact h.completed (State.zeroGroup_completes hall) (h.memOk.zeroGroup base offsets)
  · obtain ⟨k, hmem, hnow⟩ := not_forall₂.mp hall
    obtain ⟨hi, hpend⟩ := State.zeroGroup_goes_on (s := s) (base := base) hmem hnow
    refine h.inProgress hi ?_ (h.memOk.zeroGroup base offsets)
    have hlater : zeroLater s.zeroPlan offsets ≠ [] := List.ne_nil_of_mem (mem_zeroLater.mpr ⟨hmem, hnow⟩)
    rw [hpend]
    simpa [pendingOk, hb, hlater] using fun j hj => hk j (mem_zeroLater.mp hj).1

theorem State.Inv.executed (h : s.Inv) {i : Instr} (he : Executed s i t) : t.Inv := by
  cases he with
  | invalidate rs1 pa => exact h.doInvalidate pa
  | clean rs1 pa => exact h.doClean pa
  | flush i pa => exact h.doFlush pa
  | zero rs1 pa => exact h.zeroGroup (s.blockBase_mod pa) fun k hk => List.mem_range.mp hk
  | hint i target => exact h.completed (quiet_hintAllocate s target).completed ((h.memOk.hintAllocate target).congr rfl rfl rfl)
  | trap i e he => exact h.trap he

theorem State.Inv.resume (h : s.Inv) {p : Pending} (hp : s.hart.pending = some p) : (s.resume p).Inv := by
  have hok := h.hart.pending
  rw [hp] at hok
  cases p with
  | flushInvalidate pa => exact h.doInvalidate pa
  | zero base offsets =>
    simp only [pendingOk, Bool.and_eq_true, beq_iff_eq, List.all_eq_true, decide_eq_true_eq] at hok
    obtain ⟨⟨hb, hk⟩, -⟩ := hok
    exact h.zeroGroup hb hk

theorem State.Inv.hartStep (h : s.Inv) (hs : hartStep s = .next t) : t.Inv := by
  obtain ⟨p, hp, rfl⟩ | ⟨-, ⟨i, hx⟩ | ⟨e, rfl, he⟩⟩ := hartStep_next hs
  · exact h.resume hp
  · exact h.executed (Machine.executed hx)
  · exact h.trap (he (Config.aligned_iff.mp h.hart.pc).2)

theorem Hart.Ok.written {c : Config} {h g : Hart} {e : Event} (hok : Hart.Ok c h) (hw : HartWrite c h e g) : Hart.Ok c g := by
  cases hw with
  | x rd v => exact hok.setX rd v
  | jump a ha => exact { hok with pc := ha }
  | cmo num v r => exact { hok with cmo := CmoCsrs.legal_set hok.cmo r v }
  | csr r hr => exact { hok with csr := hr }
  | mret => exact hok.mretHart
  | sret g hg => exact hok.sretResult hg

/-- Every hart after a switch was a hart before it. -/
theorem State.Inv.switchTo (h : s.Inv) (o : ObserverId) : (s.switchTo o).Inv := by
  have harts := (s.hartIds_switchTo h.hartIds_nodup o).trans h.harts
  unfold State.switchTo at harts ⊢
  split
  · exact h
  · rename_i hart hf
    rw [hf] at harts
    refine ⟨h.cfg, h.mem, h.sorted, h.lines, h.others _ (List.mem_of_find?_eq_some hf), fun p hp => ?_, harts⟩
    obtain ⟨q, hq, rfl⟩ := List.mem_map.mp hp
    split
    · exact h.hart
    · exact h.others q hq

/-- The invariant of a state that differs in nothing it speaks of. -/
theorem State.Inv.same (h : s.Inv) (hc : t.cfg = s.cfg) (hs : t.self = s.self) (ho : t.others = s.others) (hh : t.hart = s.hart)
    (hm : t.MemOk) : t.Inv :=
  h.congr hc hs ho (hh ▸ h.hart) hm

theorem State.Inv.happened (h : s.Inv) {e : Event} (he : Happened s e t) : t.Inv := by
  cases he with
  | nothing => exact h
  | hart _ hs => exact h.hartStep hs
  | switch o => exact h.switchTo o
  | fill o pa => exact h.same (by simp) (by simp) (by simp) (by simp) (h.memOk.fill o pa)
  | drop o pa => exact h.same (by simp) (by simp) (by simp) (by simp) (h.memOk.drop o pa)
  | writeBack o pa => exact h.same (by simp) (by simp) (by simp) (by simp) (h.memOk.writeDirty o pa)
  | load _ o pa n left next => exact h.same (by simp) (by simp) (by simp) (by simp) (h.memOk.loaded o pa n left next)
  | store _ o pa v left next => exact h.same (by simp) (by simp) (by simp) (by simp) (h.memOk.stored o pa v left next)
  | memRead addr n x hx => exact h.trap hx
  | memWrite addr v x hx => exact h.trap hx
  | host _ g hw => exact h.congr rfl rfl rfl (h.hart.written hw) (h.memOk.congr rfl rfl rfl)
  | _ => exact h.same rfl rfl rfl rfl (h.memOk.congr rfl rfl rfl)

/-- Settles O54: whatever happens in a step keeps the invariant, which says nothing of the schedule. -/
theorem everyStepKeepsTheInvariant : Obligations.EveryStepKeepsTheInvariant := by
  intro s t h hs
  obtain hs | ⟨e, rest, hs⟩ := step_cases hs
  · exact h.hartStep hs
  · have hsched : State.Inv { s with schedule := rest } := h.same rfl rfl rfl rfl (h.memOk.congr rfl rfl rfl)
    exact hsched.happened (Machine.happened hs)

/-- Settles O53. -/
theorem invariantHoldsAtReset : Obligations.InvariantHoldsAtReset where
  cfg := by decide
  mem := rfl
  sorted := rfl
  lines := rfl
  hart := ⟨rfl, by decide, by decide, by decide, by decide, rfl⟩
  others := fun _ hp => nomatch hp
  harts := .refl _

end Sys2Proof.Machine
end

section
/-!
PROOFS. The statements of 20_memory.md about the cache machine: sets of coherent observers (spec rules R62, R77), WriteBack (rules R71,
R106), stores by an observer and by the executing hart (rules R10, R108), and what no operation does to other sets' copies and to
memory (rules R71, R109).
-/

namespace Sys2Proof.Machine

variable {s t : State} {o p : ObserverId} {pa n : Nat}

/-! ### Sets of coherent observers (rules R62, R77) -/

/-- Of disjoint sets, the one that is found for an observer is the one that is found for each of its members. -/
theorem find_set_of_mem {sets : List (List ObserverId)} {d : List ObserverId} (hd : setsDisjoint sets = true)
    (hf : sets.find? (fun d => d.contains o) = some d) (hp : p ∈ d) : sets.find? (fun d => d.contains p) = some d := by
  induction sets with
  | nil => cases hf
  | cons e rest ih =>
    simp only [setsDisjoint, Bool.and_eq_true, List.all_eq_true] at hd
    rw [List.find?_cons] at hf ⊢
    split at hf
    · cases hf
      simp [hp]
    · have hmem : d ∈ rest := List.mem_of_find?_eq_some hf
      have hpe : e.contains p = false := by
        by_contra hc
        simpa [hp] using hd.1 d hmem p (by simpa using hc)
      rw [hpe]
      exact ih hd.2 hf

/-- The set that a platform lists for an observer and the block of a location. -/
def State.listedSet (s : State) (o : ObserverId) (pa : Nat) : Option (List ObserverId) :=
  match s.attrs pa with
  | none => none
  | some a =>
    if a.coherent then (s.cfg.coherentSets (s.blockBase pa) a.cacheable).find? (fun d => d.contains o) else none

theorem State.cset_eq_listedSet (s : State) (o : ObserverId) (pa : Nat) : s.cset o pa = (s.listedSet o pa).getD [o] := by
  unfold State.cset State.listedSet
  cases s.attrs pa with
  | none => rfl
  | some a => cases hc : a.coherent <;> simp [hc]

/-- Where a set is listed, it is one of the disjoint sets of a well-formed range that holds the block's base. -/
theorem State.listedSet_some {d : List ObserverId} (hc : s.cfg.wellFormed = true) (h : s.listedSet o pa = some d) :
    ∃ r : DomainRange, r.wellFormed s.cfg = true ∧ r.range.holds (s.blockBase pa) = true ∧ d ∈ r.sets ∧
      ∀ p ∈ d, s.listedSet p pa = some d := by
  unfold State.listedSet at h ⊢
  cases ha : s.attrs pa with
  | none => simp [ha] at h
  | some a =>
    simp only [ha] at h
    split at h
    · rename_i hcoh
      have hmem := List.mem_of_find?_eq_some h
      unfold Config.coherentSets at h hmem
      cases hr : s.cfg.domains.find? (fun d => d.range.holds (s.blockBase pa) && d.cacheable == a.cacheable) with
      | none => simp [hr] at hmem
      | some r =>
        simp only [hr, Option.map_some, Option.getD_some] at h hmem
        have hwf : r.wellFormed s.cfg = true := by
          simp only [Config.wellFormed, Bool.and_eq_true] at hc
          exact List.all_eq_true.mp (by tauto) r (List.mem_of_find?_eq_some hr)
        have hdisj : setsDisjoint r.sets = true := by
          simp only [DomainRange.wellFormed, Bool.and_eq_true] at hwf
          exact hwf.2
        have hholds := List.find?_some hr
        simp only [Bool.and_eq_true] at hholds
        refine ⟨r, hwf, hholds.1, hmem, fun p hp => ?_⟩
        simpa [hcoh, Config.coherentSets, hr] using find_set_of_mem hdisj h hp
    · cases h

/-- A range of whole blocks that holds a block's base holds every location of the block (rule R70). -/
theorem AddrRange.holds_of_blockBase {r : AddrRange} (hb : r.base % s.cfg.cbs = 0) (hs : r.size % s.cfg.cbs = 0)
    (h : r.holds (s.blockBase pa) = true) : r.holds pa = true := by
  simp only [AddrRange.holds, decide_eq_true_eq] at h ⊢
  obtain ⟨x, hx⟩ := Nat.dvd_of_mod_eq_zero hb
  obtain ⟨y, hy⟩ := Nat.dvd_of_mod_eq_zero hs
  obtain ⟨z, hz⟩ := Nat.dvd_of_mod_eq_zero (s.blockBase_mod pa)
  have hlt : z < x + y := by
    refine Nat.lt_of_mul_lt_mul_left (a := s.cfg.cbs) ?_
    rw [Nat.mul_add, ← hx, ← hy, ← hz]
    exact h.2
  have hle : s.cfg.cbs * (z + 1) ≤ s.cfg.cbs * (x + y) := Nat.mul_le_mul_left _ hlt
  have := s.blockBase_le pa
  have := s.lt_blockBase_add pa
  rw [Nat.mul_add, Nat.mul_add, ← hx, ← hy, ← hz] at hle
  omega

/-- An observer that reaches a range is an observer of each of its locations (rule R62). -/
theorem Config.observes_of_reaches {c : Config} {r : AddrRange} {q : Observer} (hq : q ∈ c.observers)
    (h : q.reaches r = true) (hr : r.holds pa = true) : c.observes q.id pa = true := by
  simp only [Observer.reaches, List.any_eq_true, decide_eq_true_eq] at h
  obtain ⟨e, he, h1, h2⟩ := h
  simp only [AddrRange.holds, decide_eq_true_eq] at hr
  simp only [Config.observes, List.any_eq_true, Bool.and_eq_true, beq_iff_eq]
  exact ⟨q, hq, rfl, e, he, by simp only [AddrRange.holds, decide_eq_true_eq]; omega⟩

/-- Every member of a listed set is an observer of the location. -/
theorem State.observes_of_mem_listedSet {d : List ObserverId} (hc : s.cfg.wellFormed = true) (h : s.listedSet o pa = some d)
    (hp : p ∈ d) : s.cfg.observes p pa = true := by
  obtain ⟨r, hwf, hholds, hd, -⟩ := State.listedSet_some hc h
  simp only [DomainRange.wellFormed, Bool.and_eq_true, beq_iff_eq, List.all_eq_true, List.any_eq_true] at hwf
  obtain ⟨⟨⟨hb, hs⟩, hall⟩, -⟩ := hwf
  obtain ⟨q, hq, rfl, hreach⟩ := (hall d hd).2 p hp
  exact Config.observes_of_reaches hq hreach (AddrRange.holds_of_blockBase hb hs hholds)

/-- Settles O42: a listed set is found for each of its members, and an observer that none lists is alone. -/
theorem setsOfCoherentObserversPartition : Obligations.SetsOfCoherentObserversPartition := by
  intro s o p pa h
  refine ⟨s.self_mem_cset o pa, fun hno => ?_, ?_⟩
  · have hnone : s.listedSet o pa = none := by
      unfold State.listedSet
      cases ha : s.attrs pa with
      | none => rfl
      | some a => simp [hno a ha]
    rw [State.cset_eq_listedSet, hnone, Option.getD_none]
  · simp only [State.cset_eq_listedSet]
    cases hl : s.listedSet o pa with
    | none =>
      simp only [Option.getD_none, List.mem_singleton]
      exact ⟨by rintro rfl; rw [hl, Option.getD_none], by rintro ho rfl; exact ho⟩
    | some d =>
      obtain ⟨-, -, -, -, hall⟩ := State.listedSet_some h.cfg hl
      simp only [Option.getD_some]
      exact ⟨fun hp => by rw [hall p hp, Option.getD_some], fun _ hp => State.observes_of_mem_listedSet h.cfg hl hp⟩

/-! ### WriteBack (rules R71, R106) -/

/-- The byte that memory holds, at offset `k` of the block of `pa`, once the copy is written to it if it is dirty. -/
def State.writtenByte (s : State) (o : ObserverId) (pa k : Nat) : Byte :=
  match s.line o pa with
  | some l => if l.dirty then l.data.getD k 0#8 else s.mem.read (s.blockBase pa + k)
  | none => s.mem.read (s.blockBase pa + k)

theorem State.writtenByte_of_dirty {l : Line} (h : s.line o pa = some l) (hd : l.dirty = true) (k : Nat) :
    s.writtenByte o pa k = l.data.getD k 0#8 := by
  simp [State.writtenByte, h, hd]

theorem State.writtenByte_of_not_dirty (h : ∀ l, s.line o pa = some l → l.dirty = false) (k : Nat) :
    s.writtenByte o pa k = s.mem.read (s.blockBase pa + k) := by
  unfold State.writtenByte
  split
  · rw [h _ ‹_›]; rfl
  · rfl

/-- Memory in the block after a dirty copy of `CBS` bytes is written to it. -/
theorem State.read_writeDirty_inside (hlen : ∀ l, s.line o pa = some l → l.data.length = s.cfg.cbs) {k : Nat}
    (hk : k < s.cfg.cbs) : (s.writeDirty o pa).mem.read (s.blockBase pa + k) = s.writtenByte o pa k := by
  obtain ⟨he, hc⟩ | ⟨l, hl, hd, he⟩ := s.writeDirty_cases o pa
  · rw [he, State.writtenByte_of_not_dirty hc]
  · rw [he, State.writtenByte_of_dirty hl hd]
    exact Memory.read_writeBytes_inside _ _ _ (by rw [hlen l hl]; exact hk)

/-- Settles O37: WriteBack writes the block if it is dirty, and does nothing if it is not. -/
theorem writeBackWritesDirtyCopies : Obligations.WriteBackWritesDirtyCopies := by
  intro s o pa
  refine ⟨fun l hl hd hlen => ?_, fun hc => ?_⟩
  · have hfull : ∀ m, s.line o pa = some m → m.data.length = s.cfg.cbs := fun m hm => by
      rw [← hlen, Option.some.inj (hm.symm.trans hl)]
    refine ⟨_, rfl, ?_, s.writeDirty_hart o pa, fun k hk => ?_, fun a => s.read_writeDirty_outside o pa hfull,
      fun key => s.get_writeDirty_of_ne o pa⟩
    · exact (s.line_writeDirty o pa).trans (by rw [hl, Option.map_some])
    · exact (State.read_writeDirty_inside hfull hk).trans (State.writtenByte_of_dirty hl hd k)
  · obtain ⟨he, -⟩ | ⟨l, hl, hd, -⟩ := s.writeDirty_cases o pa
    · exact congrArg _ he
    · exact absurd hd (by simp [hc l hl])

/-! ### Stores (rules R10, R108) -/

/-- Bytes that lie in one block, by its base. -/
theorem State.inBlock_of_blockBase (h : s.blockBase pa = s.blockBase (pa + (n - 1))) : s.inBlock pa n = n := by
  have h1 := s.lt_blockBase_add (pa + (n - 1))
  have h2 := Nat.mod_le pa s.cfg.cbs
  rw [← h] at h1
  unfold State.blockBase at h1
  unfold State.inBlock
  omega

theorem State.storeEvent_of_one_block {v : List Byte} (h : s.inBlock pa v.length = v.length) :
    s.storeEvent o pa v = s.access o pa v.length (s.observerStore o pa v) := by
  simp [State.storeEvent, State.oneBlock, h]

theorem runEvent_memWrite (h : s.hart.pending = none) (addr : Word) (v : List Byte) :
    runEvent (.memWrite addr v) s = s.memWrite addr v := by
  simp [runEvent, State.byHostOut, h]

section MemWrite

variable {addr : Word} {v rest : List Byte}

/-- `MemWrite` takes the exception that the checks of its first block raise. -/
theorem State.memWrite_of_raise {k : Nat} {x : Exc} (hv : v ≠ []) (hva : s.inBlock (s.cfg.trunc addr).toNat v.length = k)
    (h : s.hostTarget .store (s.cfg.trunc addr) k = .raise x) : s.memWrite addr v = .next (s.trap x) := by
  rw [State.memWrite, State.hostAccess_of_raise (by simpa using hv) hva h]

/-- `MemWrite` of bytes that lie in one block before and after translation is a store by the executing hart. -/
theorem State.memWrite_of_one_block (hv : v ≠ []) (hva : s.inBlock (s.cfg.trunc addr).toNat v.length = v.length)
    (hpa : s.inBlock pa v.length = v.length) (h : s.hostTarget .store (s.cfg.trunc addr) v.length = .pass pa) :
    s.memWrite addr v = s.storeEvent s.self pa v := by
  rw [State.memWrite, State.hostAccess_of_pass (by simpa using hv) hva h, State.storeEvent_of_one_block hpa, Nat.sub_self,
    State.goOn_zero, List.take_length]

/-- `MemWrite` that goes on past its first block is the store of that block's bytes, with the rest put at the head of the
schedule. -/
theorem State.memWrite_across (hv : v ≠ []) (hr : rest ≠ [])
    (hva : s.inBlock (s.cfg.trunc addr).toNat (v ++ rest).length = v.length) (hpa : s.inBlock pa v.length = v.length)
    (h : s.hostTarget .store (s.cfg.trunc addr) v.length = .pass pa) (ho : s.accessOffered s.self pa v.length = true)
    (hs : s.storeEvent s.self pa v = .next t) :
    s.memWrite addr (v ++ rest) =
      .next { t with schedule := .memWrite (s.cfg.trunc addr + BitVec.ofNat 64 v.length) rest :: t.schedule } := by
  rw [State.storeEvent_of_one_block hpa] at hs
  obtain ⟨rfl, happens⟩ := State.access_next_of_offered ho hs
  rw [State.memWrite, State.hostAccess_of_pass (by simp [hv]) hva h, happens, List.take_left, List.drop_left,
    State.goOn_of_ne_zero _ _ (by simp [hr])]

end MemWrite

section Store

variable {v : List Byte}

/-- Where the set holds no copy a store changes memory at its bytes alone. -/
theorem State.observerStore_of_absent (h : s.line o pa = none) :
    (s.observerStore o pa v).line o pa = none ∧
      (∀ k < v.length, (s.observerStore o pa v).mem.read (pa + k) = v.getD k 0#8) ∧
      ∀ a, a < pa ∨ pa + v.length ≤ a → (s.observerStore o pa v).mem.read a = s.mem.read a := by
  have hmem : (s.observerStore o pa v).mem = s.mem.writeBytes pa v := by
    rw [State.observerStore_mem, s.store_of_absent o pa h]
  have hcache : (s.observerStore o pa v).cache = s.cache := by rw [State.observerStore_cache, s.store_of_absent o pa h]
  refine ⟨by rw [State.line_congr (by simp) (by simp) hcache]; exact h, fun k hk => ?_, fun a ha => ?_⟩
  · rw [hmem, Memory.read_writeBytes_inside _ _ _ hk]
  · rw [hmem, Memory.read_writeBytes_outside _ ha]

/-- Where it holds one, the store changes the copy at its bytes alone, and makes it dirty. -/
theorem State.observerStore_of_present {l : Line} (h : s.line o pa = some l) :
    (s.observerStore o pa v).mem = s.mem ∧
      (s.observerStore o pa v).line o pa = some { data := patch l.data (pa - s.blockBase pa) v, dirty := true } := by
  have hs := s.store_of_present o pa (v := v) h
  refine ⟨by rw [State.observerStore_mem, hs, State.setLine_mem], ?_⟩
  rw [State.line_congr (s := s.store o pa v) (by simp) (by simp) (by simp), hs, State.line_setLine]

end Store

/-- Settles O39: a store whose bytes lie in one block is one access, which goes to the copy or to memory, and `MemWrite` is that access
at the address its checks give. -/
theorem storeGoesToTheCopyOrToMemory : Obligations.StoreGoesToTheCopyOrToMemory := by
  intro s o pa v hv hblock may
  have hn : 0 < v.length := List.length_pos_iff.mpr hv
  have hpa : s.inBlock pa v.length = v.length := State.inBlock_of_blockBase hblock
  have event (o : ObserverId) : runEvent (.store o pa v) s = s.access o pa v.length (s.observerStore o pa v) :=
    State.storeEvent_of_one_block hpa
  have offered_iff : s.accessOffered o pa v.length = true ↔ may := State.accessOffered_iff_of_pos hn
  refine ⟨fun hmay => ?_, fun addr hp hle => ?_, fun hmay hmem => ?_⟩
  · rw [event]
    exact State.access_of_not_offered (Bool.eq_false_iff.mpr (offered_iff.not.mpr hmay)) _
  · have hva : s.inBlock (s.cfg.trunc addr).toNat v.length = v.length := Nat.min_eq_left hle
    simp only [runEvent_memWrite hp]
    refine ⟨State.memWrite_of_one_block hv hva hpa, fun x => State.memWrite_of_raise hv hva, fun hend rest hr => ?_, rfl⟩
    have hva' : s.inBlock (s.cfg.trunc addr).toNat (v ++ rest).length = v.length := by
      rw [State.inBlock, ← hend, List.length_append]
      exact Nat.min_eq_right (Nat.le_add_right _ _)
    refine ⟨fun hpass hobs t ht => ?_, fun x => State.memWrite_of_raise (by simp [hv]) hva'⟩
    exact State.memWrite_across hv hr hva' hpa hpass
      ((State.accessOffered_iff_of_pos hn).mpr ⟨State.between_self hp, hobs⟩) ht
  · refine ⟨_, (event o).trans (State.access_of_memory (offered_iff.mpr hmay) hmem _), by simp,
      fun key => s.get_store_of_ne o pa, State.observerStore_of_absent, fun l hl hlen => ?_⟩
    obtain ⟨hsame, hline⟩ := State.observerStore_of_present (v := v) hl
    refine ⟨hsame, _, hline, rfl, patch_length _ _ _, fun k hk => ?_, fun j hj hout => ?_⟩
    · have h1 := s.blockBase_le pa
      have h2 := s.lt_blockBase_add (pa + (v.length - 1))
      rw [← hblock] at h2
      rw [patch_getD _ _ _ (by omega), if_pos (by omega), show pa + k - s.blockBase pa - (pa - s.blockBase pa) = k by omega]
    · have h1 := s.blockBase_le pa
      rw [patch_getD _ _ _ hj, if_neg (by omega)]

/-! ### What an instruction's operation does to the lines of other keys (rule R109) -/

section Keys

variable {key : CacheKey}

theorem State.get_doInvalidate_of_ne (h : key ≠ s.keyOf s.self pa) :
    mapGet key (s.doInvalidate pa).cache = mapGet key s.cache := s.get_invalidate_of_ne s.self pa h

theorem State.get_doClean_of_ne (h : key ≠ s.keyOf s.self pa) :
    mapGet key (s.doClean pa).cache = mapGet key s.cache := s.get_writeDirty_of_ne s.self pa h

theorem State.get_doFlush_of_ne (h : key ≠ s.keyOf s.self pa) :
    mapGet key (s.doFlush pa).cache = mapGet key s.cache := by
  have hclean : mapGet key (s.clean s.self pa).cache = mapGet key s.cache := s.get_writeDirty_of_ne s.self pa h
  cases hf : s.cfg.flushAtomic with
  | true =>
    rw [doFlush_atomic hf]
    exact (State.get_invalidate_of_ne _ s.self pa (by simpa using h)).trans hclean
  | false => rw [doFlush_split hf]; exact hclean

/-- The key of a set that the executing hart is no member of is none of its own lines' keys. -/
theorem State.ne_keyOf_self (h : s.self ∉ key.set) (a : Nat) : key ≠ s.keyOf s.self a := by
  rintro rfl
  exact h (s.self_mem_cset s.self a)

/-- A further step of an instruction in progress changes no line of a set that the executing hart is no member of. -/
theorem get_resume_of_not_mem (h : s.self ∉ key.set) (p : Pending) : mapGet key (s.resume p).cache = mapGet key s.cache := by
  cases p with
  | zero base offsets => exact State.get_zeroGroup_of_ne fun k _ => State.ne_keyOf_self h _
  | flushInvalidate pa => exact State.get_doInvalidate_of_ne (State.ne_keyOf_self h pa)

theorem Executed.get_of_not_mem {i : Instr} (he : Executed s i t) (h : s.self ∉ key.set) :
    mapGet key t.cache = mapGet key s.cache := by
  cases he with
  | invalidate rs1 pa => exact State.get_doInvalidate_of_ne (State.ne_keyOf_self h pa)
  | clean rs1 pa => exact State.get_doClean_of_ne (State.ne_keyOf_self h pa)
  | flush i pa => exact State.get_doFlush_of_ne (State.ne_keyOf_self h pa)
  | zero rs1 pa => exact State.get_zeroGroup_of_ne fun k _ => State.ne_keyOf_self h _
  | hint i target =>
    cases target with
    | none => rfl
    | some pa => exact State.get_hintAllocate_of_ne (State.ne_keyOf_self h pa)
  | trap => rfl

end Keys

/-- Settles O40: a step of the caches or of an observer changes a line under the key of its own observer's set alone, an instruction
one under a key of the executing hart's set. -/
theorem otherSetsKeepTheirCopies : Obligations.OtherSetsKeepTheirCopies := by
  intro s t key
  refine ⟨fun o pa n v e he h hset => ?_, fun i h hself => (executed h).get_of_not_mem hself,
    fun p hself => get_resume_of_not_mem hself p⟩
  have hne : key ≠ s.keyOf o pa := fun hk => hset (congrArg CacheKey.set hk)
  simp only [List.mem_cons, List.not_mem_nil, or_false] at he
  obtain rfl | rfl | rfl | rfl | rfl := he
  · cases h; exact State.get_fill_of_ne hne
  · cases h; exact State.get_drop_of_ne hne
  · cases h; exact s.get_writeDirty_of_ne o pa hne
  · obtain rfl | ⟨k, left, next, rfl⟩ := State.loadEvent_next h <;> simp
  · obtain rfl | rfl := State.storeEvent_next h
    · rfl
    · exact s.get_store_of_ne o pa hne

/-! ### What reaches memory (rule R71) -/

/-- A byte of a block that meets the PMA constraints is in the line of the block. -/
theorem State.line_of_mem_block {a : Nat} (hp : s.pmaConstraintsMet pa = true) (ha : a ∈ s.block pa) (o : ObserverId) :
    s.line o a = s.line o pa := State.line_of_keyOf (keyOf_eq_of_pmaConstraintsMet hp ha o)

/-- A clean changes a byte of memory to that of the dirty copy which the hart's set holds of its block. -/
theorem State.read_clean_changed {a : Nat} (hfull : s.LinesFull) (hp : s.pmaConstraintsMet pa = true)
    (h : (s.clean s.self pa).mem.read a ≠ s.mem.read a) :
    ∃ l, s.line s.self a = some l ∧ l.dirty = true ∧
      (s.clean s.self pa).mem.read a = l.data.getD (a - s.blockBase a) 0#8 := by
  obtain ⟨ha, l, hl, hd, hread⟩ := s.read_writeDirty_changed s.self pa (fun _ => hfull.line) h
  exact ⟨l, (State.line_of_mem_block hp ha _).trans hl, hd, by rw [State.mem_block_iff_base.mp ha]; exact hread⟩

/-- Settles O41: the operations that write memory, `CBO.ZERO`'s stores apart, are a clean and a WriteBack. -/
theorem onlyDirtyCopiesReachMemory : Obligations.OnlyDirtyCopiesReachMemory := by
  intro s hinv
  refine ⟨fun i t a h hz hne => ?_, fun o pa e t a he h hne => ?_, fun pa => ?_⟩
  · cases executed h with
    | invalidate rs1 pa => exact absurd (by simp [State.doInvalidate]) hne
    | clean rs1 pa hp => exact State.read_clean_changed hinv.linesFull hp hne
    | flush i pa hp =>
      rw [doFlush_mem] at hne ⊢
      exact State.read_clean_changed hinv.linesFull hp hne
    | zero rs1 pa => exact absurd rfl (hz rs1)
    | hint i target => exact absurd (by simp) hne
    | trap => exact absurd rfl hne
  · simp only [List.mem_cons, List.not_mem_nil, or_false] at he
    obtain rfl | rfl | rfl := he
    · cases h; exact absurd (by rw [State.fill_mem]) hne
    · cases h; exact absurd (by rw [State.drop_mem]) hne
    · cases h; exact s.read_writeDirty_changed o pa (fun _ => hinv.linesFull.line) hne
  · simp [State.resume, State.finishFlush, State.doInvalidate]

end Sys2Proof.Machine
end

section
/-!
PROOFS. The statements of 40_cbo_management.md, 41_cbo_write.md and 42_cbo_hint.md about what an instruction that passes its tests does
to its block (spec rules R104, R108, R110 to R112, R142 to R144, R152, R162), and those of 20_memory.md and 70_reset_and_hazards.md
about what an observer sees after it (rules R73, R117, R234).
-/

namespace Sys2Proof.Machine

variable {s t u : State} {o : ObserverId} {pa a : Nat}

/-! ### What an observer sees (rule R103) -/

theorem State.view_of_absent (h : s.line o a = none) : s.view o a = s.mem.read a := by
  simp [State.view, h]

theorem State.view_of_present {l : Line} (h : s.line o a = some l) : s.view o a = l.data.getD (a - s.blockBase a) 0#8 := by
  simp [State.view, h]

/-- The PMA constraints speak of the configuration and the regions alone. -/
theorem State.pmaConstraintsMet_congr (hc : t.cfg = s.cfg) (hr : t.regions = s.regions) :
    t.pmaConstraintsMet = s.pmaConstraintsMet := by
  funext pa
  simp [State.pmaConstraintsMet, State.block_congr hc, State.attrs_congr hc hr]

theorem Untouched.pmaConstraintsMet (h : Untouched s t) : t.pmaConstraintsMet = s.pmaConstraintsMet :=
  State.pmaConstraintsMet_congr h.cfg h.regions

theorem State.offset_mem_block {k : Nat} (h : k < s.cfg.cbs) : s.blockBase pa + k ∈ s.block pa := by
  rw [State.mem_block]; omega

/-- An offset in a block is found again from the address. -/
theorem State.offset_eq {k : Nat} (h : k < s.cfg.cbs) : s.blockBase pa + k - s.blockBase (s.blockBase pa + k) = k := by
  rw [s.blockBase_add pa h]; omega

/-! ### No other block is touched -/

theorem OtherBlocksSame.congr (h : OtherBlocksSame s t pa) (hm : u.mem = t.mem) (hk : u.cache = t.cache) :
    OtherBlocksSame s u pa :=
  ⟨fun k hne => hk ▸ h.lines k hne, fun a ha => hm ▸ h.mem a ha⟩

theorem OtherBlocksSame.trans (h : OtherBlocksSame s t pa) (hf : Untouched s t) (h' : OtherBlocksSame t u pa) :
    OtherBlocksSame s u pa := by
  have hkey : t.keyOf = s.keyOf := State.keyOf_congr hf.cfg hf.regions
  have hblock : t.block = s.block := State.block_congr hf.cfg
  obtain ⟨lines, mem⟩ := h'
  rw [hkey, hf.self] at lines
  rw [hblock] at mem
  exact ⟨fun k hk => (lines k hk).trans (h.lines k hk), fun a ha => (mem a ha).trans (h.mem a ha)⟩

section Operations

variable (hfull : s.LinesFull)
include hfull

theorem otherBlocksSame_clean (pa : Nat) : OtherBlocksSame s (s.clean s.self pa) pa :=
  ⟨fun _ hk => s.get_writeDirty_of_ne s.self pa hk,
    fun _ ha => s.read_writeDirty_outside s.self pa (fun _ => hfull.line) ha⟩

theorem otherBlocksSame_doClean (pa : Nat) : OtherBlocksSame s (s.doClean pa) pa :=
  (otherBlocksSame_clean hfull pa).congr rfl rfl

theorem otherBlocksSame_doFlush (pa : Nat) : OtherBlocksSame s (s.doFlush pa) pa where
  lines _ hk := State.get_doFlush_of_ne hk
  mem := by rw [doFlush_mem]; exact (otherBlocksSame_clean hfull pa).mem

/-- Memory in the block after a clean or a flush. -/
theorem State.read_clean_inside {k : Nat} (hk : k < s.cfg.cbs) :
    (s.clean s.self pa).mem.read (s.blockBase pa + k) = s.writtenByte s.self pa k :=
  State.read_writeDirty_inside (fun _ => hfull.line) hk

theorem State.read_doFlush_inside {k : Nat} (hk : k < s.cfg.cbs) :
    (s.doFlush pa).mem.read (s.blockBase pa + k) = s.writtenByte s.self pa k := by
  rw [doFlush_mem, State.read_clean_inside hfull hk]

end Operations

/-! ### The line of the block -/

theorem State.line_doInvalidate (h : s.keyOf o a = s.keyOf s.self pa) : (s.doInvalidate pa).line o a = none := by
  simp [State.doInvalidate, State.line, h]

theorem State.line_doClean : (s.doClean pa).line s.self pa = (s.line s.self pa).map (fun l => { l with dirty := false }) := by
  rw [← s.line_writeDirty s.self pa]
  exact congrFun (congrFun (State.line_congr (s := s.writeDirty s.self pa) rfl rfl rfl) _) _

theorem State.line_doFlush_atomic (h : s.cfg.flushAtomic = true) : (s.doFlush pa).line s.self pa = none := by
  rw [doFlush_atomic h, State.line_retire]
  exact State.line_invalidate _ s.self pa

theorem State.line_doFlush_split (h : s.cfg.flushAtomic = false) :
    (s.doFlush pa).line s.self pa = (s.line s.self pa).map (fun l => { l with dirty := false }) := by
  rw [doFlush_split h, ← s.line_writeDirty s.self pa]
  exact congrFun (congrFun (State.line_congr (s := s.writeDirty s.self pa) rfl rfl rfl) _) _

/-! ### The management instructions (rules R110 to R112, R142 to R144) -/

/-- A `CBO.INVAL` that passes every test performs the operation that the control registers choose (rule R188). -/
theorem exec_cboInval_of_may {rs1 : RegNum} {q : Checked} (h : MayManage s (.cboInval rs1) .inval q) :
    exec (.cboInval rs1) s =
      .next (if performsInvalidate s.hart.cmo s.effMode q.s1 q.g q.wm then s.doInvalidate q.pa else s.doFlush q.pa) :=
  manage_of_may _ h

/-- `CBO.FLUSH`, and a `CBO.INVAL` that the control registers turn into a flush, perform the flush. -/
theorem exec_flush_of_may {i : Instr} {k : OpClass} {rs1 : RegNum} {q : Checked} (h : MayManage s i k q)
    (hi : (i = .cboFlush rs1 ∧ k = .mgmt) ∨
      (i = .cboInval rs1 ∧ k = .inval ∧ performsInvalidate s.hart.cmo s.effMode q.s1 q.g q.wm = false)) :
    exec i s = .next (s.doFlush q.pa) := by
  obtain ⟨rfl, rfl⟩ | ⟨rfl, rfl, hno⟩ := hi
  · exact manage_of_may _ h
  · rw [exec_cboInval_of_may h, hno]; rfl

theorem MayManage.pmaConstraintsMet {i : Instr} {k : OpClass} {q : Checked} (h : MayManage s i k q) :
    s.pmaConstraintsMet q.pa = true := pmaConstraintsMet_of_checkAddr h.address

/-- Settles O43: the invalidate takes the line of the block away and leaves the rest, so that whoever shares it sees memory. -/
theorem cboInvalInvalidates : Obligations.CboInvalInvalidates := by
  intro s rs1 q h hinv
  have hmem : (s.doInvalidate q.pa).mem = s.mem := by simp [State.doInvalidate]
  refine ⟨s.doInvalidate q.pa, by rw [exec_cboInval_of_may h, hinv]; rfl, completed_doInvalidate s q.pa,
    otherBlocksSame_doInvalidate s q.pa, State.line_doInvalidate rfl, hmem, fun a ha o _ hset => ?_⟩
  have hkey : s.keyOf o a = s.keyOf s.self q.pa := by simp [State.keyOf, hset, State.mem_block_iff_base.mp ha]
  rw [State.view_of_absent (State.line_doInvalidate hkey), hmem]

/-- Settles O46. -/
theorem cboCleanWritesDirtyBlock : Obligations.CboCleanWritesDirtyBlock := by
  intro s rs1 q hinv h
  exact ⟨s.doClean q.pa, manage_of_may _ h, completed_doClean s q.pa, otherBlocksSame_doClean hinv.linesFull q.pa,
    State.line_doClean, fun j hj => State.read_clean_inside hinv.linesFull hj⟩

theorem completed_doFlush (h : s.cfg.flushAtomic = true) (pa : Nat) : Completed s (s.doFlush pa) := by
  rw [doFlush_atomic h]; exact (quiet_flush s pa).completed

/-- Settles O44: a flush in one step is a clean and then an invalidate of one block. -/
theorem flushWritesAndRemoves : Obligations.FlushWritesAndRemoves := by
  intro s i k rs1 q hinv hat h hi
  exact ⟨s.doFlush q.pa, exec_flush_of_may h hi, completed_doFlush hat q.pa, otherBlocksSame_doFlush hinv.linesFull q.pa,
    State.line_doFlush_atomic hat, fun j hj => State.read_doFlush_inside hinv.linesFull hj⟩

theorem inProgress_doFlush (h : s.cfg.flushAtomic = false) (pa : Nat) : InProgress s (s.doFlush pa) := by
  rw [doFlush_split h]; exact (quiet_clean s pa .clean).inProgress _

theorem pending_doFlush (h : s.cfg.flushAtomic = false) (pa : Nat) :
    (s.doFlush pa).hart.pending = some (.flushInvalidate (s.blockBase pa)) := by
  rw [doFlush_split h]; rfl

/-- The second step of a flush, taken from whatever state, is an invalidate of the block of the address the first step was given. -/
theorem resume_flushInvalidate (hc : u.cfg = s.cfg) (hp : u.pmaConstraintsMet pa = true) :
    u.resume (.flushInvalidate (s.blockBase pa)) = u.doInvalidate pa := by
  rw [← State.blockBase_congr hc]
  exact doInvalidate_of_keyOf (u.keyOf_block (u.blockBase_blockBase pa) hp u.self)

/-- What the second step of a flush does, from whatever state. -/
theorem flushInvalidate_completes (hc : u.cfg = s.cfg) (hp : u.pmaConstraintsMet pa = true) :
    let w := u.resume (.flushInvalidate (s.blockBase pa))
    Completed u w ∧ OtherBlocksSame u w pa ∧ w.line u.self pa = none ∧ w.mem = u.mem := by
  intro w
  have hw : w = u.doInvalidate pa := resume_flushInvalidate hc hp
  rw [hw]
  exact ⟨completed_doInvalidate u pa, otherBlocksSame_doInvalidate u pa, State.line_doInvalidate rfl,
    by simp [State.doInvalidate]⟩

/-- Settles O45: the first step is a clean, and the second an invalidate of the same block, from the first step's state or from
whatever other state. -/
theorem flushInTwoSteps : Obligations.FlushInTwoSteps := by
  intro s i k rs1 q hinv hat h hi
  have hfull := hinv.linesFull
  have hprog := inProgress_doFlush hat q.pa
  have hother := otherBlocksSame_doFlush hfull q.pa
  have hp : (s.doFlush q.pa).pmaConstraintsMet q.pa = true := by
    rw [hprog.frame.pmaConstraintsMet]; exact h.pmaConstraintsMet
  obtain ⟨hdone, hsame, hline, hmem⟩ := flushInvalidate_completes hprog.frame.cfg hp
  rw [hprog.frame.self] at hline
  exact ⟨s.doFlush q.pa, exec_flush_of_may h hi, hprog, hother, State.line_doFlush_split hat,
    fun j hj => State.read_doFlush_inside hfull hj, _, pending_doFlush hat q.pa, hprog.completed hdone,
    hother.trans hprog.frame hsame, hline, hmem, fun u hc hu => flushInvalidate_completes hc hu⟩

/-! ### `CBO.ZERO` (rules R108, R152) -/

theorem MayZero.pmaConstraintsMet {rs1 : RegNum} {q : Checked} (h : MayZero s rs1 q) : s.pmaConstraintsMet q.pa = true :=
  pmaConstraintsMet_of_checkAddr h.address

/-- A list of bytes each of which is zero. -/
theorem eq_replicate_of_getD {d : List Byte} {n : Nat} (hn : d.length = n) (h : ∀ k < n, d.getD k 0#8 = 0#8) :
    d = List.replicate n 0#8 := by
  refine List.ext_getElem (by simp [hn]) fun k hk _ => ?_
  have := h k (hn ▸ hk)
  rw [List.getD_eq_getElem _ _ hk] at this
  rw [this, List.getElem_replicate]

/-- One group of all the offsets zeroes the block where the executing hart sees it. -/
theorem State.view_zeroGroup_range (hfull : s.LinesFull) (hnow : zeroNow s.zeroPlan (List.range s.cfg.cbs) = List.range s.cfg.cbs)
    (ha : a ∈ s.block pa) : (s.zeroGroup (s.blockBase pa) (List.range s.cfg.cbs)).view s.self a = 0#8 := by
  rw [State.mem_block] at ha
  rw [State.view_zeroGroup hfull, hnow, if_pos ⟨a - s.blockBase pa, List.mem_range.mpr (by omega), by omega⟩]

section Zero

variable {offsets : List Nat} (hp : s.pmaConstraintsMet pa = true)
include hp

/-- Where the set holds no copy of the block, the stores of a group go to memory. -/
theorem State.zeroGroup_of_absent (hk : ∀ k ∈ offsets, k < s.cfg.cbs) (hl : s.line s.self pa = none) :
    (s.zeroGroup (s.blockBase pa) offsets).cache = s.cache ∧ ∀ a, (s.zeroGroup (s.blockBase pa) offsets).mem.read a =
      if ∃ k ∈ zeroNow s.zeroPlan offsets, a = s.blockBase pa + k then 0#8 else s.mem.read a := by
  obtain ⟨hmem, hcache, -⟩ := s.zeroGroup_stores (s.blockBase pa) offsets
  rw [hmem, hcache]
  refine State.zeroBytes_of_absent (s := { s with zeroPlan := s.zeroPlan.tail }) fun k hnow => ?_
  exact (State.line_of_mem_block hp (State.offset_mem_block (hk k (mem_of_mem_zeroNow hnow))) s.self).trans hl

/-- Where it holds a copy, they go to the copy, which is dirty then. -/
theorem State.zeroGroup_of_present {l : Line} (hk : ∀ k ∈ offsets, k < s.cfg.cbs) (hne : zeroNow s.zeroPlan offsets ≠ [])
    (hl : s.line s.self pa = some l) :
    (s.zeroGroup (s.blockBase pa) offsets).mem = s.mem ∧
      ∃ l', mapGet (s.keyOf s.self pa) (s.zeroGroup (s.blockBase pa) offsets).cache = some l' ∧
        l'.data.length = l.data.length ∧ l'.dirty = true := by
  obtain ⟨hmem, hcache, -⟩ := s.zeroGroup_stores (s.blockBase pa) offsets
  rw [hmem, hcache]
  obtain ⟨hm, l', hl', hlen, hdirty, -⟩ := State.zeroBytes_of_present (s := { s with zeroPlan := s.zeroPlan.tail })
    (base := s.blockBase pa) (ks := zeroNow s.zeroPlan offsets) (key := s.keyOf s.self pa)
    (fun k hnow => keyOf_eq_of_pmaConstraintsMet hp (State.offset_mem_block (hk k (mem_of_mem_zeroNow hnow))) s.self) hl
  exact ⟨hm, l', hl', hlen, hdirty hne⟩

end Zero

/-- A line that a hart sees as zero throughout holds zeros. -/
theorem State.data_of_view_zero {l : Line} (hfull : s.LinesFull) (hp : s.pmaConstraintsMet pa = true) (hl : s.line o pa = some l)
    (hz : ∀ a ∈ s.block pa, s.view o a = 0#8) : l.data = List.replicate s.cfg.cbs 0#8 := by
  refine eq_replicate_of_getD (hfull.line hl) fun k hk => ?_
  have hmem := State.offset_mem_block (s := s) (pa := pa) hk
  have hview := hz _ hmem
  rwa [State.view_of_present ((State.line_of_mem_block hp hmem o).trans hl), State.offset_eq hk] at hview

theorem State.LinesFull.zeroGroup (h : s.LinesFull) (base : Nat) (offsets : List Nat) : (s.zeroGroup base offsets).LinesFull := by
  have hstores : State.LinesFull { s with zeroPlan := s.zeroPlan.tail } := h.congr rfl rfl
  have hf : Untouched s (s.zeroGroup base offsets) := (zeroGroup_cases s base offsets).elim (·.frame) (·.frame)
  exact (hstores.zeroBytes base (zeroNow s.zeroPlan offsets)).congr (by simp [hf.cfg]) (s.zeroGroup_stores base offsets).2.1

/-- Settles O47: with no grouping planned, the one group holds every offset of the block. -/
theorem cboZeroZeroesItsBlock : Obligations.CboZeroZeroesItsBlock := by
  intro s rs1 q hinv hplan h
  have hfull := hinv.linesFull
  have hp := h.pmaConstraintsMet
  have hnow : zeroNow s.zeroPlan (List.range s.cfg.cbs) = List.range s.cfg.cbs := by rw [hplan]; rfl
  have hk : ∀ k ∈ List.range s.cfg.cbs, k < s.cfg.cbs := fun k => List.mem_range.mp
  have hdone : Completed s (s.zeroGroup (s.blockBase q.pa) (List.range s.cfg.cbs)) :=
    State.zeroGroup_completes fun k hk => by rwa [hnow]
  have hview : ∀ a ∈ s.block q.pa, (s.zeroGroup (s.blockBase q.pa) (List.range s.cfg.cbs)).view s.self a = 0#8 :=
    fun a => State.view_zeroGroup_range hfull hnow
  refine ⟨_, cboZero_of_may h, hdone, otherBlocksSame_zeroGroup hp hk, hview, fun hl => ?_, fun l hl => ?_⟩
  · obtain ⟨hcache, hmem⟩ := State.zeroGroup_of_absent hp hk hl
    have hline := State.line_congr hdone.frame.cfg hdone.frame.regions hcache
    refine ⟨by rw [hline]; exact hl, fun a ha => ?_⟩
    rw [← hview a ha, State.view_of_absent]
    rw [hline, State.line_of_mem_block hp ha]; exact hl
  · have hne : zeroNow s.zeroPlan (List.range s.cfg.cbs) ≠ [] := by
      rw [hnow, ne_eq, List.range_eq_nil]; exact (Config.cbs_pos s.cfg).ne'
    obtain ⟨hmem, l', hl', -, hdirty⟩ := State.zeroGroup_of_present hp hk hne hl
    have hline : (s.zeroGroup (s.blockBase q.pa) (List.range s.cfg.cbs)).line s.self q.pa = some l' := by
      rw [State.line, State.keyOf_congr hdone.frame.cfg hdone.frame.regions]; exact hl'
    have hdata := State.data_of_view_zero (hfull.zeroGroup _ _)
      (by rw [hdone.frame.pmaConstraintsMet]; exact hp) hline
      (by rw [State.block_congr hdone.frame.cfg]; exact hview)
    refine ⟨hmem, hline.trans ?_⟩
    rw [← hdirty, ← hdone.frame.cfg, ← hdata]

/-! ### `CBO.ZERO` in any grouping (rules R75, R152) -/

/-- What the byte stores at the offsets of a block leave, all of them together, once the instruction is complete. -/
structure Zeroed (s t : State) (pa : Nat) (offsets : List Nat) : Prop where
  completed : Completed s t
  others    : OtherBlocksSame s t pa
  view      : ∀ a, t.view s.self a = if ∃ k ∈ offsets, a = s.blockBase pa + k then 0#8 else s.view s.self a

theorem resumeTimes_of_idle (h : s.hart.pending = none) (n : Nat) : resumeTimes n s = s := by
  cases n with
  | zero => rfl
  | succ n => simp [resumeTimes, h]

theorem resumeTimes_succ {p : Pending} (h : s.hart.pending = some p) (n : Nat) :
    resumeTimes (n + 1) s = resumeTimes n (s.resume p) := by
  simp [resumeTimes, h]

/-- The offsets left are those of the next group and those after it. -/
theorem mem_zeroNow_or_zeroLater {plan : List (List Nat)} {offsets : List Nat} {k : Nat} :
    k ∈ offsets ↔ k ∈ zeroNow plan offsets ∨ k ∈ zeroLater plan offsets := by
  rw [mem_zeroLater]
  have := mem_of_mem_zeroNow (plan := plan) (offsets := offsets) (k := k)
  tauto

/-- A group that leaves the instruction in progress, and then the rest of it, which leaves it complete. -/
theorem Zeroed.after_group {now later offsets : List Nat} (h : Zeroed t u pa later) (hprog : InProgress s t)
    (hother : OtherBlocksSame s t pa)
    (hview : ∀ a, t.view s.self a = if ∃ k ∈ now, a = s.blockBase pa + k then 0#8 else s.view s.self a)
    (hsplit : ∀ k, k ∈ offsets ↔ k ∈ now ∨ k ∈ later) : Zeroed s u pa offsets where
  completed := hprog.completed h.completed
  others := hother.trans hprog.frame h.others
  view a := by
    have hrest := h.view a
    rw [hprog.frame.self, State.blockBase_congr hprog.frame.cfg, hview a] at hrest
    rw [hrest]
    by_cases hl : ∃ k ∈ later, a = s.blockBase pa + k
    · obtain ⟨k, hk, e⟩ := hl
      rw [if_pos ⟨k, hk, e⟩, if_pos ⟨k, (hsplit k).mpr (.inr hk), e⟩]
    · rw [if_neg hl]
      refine if_congr (exists_congr fun k => and_congr_left fun e => ?_) rfl rfl
      rw [hsplit, or_iff_left fun hk => hl ⟨k, hk, e⟩]

/-- A group after which nothing is left. -/
theorem zeroed_of_last_group {offsets : List Nat} (h : s.Inv) (hp : s.pmaConstraintsMet pa = true)
    (hk : ∀ k ∈ offsets, k < s.cfg.cbs) (hall : ∀ k ∈ offsets, k ∈ zeroNow s.zeroPlan offsets) :
    Zeroed s (s.zeroGroup (s.blockBase pa) offsets) pa offsets where
  completed := State.zeroGroup_completes hall
  others := otherBlocksSame_zeroGroup hp hk
  view a := by
    rw [State.view_zeroGroup h.linesFull]
    exact if_congr (exists_congr fun k => and_congr_left fun _ => ⟨mem_of_mem_zeroNow, hall k⟩) rfl rfl

/-- As many further steps as groups are planned complete the instruction: each takes one group off the plan, and after the last the
rest is one group. -/
theorem zeroed_resumeTimes {n : Nat} (hn : s.zeroPlan.length = n) (h : s.Inv) (hp : s.pmaConstraintsMet pa = true)
    {offsets : List Nat} (hk : ∀ k ∈ offsets, k < s.cfg.cbs) :
    Zeroed s (resumeTimes n (s.zeroGroup (s.blockBase pa) offsets)) pa offsets := by
  induction n generalizing s offsets with
  | zero =>
    refine zeroed_of_last_group h hp hk fun k hmem => ?_
    rw [List.eq_nil_of_length_eq_zero hn]
    exact hmem
  | succ n ih =>
    by_cases hall : ∀ k ∈ offsets, k ∈ zeroNow s.zeroPlan offsets
    · have hlast := zeroed_of_last_group h hp hk hall
      rwa [resumeTimes_of_idle (by rw [hlast.completed.hart])]
    · obtain ⟨k, hmem, hnot⟩ := not_forall₂.mp hall
      obtain ⟨hprog, hpend⟩ := State.zeroGroup_goes_on (s := s) (base := s.blockBase pa) hmem hnot
      have hplan := (s.zeroGroup_stores (s.blockBase pa) offsets).2.2
      have hrest := ih (s := s.zeroGroup (s.blockBase pa) offsets) (offsets := zeroLater s.zeroPlan offsets)
        (by rw [hplan, List.length_tail, hn, Nat.add_sub_cancel]) (h.zeroGroup (s.blockBase_mod pa) hk)
        (by rw [hprog.frame.pmaConstraintsMet]; exact hp)
        (fun j hj => by rw [hprog.frame.cfg]; exact hk j (mem_zeroLater.mp hj).1)
      rw [State.blockBase_congr hprog.frame.cfg] at hrest
      rw [resumeTimes_succ hpend]
      exact hrest.after_group hprog (otherBlocksSame_zeroGroup hp hk) (State.view_zeroGroup h.linesFull _ _)
        fun k => mem_zeroNow_or_zeroLater

/-- Settles O48: the groups together zero the block, and one group, from whatever state, zeroes its own bytes and leaves the rest in
progress. -/
theorem cboZeroInAnyGrouping : Obligations.CboZeroInAnyGrouping := by
  intro s rs1 q hinv h
  have hk : ∀ k ∈ List.range s.cfg.cbs, k < s.cfg.cbs := fun k => List.mem_range.mp
  obtain ⟨hdone, hother, hview⟩ := zeroed_resumeTimes rfl hinv h.pmaConstraintsMet hk
  refine ⟨_, cboZero_of_may h, zeroGroup_cases s _ _, hdone.hart, fun a ha => ?_, hother, fun v later hv hc hp hlater => ?_⟩
  · rw [State.mem_block] at ha
    rw [hview, if_pos ⟨a - s.blockBase q.pa, List.mem_range.mpr (by omega), by omega⟩]
  · intro base w now
    have hnow : now = zeroNow v.zeroPlan later := rfl
    have hbase : base = v.blockBase q.pa := by rw [State.blockBase_congr hc]
    have hw : w = v.zeroGroup base later := rfl
    have hview := State.view_zeroGroup hv.linesFull base later
    rw [hw, hnow]
    refine ⟨hbase ▸ otherBlocksSame_zeroGroup hp (hc ▸ hlater), (v.zeroGroup_stores base later).2.2, fun k hk => ?_,
      fun a ha => ?_, State.zeroGroup_completes, ?_⟩
    · rw [hview, if_pos ⟨k, hk, rfl⟩]
    · rw [hview, if_neg]
      rintro ⟨k, hk, e⟩
      exact ha k hk e
    · rintro ⟨k, hk, hnot⟩
      obtain ⟨hprog, hpend⟩ := State.zeroGroup_goes_on (s := v) (base := base) hk hnot
      exact ⟨hprog, _, hpend, fun j => mem_zeroLater⟩

/-! ### The hint instructions (rules R104, R162) -/

/-- Settles O50: where the checks pass and the caches choose to allocate, the allocation is the Fill that is offered. -/
theorem hintsMayAllocateTheBlock : Obligations.HintsMayAllocateTheBlock := by
  intro s i pa rest hi htr hst hpma hper hfills hoff
  have halloc : s.hintAllocate (some pa) =
      (State.markDiffering { s with hintFills := rest } s.self pa).setLine s.self pa { data := s.memBlock pa, dirty := false } := by
    simp only [State.hintAllocate, hfills]
    exact State.fill_of_offered { s with hintFills := rest } s.self pa hoff
  refine ⟨_, exec_hint_of_target hi htr (hintTarget_of_permitted hst hpma hper), (quiet_hintAllocate s (some pa)).completed, ?_,
    s.hintAllocate_mem _, ?_⟩
  · simp [halloc]
  · rw [State.line_retire, halloc, State.line_setLine]

/-! ### Stale data and its defence (rules R73, R117, R234) -/

/-- A byte of a block that a hart's set holds, as the hart sees it. -/
theorem State.view_of_line {l : Line} {k : Nat} (hp : s.pmaConstraintsMet pa = true) (hl : s.line o pa = some l)
    (hk : k < s.cfg.cbs) : s.view o (s.blockBase pa + k) = l.data.getD k 0#8 := by
  rw [State.view_of_present ((State.line_of_mem_block hp (State.offset_mem_block hk) o).trans hl), State.offset_eq hk]

/-- After an invalidate the hart sees memory in the block. -/
theorem State.view_doInvalidate (hp : s.pmaConstraintsMet pa = true) (ha : a ∈ s.block pa) :
    (s.doInvalidate pa).view s.self a = s.mem.read a := by
  rw [State.view_of_absent (State.line_doInvalidate (keyOf_eq_of_pmaConstraintsMet hp ha s.self))]
  simp [State.doInvalidate]

/-- Settles O59: the invalidate shows memory, which the clean before it made equal to the copy. -/
theorem invalidateExposesStaleData : Obligations.InvalidateExposesStaleData := by
  intro s pa j l hl hd hlen hp hj
  have ha := State.offset_mem_block (s := s) (pa := pa) hj
  refine ⟨State.view_of_line hp hl hj, State.view_doInvalidate hp ha, ?_⟩
  have hpc : (s.clean s.self pa).pmaConstraintsMet pa = true := by
    rw [State.pmaConstraintsMet_congr (s := s) (by simp) (by simp)]; exact hp
  have hview := State.view_doInvalidate hpc (a := s.blockBase pa + j) (by simpa using ha)
  rw [State.clean_self] at hview
  rw [hview]
  refine (State.read_writeDirty_inside (fun m hm => ?_) hj).trans (State.writtenByte_of_dirty hl hd j)
  rw [← hlen, Option.some.inj (hm.symm.trans hl)]

/-- Settles O60: memory holds the copy's bytes after the clean, the hart sees its copy still, and the observer, which holds none and
whose line is not the one cleaned, sees memory. -/
theorem cleanMakesStoresAppearOutside : Obligations.CleanMakesStoresAppearOutside := by
  intro s rs1 q n l hinv h hl hd hn
  refine ⟨s.doClean q.pa, manage_of_may _ h, fun a ha => ?_⟩
  have hp := h.pmaConstraintsMet
  have hfull := hinv.linesFull
  obtain ⟨k, hk, rfl⟩ : ∃ k < s.cfg.cbs, s.blockBase q.pa + k = a := by simpa [State.block] using ha
  have hself : s.view s.self (s.blockBase q.pa + k) = l.data.getD k 0#8 := State.view_of_line hp hl hk
  have hline : (s.doClean q.pa).line s.self q.pa = some { l with dirty := false } := by
    rw [State.line_doClean, hl, Option.map_some]
  have hpd : (s.doClean q.pa).pmaConstraintsMet q.pa = true := by
    rw [(completed_doClean s q.pa).frame.pmaConstraintsMet]; exact hp
  have hkey : s.keyOf n (s.blockBase q.pa + k) ≠ s.keyOf s.self q.pa := fun e => by
    have := hn _ ha
    rw [State.line, e, ← State.line, hl] at this
    cases this
  have habsent : (s.doClean q.pa).line n (s.blockBase q.pa + k) = none := by
    rw [State.line, show (s.doClean q.pa).keyOf = s.keyOf by simp [State.doClean], State.get_doClean_of_ne hkey]
    exact hn _ ha
  have hbase : (s.doClean q.pa).blockBase q.pa = s.blockBase q.pa := by simp [State.doClean]
  have hread : (s.doClean q.pa).mem.read (s.blockBase q.pa + k) = l.data.getD k 0#8 :=
    (State.read_clean_inside hfull hk).trans (State.writtenByte_of_dirty hl hd k)
  refine ⟨by rw [State.view_of_absent habsent, hread, hself], ?_⟩
  rw [hself, ← hbase, State.view_of_line hpd hline (by simpa [State.doClean] using hk)]

end Sys2Proof.Machine
end

section
/-!
PROOFS. The statements of 10_state.md: the general registers (spec rule R21), the control registers and who reaches them (rules R37 to
R40), the effective mode (rule R26), the fetch and the step of the hart (rules R22, R93, R112, R116), and what reset leaves (rules R48,
R231).
-/

namespace Sys2Proof.Machine

variable {s r : State} {c : Config} {h : Hart}

/-! ### General registers (rule R21) -/

theorem State.readX_writeX_self {i : RegNum} (hi : i ≠ 0) (v : Word) : (s.writeX i v).readX i = s.cfg.trunc v := by
  simp [State.readX, State.writeX, hi]

theorem State.readX_writeX_of_ne {i j : RegNum} (hj : j ≠ i) (v : Word) : (s.writeX i v).readX j = s.readX j := by
  have hne : (i : Nat) ≠ j := fun e => hj (Fin.ext e.symm)
  unfold State.readX State.writeX
  split
  · rfl
  · split
    · rfl
    · simp [Vector.getElem_set_ne, hne]

/-- Settles O9. -/
theorem registersHoldWhatWasWritten : Obligations.RegistersHoldWhatWasWritten := fun _ _ _ v =>
  ⟨rfl, rfl, fun hi => State.readX_writeX_self hi v, fun hj => State.readX_writeX_of_ne hj v⟩

/-! ### Control registers (rules R37 to R40) -/

theorem CmoCsrs.get_set_self (k : CmoCsrs) (q : CmoReg) (v : Word) : (k.set q v).get q = v := by
  cases q <;> rfl

theorem CmoCsrs.get_set_of_ne {q q' : CmoReg} (hne : q' ≠ q) (k : CmoCsrs) (v : Word) : (k.set q v).get q' = k.get q' := by
  revert hne
  cases q <;> cases q' <;> simp [CmoCsrs.get, CmoCsrs.set]

/-- The bits outside the six fields. -/
theorem cmoFieldMask_reserved {b : Nat} (hb : b ∉ [0, 1, 8, 9, 10, 11]) : cmoFieldMask.getLsbD b = false := by
  have below : ∀ b < 12, b ∉ [0, 1, 8, 9, 10, 11] → cmoFieldMask.getLsbD b = false := by decide
  by_cases h12 : b < 12
  · exact below b h12 hb
  · exact BitVec.getLsbD_of_ge _ _ (by omega)

/-- Reserved bits hold 0 (rule R37). -/
theorem legalise_reserved (w : WarlShape) (v : Word) {b : Nat} (hb : b ∉ [0, 1, 8, 9, 10, 11]) :
    (legalise w v).getLsbD b = false := by
  simp [legalise, BitVec.getLsbD_setWidth, cmoFieldMask_reserved hb]

/-- A well-formed shape has no reserved bit to write or to fix, so the reserved bits need no mask of their own (rule R38). -/
theorem legalise_of_wellFormed {w : WarlShape} (hw : w.wellFormed = true) (v : Word) :
    legalise w v = ((v.setWidth 12 &&& w.wmask) ||| w.fixed).setWidth 64 := by
  simp only [WarlShape.wellFormed, Bool.and_eq_true, beq_iff_eq] at hw
  obtain ⟨⟨-, hmask⟩, hfixed⟩ := hw
  have inside : ∀ x : BitVec 12, x &&& ~~~cmoFieldMask = 0#12 → x &&& cmoFieldMask = x := by decide
  unfold legalise
  rw [BitVec.and_or_distrib_right, BitVec.and_assoc, inside _ hmask, inside _ hfixed]

/-- Settles O12: between instructions the event is the read or the write, and the register reached alone is written. -/
theorem controlRegisterWriteIsWarl : Obligations.ControlRegisterWriteIsWarl := by
  intro s num v rd r hp hr hw held
  have hheld : legalise (r.shape s.cfg) v = held := legalise_of_wellFormed hw v
  refine ⟨⟨s.hart.cmo.set r held, ?_, CmoCsrs.get_set_self _ r held, fun b hb => hheld ▸ legalise_reserved _ v hb,
    fun q hq => CmoCsrs.get_set_of_ne hq _ held⟩, ?_⟩
  · simp [runEvent, State.byHost_of_between hp, State.csrWrite, hr, hheld]
  · simp [runEvent, State.byHost_of_between hp, State.csrRead, hr]

/-- Settles O13: the modes' chains of numbers, each followed by the test that the register is present. -/
theorem controlRegisterAccessByMode : Obligations.ControlRegisterAccessByMode := by
  intro c m num number
  refine ⟨fun r h => ?_, ?_⟩
  · obtain ⟨hreached, hpresent⟩ := Option.filter_eq_some_iff.mp h
    refine ⟨hpresent, ?_⟩
    cases m with
    | M =>
      dsimp only at hreached
      split_ifs at hreached with h1 h2 h3 h4 <;> cases hreached <;> exact .inl ⟨rfl, ‹_›⟩
    | S =>
      dsimp only at hreached
      split_ifs at hreached with h1 h2 h3 <;> cases hreached <;> exact .inr (.inl ⟨rfl, by decide, ‹_›⟩)
    | VS =>
      dsimp only at hreached
      split_ifs at hreached with h1
      cases hreached
      simp only [Bool.and_eq_true, beq_iff_eq] at h1
      exact .inr (.inr ⟨rfl, h1.1, h1.2, rfl⟩)
    | U => cases hreached
    | VU => cases hreached
  · simp only [List.mem_cons, List.not_mem_nil, or_false, not_or]
    simp +contextual [cmoRegOf, CmoReg.present, Option.filter]

/-! ### The effective mode (rule R26) -/

/-- Settles O17. -/
theorem effectivePrivilegeModeByMprv : Obligations.EffectivePrivilegeModeByMprv := by
  intro s
  refine ⟨fun h => ?_, fun hm hmprv => ⟨fun hpp => ?_, fun hpp => ?_, fun hpp => ?_⟩⟩
  · obtain h | h := h <;> simp [State.effMode, h]
  all_goals simp [State.effMode, modeOf, hm, hmprv, hpp]

/-! ### The step and the fetch of the hart (rules R20, R22, R93, R112, R116) -/

/-- Where the hart is the agent that moves, the step is the hart's, with the agent taken off the schedule. -/
theorem step_of_hart (h : s.schedule = [] ∨ s.schedule.head? = some .hart) :
    step s = hartStep { s with schedule := s.schedule.tail } := by
  obtain ⟨cfg, self, hart, others, regions, mem, cache, gmo, rs, log, load, schedule, plan, fills, free⟩ := s
  cases schedule with
  | nil => rfl
  | cons e rest =>
    obtain rfl : e = .hart := by simpa using h
    rfl

theorem hartStep_of_pending {p : Pending} (h : s.hart.pending = some p) : hartStep s = .next (s.resume p) := by
  simp [hartStep, h]

theorem hartStep_of_fetched {i : Instr} {bs rest : List Byte} (hp : s.hart.pending = none) (htr : s.executeTriggers = .pass ())
    (hf : s.fetch = .pass bs) (hd : decodeBytes s.cfg.prefetchDecode bs = some (.instr i, rest)) : hartStep s = exec i s := by
  simp [hartStep, hp, htr, hf, State.runBytes, hd]

/-- Settles O7: with an instruction in progress the step resumes it, and with none the triggers, the fetch and the decoder come first. -/
theorem stepRunsTheDecodedInstruction : Obligations.StepRunsTheDecodedInstruction := by
  intro s h u
  have hu : step s = hartStep u := step_of_hart h
  rw [hu]
  exact ⟨fun _ => hartStep_of_pending, fun _ _ _ => hartStep_of_fetched⟩

/-- In M-mode nothing is translated, and the fetch of a byte asks for execute permission alone. -/
theorem State.fetchAddr_of_machineMode (hm : s.hart.mode = .M) {a : Word} (hx : s.jointX .M a.toNat = true) :
    s.fetchAddr a = .pass a.toNat := by
  simp [State.fetchAddr, hm, translateVa_M, hx]

/-- Settles O8: each of the four bytes is fetched from its own address and is the one that lies there. -/
theorem machineModeFetchReadsTheWordAtPc : Obligations.MachineModeFetchReadsTheWordAtPc := by
  intro s w at_ hm hpc hw hbytes
  have fetched : ∀ k < 4, s.fetchAt k = .pass (byteOfWord w k) := fun k hk => by
    obtain ⟨hx, hdef, hread⟩ := hbytes k hk
    simp only [State.fetchAt, State.fetchAddr_of_machineMode hm hx, Check.andThen, State.fetchByte]
    rw [if_pos hdef, hread]
  simp [State.fetch, hpc, fetched, Check.andThen, hw, bytesOfWord]

/-! ### After reset (rules R48, R231) -/

/-- Each of the four registers holds a value of its legal set. -/
theorem Hart.AfterReset.legal (ha : Hart.AfterReset c h) (q : CmoReg) : legalise (q.shape c) (h.cmo.get q) = h.cmo.get q := by
  cases q with
  | m => exact ha.legalM
  | s => exact ha.legalS
  | h => exact ha.legalH
  | vs => exact ha.legalVs

/-- Settles O56: the hart at reset is written out, and a value of a legal set has its reserved bits 0. -/
theorem resetLeavesMachineMode : Obligations.ResetLeavesMachineMode := by
  refine ⟨⟨⟨rfl, rfl, rfl, by decide, by decide, by decide, by decide, rfl⟩, fun _ hp => nomatch hp⟩, rfl, rfl,
    fun s h r b hs hh hb => ?_⟩
  have ha : Hart.AfterReset s.cfg h := by
    obtain rfl | ⟨o, ho⟩ := hh
    · exact hs.hart
    · exact hs.others _ ho
  rw [← ha.legal r]
  exact legalise_reserved _ _ hb

/-- A switch of harts leaves a state that reset may leave such a state. -/
theorem State.AfterReset.switchTo (h : r.AfterReset) (o : ObserverId) : (r.switchTo o).AfterReset := by
  unfold State.switchTo
  split
  · exact h
  · rename_i hf
    refine ⟨h.others _ (List.mem_of_find?_eq_some hf), fun p hp => ?_⟩
    obtain ⟨q, hq, rfl⟩ := List.mem_map.mp hp
    split
    · exact h.hart
    · exact h.others q hq

theorem State.AfterReset.effMode (h : s.AfterReset) : s.effMode = .M := by
  simp [State.effMode, h.hart.mode, h.hart.mprv]

/-- In effective M-mode `CBO.INVAL` has no address checks beyond those of the other management instructions (rule R184). -/
theorem checkAddr_inval_of_effM (h : s.effMode = .M) (va : Word) : s.checkAddr .inval va = s.checkAddr .mgmt va := by
  simp [State.checkAddr, h, translateVa_M, State.firstStageOk, State.gStageOk, State.jointOk]

/-- Settles O57: M-mode asks no enable bit, effective M-mode no `INVWxE` bit and no `INVWxI` bit. -/
theorem afterResetControlRegistersDoNotMatter : Obligations.AfterResetControlRegistersDoNotMatter := by
  intro r s rs1 q hr hs
  have hs : s.AfterReset := by
    obtain rfl | ⟨o, rfl⟩ := hs
    · exact hr
    · exact hr.switchTo o
  have check := checkAddr_inval_of_effM hs.effMode
  refine ⟨hs, by rw [hs.hart.mode]; rfl, by rw [hs.hart.mode]; rfl, check, fun hq => ?_⟩
  have hq' : MayManage s (.cboInval rs1) .inval q := ⟨hq.legal, hq.triggers, (check _).trans hq.address⟩
  rw [exec_cboInval_of_may hq', hs.effMode]
  rfl

end Sys2Proof.Machine
end

section
/-!
PROOFS. The statements of 60_exceptions.md about traps, delegation and returns (spec rules R201, R203, R206 to R208).
-/

namespace Sys2Proof.Machine

variable {s : State} {e : Exc}

/-! ### Traps (rules R201, R203, R206, R208) -/

/-- Guest-page faults by their codes. -/
theorem Cause.isGuestPageFault_iff (x : Cause) : x.isGuestPageFault = true ↔ x.code = 20 ∨ x.code = 21 ∨ x.code = 23 := by
  cases x <;> decide

theorem gpaReg_of_guest {c : Config} (h : e.cause.code = 20 ∨ e.cause.code = 21 ∨ e.cause.code = 23) (old : Word) :
    gpaReg c e old = c.trunc (BitVec.ofNat 64 (e.gpa / 4)) := if_pos ((Cause.isGuestPageFault_iff _).mpr h)

theorem gpaReg_of_not_guest {c : Config} (h : ¬(e.cause.code = 20 ∨ e.cause.code = 21 ∨ e.cause.code = 23)) (old : Word) :
    gpaReg c e old = old := if_neg ((Cause.isGuestPageFault_iff _).not.mpr h)

theorem tinstReg_of_not_guest {c : Config} (h : ¬(e.cause.code = 20 ∨ e.cause.code = 21 ∨ e.cause.code = 23)) (n : Nat)
    (old : Word) : tinstReg c e n old = old := if_neg ((Cause.isGuestPageFault_iff _).not.mpr h)

/-- The hart after a trap, by where the exception goes. -/
theorem State.trap_hart_of_target {k : TrapTarget} : trapTarget s.cfg s.hart.mode s.hart.csr e.cause = k →
    (s.trap e).hart =
      match k with
      | .m => trapToM s.cfg s.free s.hart e
      | .s => trapToS s.cfg s.free s.hart e
      | .vs => trapToVS s.cfg s.hart e := by
  rintro rfl; rfl

/-- Settles O28: `mtval2` and `mtinst` are the only registers whose value depends on the exception's kind. -/
theorem trapToMachineMode : Obligations.TrapToMachineMode := by
  intro s e ht h guest
  exact ⟨sameMemory_trap s e, gpaReg s.cfg e h.csr.mtval2, tinstReg s.cfg e s.free h.csr.mtinst, fun hg => gpaReg_of_guest hg _,
    fun hg => ⟨gpaReg_of_not_guest hg _, tinstReg_of_not_guest hg _ _⟩, State.trap_hart_of_target ht⟩

/-- Settles O29: `htval` and `htinst` likewise. -/
theorem trapToSupervisorMode : Obligations.TrapToSupervisorMode := by
  intro s e ht h guest
  exact ⟨sameMemory_trap s e, gpaReg s.cfg e h.csr.htval, tinstReg s.cfg e s.free h.csr.htinst, fun hg => gpaReg_of_guest hg _,
    fun hg => ⟨gpaReg_of_not_guest hg _, tinstReg_of_not_guest hg _ _⟩, State.trap_hart_of_target ht⟩

/-- Settles O30. -/
theorem trapToVirtualSupervisorMode : Obligations.TrapToVirtualSupervisorMode := fun s e ht =>
  ⟨sameMemory_trap s e, State.trap_hart_of_target ht⟩

/-- Settles O31: the statement's clauses are the two tests of the delegation. -/
theorem delegationOfExceptions : Obligations.DelegationOfExceptions := by
  intro c m csr e med hed guest
  have hguest : e.isGuestPageFault = true ↔ guest := Cause.isGuestPageFault_iff e
  refine ⟨fun h => if_pos (by simpa [or_assoc, med] using h), fun hm hs hmed => ?_⟩
  have below : trapTarget c m csr e = if m.virt && hed && !e.isGuestPageFault then .vs else .s :=
    if_neg (by simpa [hm, hs] using hmed)
  rw [below]
  refine ⟨fun ⟨hv, hh, hg⟩ => if_pos ?_, fun h => if_neg ?_⟩
  · have hvirt : m.virt = true := by obtain rfl | rfl := hv <;> rfl
    simpa [hvirt, hh] using hguest.not.mpr hg
  · simp only [Bool.and_eq_true, Bool.not_eq_true', and_assoc]
    rintro ⟨hvirt, hh, hg⟩
    obtain rfl | rfl | h | h := h
    · cases hvirt
    · cases hvirt
    · exact absurd hh (by simp [h])
    · exact absurd (hguest.mpr h) (by simp [hg])

/-! ### Returns (rule R207) -/

/-- The mode that a level and a virtualisation bit stand for, spelled out. -/
theorem modeOf_eq (c : Config) (l : PrivLevel) (v : Bool) : modeOf c l v =
    match l with
    | .m => .M
    | .s => if c.hasH = true ∧ v = true then .VS else .S
    | .u => if c.hasH = true ∧ v = true then .VU else .U := by
  cases l <;> simp [modeOf]

/-- Settles O32. -/
theorem mretRestores : Obligations.MretRestores := by
  intro s hp hm h st back
  have hback : modeOf s.cfg st.mpp st.mpv = back := modeOf_eq _ _ _
  simp only [runEvent, State.byHost_of_between hp, hm, mretAllowed, if_true, mretHart]
  rw [hback]

/-- The mode after an `SRET` in HS-mode or M-mode, spelled out. -/
theorem modeOf_spp (c : Config) (spp v : Bool) : modeOf c (if spp then .s else .u) v =
    if c.hasH = true ∧ v = true then (if spp then .VS else .VU) else (if spp then .S else .U) := by
  cases spp <;> simp [modeOf]

/-- Between instructions `SRET` does what it does in the hart's mode. -/
theorem runEvent_sret (hp : s.hart.pending = none) : runEvent .sret s = .next (((sretResult s.cfg s.hart).map s.withHart).getD s) := by
  simp only [runEvent, State.byHost_of_between hp]
  cases sretResult s.cfg s.hart <;> rfl

/-- Settles O33: HS-mode and M-mode return with the `s` registers, VS-mode with the `vs` copies, and the other modes have no `SRET`. -/
theorem sretRestores : Obligations.SretRestores := by
  intro s hp h
  simp only [runEvent_sret hp]
  refine ⟨fun hm => ?_, fun hm => ?_, fun hm => ?_⟩
  · have hres : sretResult s.cfg h = some (sretHart s.cfg h) := by
      obtain hm | ⟨hm, hs⟩ := hm <;> simp [sretResult, *]
    rw [hres, Option.map_some, Option.getD_some, sretHart, modeOf_spp]
  · simp [sretResult, hm, vsretHart, h]
  · have hres : sretResult s.cfg h = none := by
      obtain ⟨hm, hs⟩ | hm | hm := hm <;> simp [sretResult, *]
    rw [hres]
    rfl

end Sys2Proof.Machine
end

section
/-!
PROOFS. The statements of 60_exceptions.md about the tests before an instruction's operation: the address checks (spec rules R84 to
R90, R177 to R179, R184, R190, R191, R199), the triggers (rules R194 to R198), and which control registers play a part (rules R41,
R185, R210).
-/

namespace Sys2Proof.Machine

variable {s : State} {i : Instr} {rs1 : RegNum} {k : OpClass} {va : Word} {s1 g : Option Pte} {gpa pa : Nat}

/-! ### The answers of the address checks (rule R199) -/

theorem checkAddr_of_walkAccessFault (h : translateVa s.hart.csr va.toNat s.effMode = .walkAccessFault) :
    s.checkAddr k va = .raise (accessFaultOn va) := by
  simp [State.checkAddr, h]

theorem checkAddr_of_walkGuestPageFault (h : translateVa s.hart.csr va.toNat s.effMode = .walkGuestPageFault gpa) :
    s.checkAddr k va = .raise (guestPageFaultOn va gpa) := by
  simp [State.checkAddr, h]

section Mapped

variable (hmap : translateVa s.hart.csr va.toNat s.effMode = .mapped s1 g gpa pa)
include hmap

theorem checkAddr_of_firstStage (h1 : s.firstStageOk k s.effMode s1 = false) :
    s.checkAddr k va = .raise (pageFaultOn va) := by
  simp [State.checkAddr, hmap, h1]

theorem checkAddr_of_gStage (h1 : s.firstStageOk k s.effMode s1 = true) (h2 : s.gStageOk k g = false) :
    s.checkAddr k va = .raise (guestPageFaultOn va gpa) := by
  simp [State.checkAddr, hmap, h1, h2]

variable (h1 : s.firstStageOk k s.effMode s1 = true) (h2 : s.gStageOk k g = true)
include h1 h2

theorem checkAddr_of_pma (hp : s.pmaConstraintsMet pa = false) : s.checkAddr k va = .refuse .pmaConstraint := by
  simp [State.checkAddr, hmap, h1, h2, hp]

theorem checkAddr_of_joint (hp : s.pmaConstraintsMet pa = true) (h3 : s.jointOk k s.effMode pa = false) :
    s.checkAddr k va = .raise (accessFaultOn va) := by
  simp [State.checkAddr, hmap, h1, h2, hp, h3]

theorem checkAddr_of_allowed (hp : s.pmaConstraintsMet pa = true) (h3 : s.jointOk k s.effMode pa = true) :
    ∃ q, s.checkAddr k va = .pass q := by
  simp [State.checkAddr, hmap, h1, h2, hp, h3]

end Mapped

/-- What decides whether an instruction's address passes, for a management or write instruction's class of checks: each answer of
`CheckAddr` in its order, with what the instruction then does. -/
structure Decides (s : State) (i : Instr) (k : OpClass) (va : Word) : Prop where
  raise : ∀ e, s.checkAddr k va = .raise e → exec i s = .next (s.trap e)
  pass  : ∀ q, s.checkAddr k va = .pass q → ∃ t, exec i s = .next t ∧ (Completed s t ∨ InProgress s t)

/-- A management instruction that is not illegal and that no trigger stops does as its address checks say. -/
theorem decides_management (hi : i = .cboInval rs1 ∨ i = .cboClean rs1 ∨ i = .cboFlush rs1)
    (hl : illegalMgmt s.hart.cmo s.hart.mode = false) (htr : s.accessTriggers .mgmt (s.effAddr rs1) = .pass ()) :
    Decides s i (if i = .cboInval rs1 then .inval else .mgmt) (s.effAddr rs1) := by
  obtain ⟨rfl, -, op, hop, hex⟩ := exec_management (s := s) hi
  exact ⟨fun e he => hex.trans (manage_of_raise op hl htr he),
    fun q hq => ⟨op q, hex.trans (manage_of_may op ⟨hl, htr, hq⟩), hop q⟩⟩

/-- So does `CBO.ZERO`. -/
theorem decides_zero (hl : illegalWrite s.hart.cmo s.hart.mode = false)
    (htr : s.accessTriggers .write (s.effAddr rs1) = .pass ()) : Decides s (.cboZero rs1) .write (s.effAddr rs1) where
  raise e he := by simp [exec, execCboZero, hl, htr, he]
  pass q hq := ⟨_, cboZero_of_may ⟨hl, htr, hq⟩, zeroGroup_cases s _ _⟩

/-- The exceptions of an address, in order, and the instruction's going on where there is none. -/
theorem Decides.answers (h : Decides s i k va) :
    (translateVa s.hart.csr va.toNat s.effMode = .walkAccessFault → exec i s = .next (s.trap (accessFaultOn va))) ∧
    (translateVa s.hart.csr va.toNat s.effMode = .walkGuestPageFault gpa →
      exec i s = .next (s.trap (guestPageFaultOn va gpa))) ∧
    ∀ s1, translateVa s.hart.csr va.toNat s.effMode = .mapped s1 g gpa pa →
      (¬s.firstStageOk k s.effMode s1 = true → exec i s = .next (s.trap (pageFaultOn va))) ∧
      (s.firstStageOk k s.effMode s1 = true →
        (¬s.gStageOk k g = true → exec i s = .next (s.trap (guestPageFaultOn va gpa))) ∧
        (s.gStageOk k g = true → s.pmaConstraintsMet pa = true →
          (¬s.jointOk k s.effMode pa = true → exec i s = .next (s.trap (accessFaultOn va))) ∧
          (s.jointOk k s.effMode pa = true → ∃ t, exec i s = .next t ∧ (Completed s t ∨ InProgress s t)))) := by
  refine ⟨fun hw => h.raise _ (checkAddr_of_walkAccessFault hw), fun hw => h.raise _ (checkAddr_of_walkGuestPageFault hw),
    fun s1 hmap => ⟨fun h1 => ?_, fun h1 => ⟨fun h2 => ?_, fun h2 hp => ⟨fun h3 => ?_, fun h3 => ?_⟩⟩⟩⟩
  · exact h.raise _ (checkAddr_of_firstStage hmap (Bool.eq_false_iff.mpr h1))
  · exact h.raise _ (checkAddr_of_gStage hmap h1 (Bool.eq_false_iff.mpr h2))
  · exact h.raise _ (checkAddr_of_joint hmap h1 h2 hp (Bool.eq_false_iff.mpr h3))
  · obtain ⟨q, hq⟩ := checkAddr_of_allowed hmap h1 h2 hp h3
    exact h.pass q hq

/-! ### What the stages and the physical memory protections ask, spelled out (rules R85 to R89, R184) -/

/-- The user bit of a page, by mode (rule R86). -/
theorem uOk_iff (c : HostCsrs) (p : Pte) (m : Mode) : uOk c p m = true ↔
    match m with
    | .M => True
    | .U => p.u = true
    | .VU => p.u = true
    | .S => p.u = false ∨ c.mstatus.sum = true
    | .VS => p.u = false ∨ c.vsstatus.sum = true := by
  cases m <;> simp [uOk, sumOf]

theorem s1OkRX_iff {c : HostCsrs} {p : Pte} {m : Mode} :
    s1OkRX c p m = true ↔ p.v = true ∧ (p.r = true ∨ p.x = true) ∧ uOk c p m = true := by
  simp [s1OkRX, and_assoc]

theorem gOkRX_iff {p : Pte} : gOkRX p = true ↔ p.v = true ∧ (p.r = true ∨ p.x = true) ∧ p.u = true := by
  simp [gOkRX, and_assoc]

theorem s1OkW_iff {c : HostCsrs} {p : Pte} {m : Mode} : s1OkW c p m = true ↔ p.v = true ∧ p.w = true ∧ uOk c p m = true := by
  simp [s1OkW, and_assoc]

theorem gOkW_iff {p : Pte} : gOkW p = true ↔ p.v = true ∧ p.w = true ∧ p.u = true := by
  simp [gOkW, and_assoc]

/-- The test of `INVWxE` in the first stage, by mode (rule R184). -/
theorem firstStageInvalOk_iff (c : CmoCsrs) (p : Pte) (m : Mode) : firstStageInvalOk c m p = true ↔
    match m with
    | .M => True
    | .U => invwE c.scmocontrol p.w = true
    | .VU => invwE c.vscmocontrol p.w = true
    | .S => True
    | .VS => True := by
  cases m <;> simp [firstStageInvalOk]

section Stages

variable {inval : Prop} [Decidable inval] {m : Mode} {p : Pte}

/-- A stage that is off allows every access. -/
theorem firstStageOk_iff_forall : s.firstStageOk k m s1 = true ↔ ∀ p, s1 = some p → s.firstStageOk k m (some p) = true := by
  cases s1 <;> simp [State.firstStageOk]

theorem gStageOk_iff_forall : s.gStageOk k g = true ↔ ∀ p, g = some p → s.gStageOk k (some p) = true := by
  cases g <;> simp [State.gStageOk]

/-- `CBO.INVAL` asks of each stage what every management instruction asks, and its own test besides. -/
theorem firstStageOk_management : s.firstStageOk (if inval then .inval else .mgmt) m (some p) = true ↔
    s1OkRX s.hart.csr p m = true ∧ (inval → firstStageInvalOk s.hart.cmo m p = true) := by
  split_ifs with h <;> simp [State.firstStageOk, h]

theorem gStageOk_management : s.gStageOk (if inval then .inval else .mgmt) (some p) = true ↔
    gOkRX p = true ∧ (inval → invwE s.hart.cmo.hcmocontrol p.w = true) := by
  split_ifs with h <;> simp [State.gStageOk, h]

theorem allJointRX_iff : s.allJointRX m pa = true ↔ ∀ a ∈ s.block pa, s.jointR m a = true ∨ s.jointX m a = true := by
  simp [State.allJointRX]

theorem jointOk_management : s.jointOk (if inval then .inval else .mgmt) m pa = true ↔
    s.allJointRX m pa = true ∧ (inval → m = .M ∨ invwE s.hart.cmo.mcmocontrol (s.anyJointW m pa) = true) := by
  split_ifs with h <;> simp [State.jointOk, h]

end Stages

/-- Settles O23: the answers of the checks in their order, with what each stage asks spelled out. -/
theorem managementAddressChecks : Obligations.ManagementAddressChecks := by
  intro s i rs1 g gpa pa va m user allowed gAllowed c inval e firstE gE jointE hi hl htr
  have first (p : Pte) : s.firstStageOk (if inval then .inval else .mgmt) m (some p) = true ↔
      allowed p ∧ (inval → firstE p) := by
    rw [firstStageOk_management, s1OkRX_iff, uOk_iff, firstStageInvalOk_iff]; rfl
  have second (p : Pte) : s.gStageOk (if inval then .inval else .mgmt) (some p) = true ↔ gAllowed p ∧ (inval → gE p) := by
    rw [gStageOk_management, gOkRX_iff]; rfl
  have joint : s.jointOk (if inval then .inval else .mgmt) m pa = true ↔
      (∀ a ∈ s.block pa, s.jointR m a = true ∨ s.jointX m a = true) ∧ (inval → jointE) := by
    rw [jointOk_management, allJointRX_iff]; rfl
  obtain ⟨access, guest, mapped⟩ := (decides_management hi hl htr).answers (g := g) (gpa := gpa) (pa := pa)
  refine ⟨access, guest, fun p hmap hno => ?_, fun s1 hmap hfirst => ?_⟩
  · obtain ⟨page, -⟩ := mapped _ hmap
    exact page fun h => hno ((first p).mp h).1
  · obtain ⟨-, goes⟩ := mapped s1 hmap
    obtain ⟨guest, goes⟩ := goes (firstStageOk_iff_forall.mpr fun p hp => (first p).mpr (hfirst p hp))
    refine ⟨fun p hp hno => guest fun h => hno ((second p).mp (gStageOk_iff_forall.mp h p hp)).1, fun hsecond hpma => ?_⟩
    obtain ⟨access, goes⟩ := goes (gStageOk_iff_forall.mpr fun p hp => (second p).mpr (hsecond p hp)) hpma
    refine ⟨fun ⟨a, ha, hr, hx⟩ => access fun h => ?_, fun hrx hj => goes (joint.mpr ⟨hrx, hj⟩)⟩
    simpa [hr, hx] using (joint.mp h).1 a ha

/-- Settles O24: the same with write permission. -/
theorem writeAddressChecks : Obligations.WriteAddressChecks := by
  intro s rs1 g gpa pa va m i user allowed gAllowed hl htr
  have first (p : Pte) : s.firstStageOk .write m (some p) = true ↔ allowed p := by
    rw [State.firstStageOk, s1OkW_iff, uOk_iff] <;> rfl
  have second (p : Pte) : s.gStageOk .write (some p) = true ↔ gAllowed p := gOkW_iff
  have joint : s.jointOk .write m pa = true ↔ ∀ a ∈ s.block pa, s.jointW m a = true := by
    simp [State.jointOk, State.fullJointW]
  obtain ⟨access, guest, mapped⟩ := (decides_zero hl htr).answers (g := g) (gpa := gpa) (pa := pa)
  refine ⟨access, guest, fun p hmap hno => ?_, fun s1 hmap hfirst => ?_⟩
  · obtain ⟨page, -⟩ := mapped _ hmap
    exact page fun h => hno ((first p).mp h)
  · obtain ⟨-, goes⟩ := mapped s1 hmap
    obtain ⟨guest, goes⟩ := goes (firstStageOk_iff_forall.mpr fun p hp => (first p).mpr (hfirst p hp))
    refine ⟨fun p hp hno => guest fun h => hno ((second p).mp (gStageOk_iff_forall.mp h p hp)), fun hsecond hpma => ?_⟩
    obtain ⟨access, goes⟩ := goes (gStageOk_iff_forall.mpr fun p hp => (second p).mpr (hsecond p hp)) hpma
    refine ⟨fun ⟨a, ha, hw⟩ => access fun h => ?_, fun hw => goes (joint.mpr hw)⟩
    simpa [hw] using joint.mp h a ha

/-! ### The PMA constraints (rule R90) -/

/-- What it is not to meet them, spelled out. -/
theorem pmaConstraintsMet_eq_false (h : (∃ a ∈ s.block pa, s.attrs a ≠ s.attrs pa) ∨
    (∃ a, s.attrs pa = some a ∧ a.perm.w = true ∧ a.perm.r = false)) : s.pmaConstraintsMet pa = false := by
  rw [← Bool.not_eq_true]
  intro hmet
  obtain ⟨a, ha, hne⟩ | ⟨a, ha, hw, hr⟩ := h
  · exact hne (attrs_eq_of_pmaConstraintsMet hmet ha)
  · simp [State.pmaConstraintsMet, ha, hw, hr] at hmet

theorem accessTriggers_of_none (h : s.hart.csr.triggers = []) (class_ : AccessClass) (va : Word) :
    s.accessTriggers class_ va = .pass () := by
  simp [State.accessTriggers, h, State.fire]

/-- An instruction that is not illegal and that no trigger stops is refused where its address checks refuse. -/
theorem manage_of_refuse {op : Checked → State} {x : Refusal} (hl : illegalMgmt s.hart.cmo s.hart.mode = false)
    (htr : s.accessTriggers .mgmt (s.effAddr i.rs1) = .pass ()) (h : s.checkAddr k (s.effAddr i.rs1) = .refuse x) :
    s.manage i k op = .refused x := by
  simp [State.manage, hl, htr, h]

theorem hintTarget_of_pma (hmap : translateVa s.hart.csr va.toNat s.effMode = .mapped s1 g gpa pa)
    (h1 : s.firstStageOk .mgmt s.effMode s1 = true) (h2 : s.gStageOk .mgmt g = true) (hp : s.pmaConstraintsMet pa = false) :
    s.hintTarget va = .refuse .pmaConstraint := by
  simp [State.hintTarget, hmap, h1, h2, hp]

/-- Settles O25: the test of the PMA constraints comes right after the two stages, for a hint too. -/
theorem pmaConstraintsUnmetIsRefused : Obligations.PmaConstraintsUnmetIsRefused := by
  intro s k i rs1 s1 g gpa pa hi hmgmt hwrite htr hmap h1 h2 hno
  have hp := pmaConstraintsMet_eq_false hno
  have hrefuse := checkAddr_of_pma hmap h1 h2 hp
  have pass (class_ : AccessClass) := accessTriggers_of_none htr class_ (s.effAddr rs1)
  obtain ⟨rfl, rfl⟩ | ⟨rfl, rfl⟩ | ⟨rfl, rfl⟩ | ⟨rfl, rfl⟩ | ⟨rfl, hint, rfl⟩ := hi
  · exact manage_of_refuse (hmgmt nofun rfl) (pass _) hrefuse
  · exact manage_of_refuse (hmgmt nofun rfl) (pass _) hrefuse
  · exact manage_of_refuse (hmgmt nofun rfl) (pass _) hrefuse
  · simp [exec, execCboZero, hwrite rfl, pass, hrefuse]
  · rw [exec_hint hint, hint_of_no_trigger (pass _), hintTarget_of_pma hmap h1 h2 hp, checked_refuse]

/-! ### One armed trigger (rules R194 to R198) -/

/-- What the triggers take an instruction for (rules R195, R196). -/
def Instr.accessClass (c : Config) (i : Instr) : AccessClass :=
  match i with
  | .cboInval _ => .mgmt
  | .cboClean _ => .mgmt
  | .cboFlush _ => .mgmt
  | .cboZero _ => .write
  | .prefetchR _ _ => .hint c
  | .prefetchW _ _ => .hint c
  | .prefetchI _ _ => .hint c

/-- Its own enable bits do not forbid the instruction (rules R172 to R174). -/
def State.Enables (s : State) (i : Instr) : Prop :=
  match i with
  | .cboInval _ => illegalMgmt s.hart.cmo s.hart.mode = false
  | .cboClean _ => illegalMgmt s.hart.cmo s.hart.mode = false
  | .cboFlush _ => illegalMgmt s.hart.cmo s.hart.mode = false
  | .cboZero _ => illegalWrite s.hart.cmo s.hart.mode = false
  | .prefetchR _ _ => True
  | .prefetchW _ _ => True
  | .prefetchI _ _ => True

/-- The triggers come first in an instruction that its own enable bits do not forbid (rule R200). -/
theorem exec_eq_checked (h : s.Enables i) :
    ∃ rest, exec i s = s.checked (s.accessTriggers (Instr.accessClass s.cfg i) (s.effAddr i.rs1)) rest := by
  cases i with
  | cboInval rs1 => exact ⟨_, if_neg (Bool.eq_false_iff.mp h)⟩
  | cboClean rs1 => exact ⟨_, if_neg (Bool.eq_false_iff.mp h)⟩
  | cboFlush rs1 => exact ⟨_, if_neg (Bool.eq_false_iff.mp h)⟩
  | cboZero rs1 => exact ⟨_, if_neg (Bool.eq_false_iff.mp h)⟩
  | prefetchR rs1 level => exact ⟨_, rfl⟩
  | prefetchW rs1 level => exact ⟨_, rfl⟩
  | prefetchI rs1 level => exact ⟨_, rfl⟩

theorem accessClass_of_hint {c : Config} (h : i.isHint = true) : Instr.accessClass c i = .hint c := by
  revert h; cases i <;> simp [Instr.isHint, Instr.accessClass]

theorem enables_of_hint (h : i.isHint = true) : s.Enables i := by
  revert h; cases i <;> simp [Instr.isHint, State.Enables]

/-- Whether a trigger matches an address, spelled out (rule R198). -/
theorem Trigger.hits_iff (tr : Trigger) (a : Word) : tr.hits a = true ↔
    match tr.compare with
    | .exact => tr.addr = a
    | .napot k => tr.addr.toNat / 2 ^ k = a.toNat / 2 ^ k := by
  unfold Trigger.hits
  cases tr.compare <;> simp

/-- A breakpoint trigger that fires raises the breakpoint exception. -/
theorem fire_breakpoint {tr : Trigger} (h : tr.action = .breakpoint) : ∃ e, e.cause = .breakpoint ∧ s.fire [tr] = .raise e :=
  ⟨{ cause := .breakpoint, tval := s.cfg.trunc (Config.freeBreakpointTval s.free), gpa := 0 }, rfl, by simp [State.fire, h]⟩

theorem fire_nil : s.fire [] = .pass () := rfl

section OneTrigger

variable {tr : Trigger} {class_ : AccessClass} (hts : s.hart.csr.triggers = [tr])
include hts

theorem accessTriggers_of_unspecified (h : tr.unspecified = true) : s.accessTriggers class_ va = .refuse .unspecifiedTrigger := by
  simp [State.accessTriggers, hts, h]

theorem accessTriggers_of_silent (hu : tr.unspecified = false) (hf : tr.firesOnAccess class_ va = false) :
    s.accessTriggers class_ va = .pass () := by
  simp [State.accessTriggers, hts, hu, hf, fire_nil]

theorem accessTriggers_of_fires (ha : tr.action = .breakpoint) (hu : tr.unspecified = false)
    (hf : tr.firesOnAccess class_ va = true) : ∃ e, e.cause = .breakpoint ∧ s.accessTriggers class_ va = .raise e := by
  obtain ⟨e, he, hfire⟩ := fire_breakpoint (s := s) ha
  exact ⟨e, he, by simp [State.accessTriggers, hts, hu, hf, hfire]⟩

theorem executeTriggers_of_silent (hf : tr.firesOnExecute s.hart.pc = false) : s.executeTriggers = .pass () := by
  simp [State.executeTriggers, hts, hf, fire_nil]

theorem executeTriggers_of_fires (ha : tr.action = .breakpoint) (hf : tr.firesOnExecute s.hart.pc = true) :
    ∃ e, e.cause = .breakpoint ∧ s.executeTriggers = .raise e := by
  obtain ⟨e, he, hfire⟩ := fire_breakpoint (s := s) ha
  exact ⟨e, he, by simp [State.executeTriggers, hts, hf, hfire]⟩

/-- A breakpoint trigger that fires on an instruction which is not forbidden stops it. -/
theorem exec_of_fires (ha : tr.action = .breakpoint) (hu : tr.unspecified = false) (hen : s.Enables i)
    (hf : tr.firesOnAccess (Instr.accessClass s.cfg i) (s.effAddr i.rs1) = true) :
    ∃ e, e.cause = .breakpoint ∧ exec i s = .next (s.trap e) := by
  obtain ⟨rest, hex⟩ := exec_eq_checked hen
  obtain ⟨e, he, hraise⟩ := accessTriggers_of_fires hts ha hu hf
  exact ⟨e, he, by rw [hex, hraise, checked_raise]⟩

end OneTrigger

/-- Settles O27: each clause sets what the trigger's test asks, and the triggers are the first test of an instruction that is not
forbidden and the first of a step with none in progress. -/
theorem triggersOnCmoInstructions : Obligations.TriggersOnCmoInstructions := by
  intro s tr i hts harm hact legal va hit stops
  have hits (a : Word) : tr.hits a = true ↔ hit a := tr.hits_iff a
  have typed (h6 : tr.ttype = .mcontrol6) (hd : tr.data = false) : tr.unspecified = false := by
    simp [Trigger.unspecified, h6, hd]
  have fires (class_ : AccessClass) (h6 : tr.ttype = .mcontrol6) (hd : tr.data = false) (hh : hit va) :
      tr.firesOnAccess class_ va = (tr.load && class_.load || tr.store && class_.store) := by
    simp [Trigger.firesOnAccess, harm, h6, hd, (hits va).mpr hh]
  have stop (hen : s.Enables i) (h6 : tr.ttype = .mcontrol6) (hd : tr.data = false) (hh : hit va)
      (hf : (tr.load && (Instr.accessClass s.cfg i).load || tr.store && (Instr.accessClass s.cfg i).store) = true) : stops :=
    exec_of_fires hts hact (typed h6 hd) hen ((fires _ h6 hd hh).trans hf)
  have silent (class_ : AccessClass) (h6 : tr.ttype = .mcontrol6) (hd : tr.data = false) (hh : hit va)
      (hf : (tr.load && class_.load || tr.store && class_.store) = false) : s.accessTriggers class_ va = .pass () :=
    accessTriggers_of_silent hts (typed h6 hd) ((fires _ h6 hd hh).trans hf)
  refine ⟨fun h6 hd hh => ⟨fun rs1 hi hl hls => ?_, fun rs1 hi => ⟨fun hl hst => ?_, fun hst => ?_⟩,
      fun hint hls => ⟨fun hh' => ?_, fun hh' => ?_⟩⟩,
    fun h6 hd hh class_ => ?_, fun hty hls hl => ?_, fun hex hd hh hp => ?_, fun hno => ?_⟩
  · have hclass : Instr.accessClass s.cfg i = .mgmt := by obtain rfl | rfl | rfl := hi <;> rfl
    exact stop hl h6 hd hh (by simpa [hclass, AccessClass.mgmt] using hls)
  · have hclass : Instr.accessClass s.cfg i = .write := by rw [hi]; rfl
    exact stop hl h6 hd hh (by simp [hclass, AccessClass.write, hst])
  · exact silent .write h6 hd hh (by simp [AccessClass.write, hst])
  · exact stop (enables_of_hint hint) h6 hd hh (by simpa [accessClass_of_hint hint, AccessClass.hint, hh'] using hls)
  · exact silent _ h6 hd hh (by simp [AccessClass.hint, hh'])
  · exact accessTriggers_of_silent hts (typed h6 hd) (by simp [Trigger.firesOnAccess, (hits va).not.mpr hh])
  · obtain ⟨rest, hrun⟩ := exec_eq_checked (s := s) (i := i) hl
    have hun : tr.unspecified = true := by simpa [Trigger.unspecified, harm] using ⟨hls, hty⟩
    rw [hrun, accessTriggers_of_unspecified hts hun, checked_refuse]
  · obtain ⟨e, he, hraise⟩ := executeTriggers_of_fires hts hact
      (by simpa [Trigger.firesOnExecute, harm, hex, hd] using (hits _).mpr hh)
    exact ⟨e, he, by simp [hartStep, hp, hraise]⟩
  · refine executeTriggers_of_silent hts ?_
    obtain hex | hh := hno
    · simp [Trigger.firesOnExecute, hex]
    · simp [Trigger.firesOnExecute, (hits _).not.mpr hh]

/-! ### The control registers that play a part (rules R41, R185, R188, R210) -/

/-- The control registers that govern a mode are the same. -/
def SameGoverning (m : Mode) (c d : CmoCsrs) : Prop :=
  match m with
  | .M => True
  | .S => c.mcmocontrol = d.mcmocontrol
  | .U => c.mcmocontrol = d.mcmocontrol ∧ c.scmocontrol = d.scmocontrol
  | .VS => c.mcmocontrol = d.mcmocontrol ∧ c.hcmocontrol = d.hcmocontrol
  | .VU => c.mcmocontrol = d.mcmocontrol ∧ c.hcmocontrol = d.hcmocontrol ∧ c.vscmocontrol = d.vscmocontrol

section Governing

variable {m : Mode} {c d : CmoCsrs} (h : SameGoverning m c d)
include h

theorem SameGoverning.illegalMgmt : illegalMgmt c m = illegalMgmt d m := by
  cases m <;> simp_all [SameGoverning, Machine.illegalMgmt]

theorem SameGoverning.illegalWrite : illegalWrite c m = illegalWrite d m := by
  cases m <;> simp_all [SameGoverning, Machine.illegalWrite]

theorem SameGoverning.firstStageInvalOk : firstStageInvalOk c m = firstStageInvalOk d m := by
  funext p
  cases m <;> simp_all [SameGoverning, Machine.firstStageInvalOk]

theorem SameGoverning.hcmocontrol (hm : m.virt = true) : c.hcmocontrol = d.hcmocontrol := by
  cases m <;> simp_all [SameGoverning, Mode.virt]

theorem SameGoverning.mcmocontrol (hm : m ≠ .M) : c.mcmocontrol = d.mcmocontrol := by
  cases m <;> simp_all [SameGoverning]

theorem SameGoverning.performsInvalidate (wm : Bool) : performsInvalidate c m s1 g wm = performsInvalidate d m s1 g wm := by
  cases m <;> simp_all [SameGoverning, Machine.performsInvalidate]

end Governing

section SetCmo

variable {c : CmoCsrs} (h : SameGoverning s.effMode c s.hart.cmo)
include h

/-- The current mode is M, which asks no enable bit, or the effective one. -/
theorem sameGoverning_current : SameGoverning s.hart.mode c s.hart.cmo := by
  unfold State.effMode at h
  split_ifs at h with hm
  · simp only [Bool.and_eq_true, decide_eq_true_eq] at hm
    rw [hm.1]; trivial
  · exact h

theorem firstStageOk_setCmo : (s.setCmo c).firstStageOk k s.effMode s1 = s.firstStageOk k s.effMode s1 := by
  cases s1 with
  | none => rfl
  | some p =>
    cases k with
    | inval => exact congrArg (s1OkRX s.hart.csr p s.effMode && ·) (congrFun h.firstStageInvalOk p)
    | mgmt => rfl
    | write => rfl

/-- Where there is a G-stage, its register governs the mode; after a first stage that ends at no valid leaf none is asked. -/
theorem gStageOk_setCmo (hmap : translateVa s.hart.csr va.toNat s.effMode = .mapped s1 g gpa pa)
    (h1 : s.firstStageOk k s.effMode s1 = true) : (s.setCmo c).gStageOk k g = s.gStageOk k g := by
  cases hv : s.effMode.virt with
  | false => rw [gStage_eq_none hmap (valid_of_firstStageOk h1) hv]; rfl
  | true =>
    cases g with
    | none => rfl
    | some p =>
      cases k with
      | inval => exact congrArg (fun r => gOkRX p && invwE r p.w) (h.hcmocontrol hv)
      | mgmt => rfl
      | write => rfl

theorem jointOk_setCmo : (s.setCmo c).jointOk k s.effMode pa = s.jointOk k s.effMode pa := by
  cases k with
  | mgmt => rfl
  | write => rfl
  | inval =>
    by_cases hm : s.effMode = .M
    · simp only [State.jointOk, hm]; rfl
    · exact congrArg (fun r => s.allJointRX s.effMode pa && (s.effMode == .M || invwE r (s.anyJointW s.effMode pa)))
        (h.mcmocontrol hm)

theorem checkAddr_setCmo : (s.setCmo c).checkAddr k = s.checkAddr k := by
  funext va
  unfold State.checkAddr
  dsimp only
  rw [show (s.setCmo c).effMode = s.effMode from rfl,
    show translateVa (s.setCmo c).hart.csr va.toNat s.effMode = translateVa s.hart.csr va.toNat s.effMode from rfl]
  cases hmap : translateVa s.hart.csr va.toNat s.effMode with
  | walkAccessFault => rfl
  | walkGuestPageFault gpa => rfl
  | mapped s1 g gpa pa =>
    dsimp only
    rw [firstStageOk_setCmo h, jointOk_setCmo h]
    cases h1 : s.firstStageOk k s.effMode s1 with
    | false => rfl
    | true => rw [gStageOk_setCmo h hmap h1]; rfl

end SetCmo

/-- Settles O20: no test of an instruction reads a register that governs neither the current nor the effective mode, and no operation
reads or writes one. -/
theorem onlyGoverningRegistersMatter : Obligations.OnlyGoverningRegistersMatter := by
  intro i s c d hsame
  have h : SameGoverning s.effMode c s.hart.cmo := hsame
  have hf := Hart.unseen_setCmo c
  have hill := (sameGoverning_current h).illegalMgmt
  simp only [State.setCmo_eq_mapHart]
  cases i with
  | cboInval rs1 =>
    refine manage_mapHart hf rfl hill rfl (checkAddr_setCmo h) fun q => ?_
    rw [apply_ite (State.mapHart _), ← doInvalidate_mapHart hf, ← doFlush_mapHart hf]
    exact congrArg (fun b : Bool => if b then (s.setCmo c).doInvalidate q.pa else (s.setCmo c).doFlush q.pa)
      (h.performsInvalidate q.wm)
  | cboClean rs1 => exact manage_mapHart hf rfl hill rfl (checkAddr_setCmo h) fun q => doClean_mapHart hf q.pa
  | cboFlush rs1 => exact manage_mapHart hf rfl hill rfl (checkAddr_setCmo h) fun q => doFlush_mapHart hf q.pa
  | cboZero rs1 => exact cboZero_mapHart hf rfl (sameGoverning_current h).illegalWrite rfl (checkAddr_setCmo h)
  | prefetchR rs1 level => exact hint_mapHart hf rfl rfl rfl
  | prefetchW rs1 level => exact hint_mapHart hf rfl rfl rfl
  | prefetchI rs1 level => exact hint_mapHart hf rfl rfl rfl

end Sys2Proof.Machine
end
